-- ==== Sys2Proof/Word.lean ====
section
/-! DEFINITION. The word types of HUFFCORE (rule R6): plain abbreviations of bit vectors, and the sum type of symbols. -/

namespace Sys2Proof

/-- One byte of a payload, of decoded output, or of input (R10). -/
abbrev Byte := BitVec 8

/-- One command word on the port CMD, and ERR_CMD (R6 CMDW, R90). -/
abbrev Cmd64 := BitVec 64

/-- The data part of a response (R6 RDATAW). -/
abbrev Data64 := BitVec 64

/-- An occurrence count (R6 CW). -/
abbrev Count := BitVec 32

/-- A node weight (R6 WW). -/
abbrev Weight := BitVec 41

/-- A node index of the tree memory (R6 IDXW). -/
abbrev NodeIdx := BitVec 10

/-- A symbol code on the wire (R6 SYMW). -/
abbrev SymCode := BitVec 9

/-- A symbol as the sum type rule R21 asks for: a literal byte or one of the two sentinels. -/
inductive Symbol where
  | byte (b : Byte)
  | endOfData
  | internal
deriving DecidableEq, Repr

end Sys2Proof
end

