-- ==== Sys2Proof/Config.lean ====
section
/-! DEFINITION. The constants of rule R6 and the one free value of the spec (rule R301, U2). -/

namespace Sys2Proof

/-- NBYTE of R6: literal byte values. -/
abbrev Config.nbyte : Nat := 256

/-- NSYM of R6: symbols that can be coded, the size of FT and CT. -/
abbrev Config.nsym : Nat := 257

/-- NNODE of R6: the number of tree-memory records. -/
abbrev Config.nnode : Nat := 513

/-- MAXLEN of R6: the longest code in bits. -/
abbrev Config.maxLen : Nat := 256

/-- FREE VALUE (log entry 3). How many output bytes of a command had left before a reset cut it short, as a function
of the draw number `State.draws`. Rule R301 leaves the length unspecified, so this constant has no body. -/
opaque Config.bytesBeforeReset : Nat → Nat

end Sys2Proof
end

