-- ==== Sys2Proof/Syntax.lean ====
section
/-! DEFINITION. The 18 commands of rule R94, one constructor per row of spec/opcode_table.json, with the operand fields of rule R91. -/

namespace Sys2Proof

/-- A command with its operand fields at their exact widths (R91, R103). -/
inductive Instr where
  /-- R241 -/
  | nop
  /-- R242 -/
  | clear
  /-- R243 -/
  | rdReg (r : BitVec 4)
  /-- R121 -/
  | ftSet (sym : SymCode) (count : Count)
  /-- R122 -/
  | ftRead (sym : SymCode)
  /-- R123 -/
  | fcByte (d : Byte)
  /-- R124 -/
  | fcEnd
  /-- R141 -/
  | build
  /-- R148 -/
  | tmRead (idx : NodeIdx) (sel2 : BitVec 2)
  /-- R171 -/
  | derive
  /-- R173 -/
  | ctRead (sym : SymCode) (sel4 : BitVec 4)
  /-- R192 -/
  | encStart
  /-- R193 -/
  | encSym (d : Byte)
  /-- R194 -/
  | encEnd
  /-- R212 -/
  | decStart
  /-- R213 -/
  | decBit (b : Bool)
  /-- R214 -/
  | decByte (d : Byte)
  /-- R215 -/
  | decEnd
deriving DecidableEq, Repr

end Sys2Proof
end

