-- ==== Sys2Proof/Decode.lean ====
section
/-! DEFINITION. Decoding a command word and encoding a command, from the tables of rules R91, R92 and R94. -/

namespace Sys2Proof

/-- Why a word is illegal (R95). Both raise E_ILLEGAL. -/
inductive Reject where
  /-- the opcode is not one of the 18 of R94 -/
  | unknownOpcode (op : BitVec 8)
  /-- the opcode is assigned, but a must-be-zero bit of its format is 1 -/
  | mustBeZero (op : BitVec 8)
deriving DecidableEq, Repr

/-- What a word decodes to. -/
inductive Decoded where
  | instr (i : Instr)
  | rejected (r : Reject)
deriving DecidableEq, Repr

/-- The eight formats of R92. -/
inductive Format where
  | z | r | d | b | sc | s | ss | xs
deriving DecidableEq, Repr

/-- The mask of a format: 1 in every fixed bit (R92). -/
def Format.mask : Format → BitVec 64
  | .z => 0xFFFFFFFFFFFFFFFF
  | .r => 0xFFFFFFFFFFFFFFF0
  | .d => 0xFFFFFFFFFFFFFF00
  | .b => 0xFFFFFFFFFFFFFFFE
  | .sc => 0xFFFFFE0000000000
  | .s => 0xFFFFFE00FFFFFFFF
  | .ss => 0xFFFFFE00FFFFFFF0
  | .xs => 0xFFFFFC00FFFFFFFC

/-! The fields of R91, read from a word. -/

def fieldOp (w : Cmd64) : BitVec 8 := w.extractLsb' 56 8
def fieldIdx (w : Cmd64) : NodeIdx := w.extractLsb' 32 10
def fieldSym (w : Cmd64) : SymCode := w.extractLsb' 32 9
def fieldCount (w : Cmd64) : Count := w.extractLsb' 0 32
def fieldD (w : Cmd64) : Byte := w.extractLsb' 0 8
def fieldSel4 (w : Cmd64) : BitVec 4 := w.extractLsb' 0 4
def fieldR (w : Cmd64) : BitVec 4 := w.extractLsb' 0 4
def fieldSel2 (w : Cmd64) : BitVec 2 := w.extractLsb' 0 2
def fieldB (w : Cmd64) : Bool := w.getLsbD 0

/-- One row of the opcode map R94: opcode, format, and the command built from the fields of a word. -/
structure Row where
  op : BitVec 8
  fmt : Format
  make : Cmd64 → Instr

/-- `match` of a row: the opcode in bits 63 to 56, all other bits 0 (R92). -/
def Row.pattern (row : Row) : Cmd64 := row.op.setWidth 64 <<< 56

/-- The row selects the word: `w & mask = match` (R92). -/
def Row.selects (row : Row) (w : Cmd64) : Bool := w &&& row.fmt.mask == row.pattern

/-- The opcode map, R94, in the order of the table. -/
def rows : List Row :=
  [ ⟨0x01, .z, fun _ => .nop⟩,
    ⟨0x02, .z, fun _ => .clear⟩,
    ⟨0x03, .r, fun w => .rdReg (fieldR w)⟩,
    ⟨0x10, .sc, fun w => .ftSet (fieldSym w) (fieldCount w)⟩,
    ⟨0x11, .s, fun w => .ftRead (fieldSym w)⟩,
    ⟨0x12, .d, fun w => .fcByte (fieldD w)⟩,
    ⟨0x13, .z, fun _ => .fcEnd⟩,
    ⟨0x20, .z, fun _ => .build⟩,
    ⟨0x21, .xs, fun w => .tmRead (fieldIdx w) (fieldSel2 w)⟩,
    ⟨0x30, .z, fun _ => .derive⟩,
    ⟨0x31, .ss, fun w => .ctRead (fieldSym w) (fieldSel4 w)⟩,
    ⟨0x40, .z, fun _ => .encStart⟩,
    ⟨0x41, .d, fun w => .encSym (fieldD w)⟩,
    ⟨0x42, .z, fun _ => .encEnd⟩,
    ⟨0x50, .z, fun _ => .decStart⟩,
    ⟨0x51, .b, fun w => .decBit (fieldB w)⟩,
    ⟨0x52, .d, fun w => .decByte (fieldD w)⟩,
    ⟨0x53, .z, fun _ => .decEnd⟩ ]

/-- Decode any command word: step 1 of R102. At most one row selects a word, because the opcodes differ. -/
def decode (w : Cmd64) : Decoded :=
  match rows.find? (fun row => row.selects w) with
  | some row => .instr (row.make w)
  | none =>
    if rows.any (fun row => row.op == fieldOp w) then .rejected (.mustBeZero (fieldOp w))
    else .rejected (.unknownOpcode (fieldOp w))

/-! The encoder: `match` of the row with each operand placed in its field (R91, R94, R100). -/

/-- A field value placed at bit `lo` of a word. -/
def placeField {n : Nat} (v : BitVec n) (lo : Nat) : Cmd64 := v.setWidth 64 <<< lo

/-- The opcode of a command (R94). -/
def Instr.opcode : Instr → BitVec 8
  | .nop => 0x01
  | .clear => 0x02
  | .rdReg _ => 0x03
  | .ftSet _ _ => 0x10
  | .ftRead _ => 0x11
  | .fcByte _ => 0x12
  | .fcEnd => 0x13
  | .build => 0x20
  | .tmRead _ _ => 0x21
  | .derive => 0x30
  | .ctRead _ _ => 0x31
  | .encStart => 0x40
  | .encSym _ => 0x41
  | .encEnd => 0x42
  | .decStart => 0x50
  | .decBit _ => 0x51
  | .decByte _ => 0x52
  | .decEnd => 0x53

/-- The operand bits of a command, every field in its place (R91). -/
def Instr.operandBits : Instr → Cmd64
  | .nop => 0
  | .clear => 0
  | .rdReg r => placeField r 0
  | .ftSet sym count => placeField sym 32 ||| placeField count 0
  | .ftRead sym => placeField sym 32
  | .fcByte d => placeField d 0
  | .fcEnd => 0
  | .build => 0
  | .tmRead idx sel2 => placeField idx 32 ||| placeField sel2 0
  | .derive => 0
  | .ctRead sym sel4 => placeField sym 32 ||| placeField sel4 0
  | .encStart => 0
  | .encSym d => placeField d 0
  | .encEnd => 0
  | .decStart => 0
  | .decBit b => placeField (BitVec.ofBool b) 0
  | .decByte d => placeField d 0
  | .decEnd => 0

/-- The command word of a command (R90, R100). -/
def encode (i : Instr) : Cmd64 := placeField i.opcode 56 ||| i.operandBits

/-- The host's question about a row of spec/opcode_table.json: the command decoded from a word whose bits are `w`,
bit 0 the least significant. A command is one 64-bit word (R90), so no longer word is a command, and a row given fewer
bits has zeros above them. -/
def decodeTableWord (nbits w : Nat) : Option Instr :=
  if nbits ≤ 64 then
    match decode (BitVec.ofNat 64 w) with
    | .instr i => some i
    | .rejected _ => none
  else none

end Sys2Proof
end

