-- ==== Sys2Proof/Machine/State.lean ====
section
/-! DEFINITION. The state of HUFFCORE as rule R20 lists it, with the ports of rule R10, and the state after reset (R47). -/

namespace Sys2Proof.Machine

/-- ENC_ST of R20 and R31; the value 3 never occurs (Z6). -/
inductive EncSt where
  | idle | run | done
deriving DecidableEq, Repr

/-- DEC_ST of R20 and R32. -/
inductive DecSt where
  | idle | run | doneEod | doneTrunc
deriving DecidableEq, Repr

/-- The `rstat` and ERR_CODE values of R261. The codes 9 to 14 are never produced (Z5). -/
inductive Rstat where
  | ok
  | eIllegal
  | eOperand
  | eState
  | eNoTree
  | eInvalidInput
  | eMissingCode
  | eCountOvf
  | eNoChild
  | eFaulted
deriving DecidableEq, Repr

/-- A node record of the tree memory (R25). `left` is the pair (lv, left) and `right` the pair (rv, right): an absent
child has no index, and the index of an absent child reads 0. -/
structure NodeRec where
  sym : Symbol
  weight : Weight
  left : Option NodeIdx
  right : Option NodeIdx
deriving DecidableEq, Repr

/-- The all-zero record: what an unused entry of TM holds (R25, R47). -/
def NodeRec.zero : NodeRec := { sym := .byte 0, weight := 0, left := none, right := none }

/-- One response on RSP (R10, R97). -/
structure Resp where
  rstat : Rstat
  rdata : Data64
deriving DecidableEq, Repr

/-- Something HUFFCORE puts on an output port (R10): a byte on EOUT, a byte on DOUT, a response on RSP. -/
inductive PortEvent where
  | eout (b : Byte)
  | dout (b : Byte)
  | rsp (r : Resp)
deriving DecidableEq, Repr

/-- Something the host does (R10, R11). -/
inductive HostEvent where
  /-- a command word on CMD, presented after the response to the one before it -/
  | command (w : Cmd64)
  /-- RST asserted between commands (R300) -/
  | reset
  /-- a command word on CMD, and RST asserted while it is in execution (R301) -/
  | commandCutByReset (w : Cmd64)
deriving DecidableEq, Repr

/-- Why the model itself stops. No run from reset meets one of these: every fault of the SPEC is a response, hence a
next state. Log entry 4. -/
inductive Fault where
  /-- SAFE. Raised by TM_READ, DERIVE, DEC_BIT and DEC_BYTE on reading a tree-memory index above 512, which R69 says does
  not exist. Only a state whose NN, ROOT, DEC_CUR or child index is out of range leads here. -/
  | tmIndexAbsent (index : Nat)
  /-- SAFE. Raised by DERIVE on a leaf whose symbol is INTERNAL: it would write a CT entry that R69 says does not exist.
  Only a state whose tree breaks the invariants of R27 leads here. -/
  | ctIndexAbsent (index : Nat)
  /-- SAFE. Raised by DERIVE on a path of more than 256 bits, for which CT has no room (R29, R171). Only a state whose
  tree breaks the invariants of R27, for example by a cycle, leads here. -/
  | pathTooLong
deriving DecidableEq, Repr

/-- Why the model has no meaning for a command. -/
inductive Refusal where
  /-- SAFE. Raised by an arm of `exec` whose instruction has no meaning in this model yet, by its mnemonic. No arm raises
  it now. -/
  | notModelled (mnemonic : String)
deriving DecidableEq, Repr

/-- The state. The first thirteen fields are the complete list of R20. The tables are canonical lists of (index, entry):
indices strictly rising, no entry equal to what an unlisted index reads as (FT 0, TM the all-zero record, CT no code).
A code-table entry is its bit sequence, the first bit the edge leaving the root (R29). The last three fields are the
model's own: the ports and the draw counter (log entries 1, 2 and 3). -/
structure State where
  /-- FT (R23) -/
  ft : List (Nat × Count)
  /-- TM (R25) -/
  tm : List (Nat × NodeRec)
  /-- NN (R26) -/
  nn : BitVec 10
  /-- ROOT (R26) -/
  root : NodeIdx
  /-- NLEAF (R26) -/
  nleaf : BitVec 9
  /-- CT (R29) -/
  ct : List (Nat × List Bool)
  /-- ENC_ST (R31) -/
  encSt : EncSt
  /-- ENC_ACC (R31) -/
  encAcc : BitVec 8
  /-- ENC_CNT (R31) -/
  encCnt : BitVec 3
  /-- DEC_ST (R32) -/
  decSt : DecSt
  /-- DEC_CUR (R32) -/
  decCur : NodeIdx
  /-- ERR_CODE (R33) -/
  errCode : Rstat
  /-- ERR_CMD (R33) -/
  errCmd : Cmd64
  /-- what the host has yet to do, oldest first (R10, R11; the model's own, log entry 1) -/
  host : List HostEvent
  /-- what has left on RSP, EOUT and DOUT, oldest first (R9, R46, R71; the model's own, log entry 2) -/
  out : List PortEvent
  /-- how many free draws have been taken (R301; the model's own, log entry 3) -/
  draws : Nat
deriving DecidableEq, Repr

/-- The machine right after reset (R47, R300): every element of R20 zero, nothing presented, nothing emitted. -/
def State.reset : State :=
  { ft := [], tm := [], nn := 0, root := 0, nleaf := 0, ct := [],
    encSt := .idle, encAcc := 0, encCnt := 0, decSt := .idle, decCur := 0,
    errCode := .ok, errCmd := 0, host := [], out := [], draws := 0 }

end Sys2Proof.Machine
end

