-- ==== Sys2Proof/Machine/Ops.lean ====
section
/-! DEFINITION. The named operations over the tables, the registers and the ports, fault entry (R262), the FAULTED
refusal (R264), the response (R97) and the return to the reset state (R242, R300). -/

namespace Sys2Proof.Machine

/-- What a step of HUFFCORE answers. -/
abbrev Answer := Host.Outcome State Fault Refusal

/-! ### Tables

A table is a list of (index, entry). `dflt` is what an unlisted index reads as. -/

/-- The entry at an index: `MemRead` of R13. -/
def tableRead {α : Type} (dflt : α) : List (Nat × α) → Nat → α
  | [], _ => dflt
  | (k, v) :: rest, i => if k = i then v else tableRead dflt rest i

/-- The entry put before the first larger index. -/
def tableInsert {α : Type} (i : Nat) (v : α) : List (Nat × α) → List (Nat × α)
  | [] => [(i, v)]
  | (k, x) :: rest => if i < k then (i, v) :: (k, x) :: rest else (k, x) :: tableInsert i v rest

/-- The table with one entry written: `MemWrite` of R13. Writing what an unlisted index reads as removes the entry. -/
def tableWrite {α : Type} [DecidableEq α] (dflt : α) (t : List (Nat × α)) (i : Nat) (v : α) : List (Nat × α) :=
  let others := t.filter (fun e => decide (e.1 ≠ i))
  if v = dflt then others else tableInsert i v others

/-- The canonical form: indices strictly rising and below `size`, no entry equal to `dflt`. -/
def tableWf {α : Type} [DecidableEq α] (dflt : α) (size : Nat) : List (Nat × α) → Bool
  | [] => true
  | [(k, v)] => decide (k < size) && decide (v ≠ dflt)
  | (k, v) :: (k', v') :: rest => decide (k < k') && decide (v ≠ dflt) && tableWf dflt size ((k', v') :: rest)

/-- A whole table written from a list of its entries from index `i` on; all other entries become `dflt`. -/
def tableOfListFrom {α : Type} [DecidableEq α] (dflt : α) : Nat → List α → List (Nat × α)
  | _, [] => []
  | i, v :: rest => if v = dflt then tableOfListFrom dflt (i + 1) rest else (i, v) :: tableOfListFrom dflt (i + 1) rest

/-- `FT[s]` (R13). -/
def State.ftAt (s : State) (sym : Nat) : Count := tableRead 0 s.ft sym

/-- `TM[i]` (R13); the index is below 513 (R69). -/
def State.tmAt (s : State) (i : Nat) : NodeRec := tableRead NodeRec.zero s.tm i

/-- `CT[s]` (R13), as its bit sequence; `[]` is an absent entry (R29). -/
def State.ctAt (s : State) (sym : Nat) : List Bool := tableRead [] s.ct sym

/-- Read a tree-memory record at a 10-bit index; the indices 513 to 1023 do not exist (R69). -/
def State.tmGet (s : State) (i : NodeIdx) : Option NodeRec :=
  if i.toNat < Config.nnode then some (s.tmAt i.toNat) else none

/-- `FT[s] <- count` (R13). -/
def State.ftPut (s : State) (sym : Nat) (count : Count) : State :=
  { s with ft := tableWrite 0 s.ft sym count }

/-- All of memory in canonical form: the three tables (R60). -/
def Memory.wf (s : State) : Bool :=
  tableWf 0 Config.nsym s.ft && tableWf NodeRec.zero Config.nnode s.tm && tableWf [] Config.nsym s.ct

/-! ### Registers -/

/-- The leaf detector: both children absent (R13). -/
def NodeRec.isLeaf (n : NodeRec) : Bool := n.left.isNone && n.right.isNone

/-- Put the encoder registers ENC_ST, ENC_ACC, ENC_CNT (R31). -/
def State.setEnc (s : State) (st : EncSt) (acc : BitVec 8) (cnt : BitVec 3) : State :=
  { s with encSt := st, encAcc := acc, encCnt := cnt }

/-- Put the decoder registers DEC_ST, DEC_CUR (R32). -/
def State.setDec (s : State) (st : DecSt) (cur : NodeIdx) : State :=
  { s with decSt := st, decCur := cur }

/-- Put all of TM and the registers NN, ROOT, NLEAF (R26). -/
def State.setTree (s : State) (tm : List (Nat × NodeRec)) (nn : BitVec 10) (root : NodeIdx) (nleaf : BitVec 9) : State :=
  { s with tm := tm, nn := nn, root := root, nleaf := nleaf }

/-- Put all of CT (R29). -/
def State.setCt (s : State) (ct : List (Nat × List Bool)) : State := { s with ct := ct }

/-- Latch the first fault (R33, R262): once ERR_CODE is not 0 nothing changes it but CLEAR and reset. -/
def State.latch (s : State) (k : Rstat) (w : Cmd64) : State :=
  if s.errCode = .ok then { s with errCode := k, errCmd := w } else s

/-! ### Ports -/

/-- Put events on the output ports, in order (R71). -/
def State.emit (s : State) (evs : List PortEvent) : State := { s with out := s.out ++ evs }

/-- The byte an event puts on EOUT. -/
def PortEvent.onEout : PortEvent → Option Byte
  | .eout b => some b
  | .dout _ => none
  | .rsp _ => none

/-- The byte an event puts on DOUT. -/
def PortEvent.onDout : PortEvent → Option Byte
  | .eout _ => none
  | .dout b => some b
  | .rsp _ => none

/-- The response an event delivers on RSP. -/
def PortEvent.onRsp : PortEvent → Option Resp
  | .eout _ => none
  | .dout _ => none
  | .rsp r => some r

/-- The bytes that have left on EOUT, oldest first (R10, R64). -/
def State.eoutBytes (s : State) : List Byte := s.out.filterMap PortEvent.onEout

/-- The bytes that have left on DOUT, oldest first (R10). -/
def State.doutBytes (s : State) : List Byte := s.out.filterMap PortEvent.onDout

/-- The responses delivered on RSP, oldest first (R97). -/
def State.responses (s : State) : List Resp := s.out.filterMap PortEvent.onRsp

/-- Put the list of what the host has yet to do. -/
def State.setHost (s : State) (evs : List HostEvent) : State := { s with host := evs }

/-! ### Ending a command -/

/-- `respond(d)` of R13: the command completes with `rstat = 0` (R97). -/
def respond (d : Data64) (s : State) : Answer := .next (s.emit [.rsp ⟨.ok, d⟩])

/-- Fault entry, `raise F(k)` of R262, for the command word `w`. `s` is the state before the command, for DEC_BYTE with
the effects of the bits before the faulting bit. It latches the first fault and responds (k, 0); nothing else changes. -/
def raise (k : Rstat) (w : Cmd64) (s : State) : Answer := .next ((s.latch k w).emit [.rsp ⟨k, 0⟩])

/-- Step 2 of R102, the FAULTED refusal of R264: every command but NOP, CLEAR, RD_REG, FT_READ, TM_READ and CT_READ makes
this check before its own. -/
def unlessFaulted (i : Instr) (s : State) (body : Answer) : Answer :=
  if s.errCode = .ok then body else raise .eFaulted (encode i) s

/-- Leaving FAULTED and the invocation: CLEAR (R242) and reset (R300) put every element of R20 to its reset value (R47).
What has left on the ports stays (R46, R266). -/
def State.cleared (s : State) : State :=
  { State.reset with host := s.host, out := s.out, draws := s.draws }

end Sys2Proof.Machine
end

