-- ==== Sys2Proof/Machine/Operands.lean ====
section
/-! DEFINITION. Operand ranges (R93), symbol codes (R21), and the order of bits in codes and bytes (R29, R62, R63). -/

namespace Sys2Proof.Machine

/-! ### Symbols (R21) -/

/-- The 9-bit wire code of a symbol: bit 8 tags a sentinel (R21). -/
def symCode : Symbol → SymCode
  | .byte b => b.setWidth 9
  | .endOfData => 0x100
  | .internal => 0x101

/-- The symbol of a codable code 0 to 0x100 (R21): the leaf symbols BUILD stores. -/
def symOfIndex (k : Nat) : Symbol := if k < 256 then .byte (BitVec.ofNat 8 k) else .endOfData

/-- The FT and CT index of a codable symbol; INTERNAL never has one (R21). -/
def symIndex : Symbol → Option Nat
  | .byte b => some b.toNat
  | .endOfData => some 0x100
  | .internal => none

/-- The index of END_OF_DATA in FT and CT (R69). -/
def eodIndex : Nat := 0x100

/-! ### Operand ranges (R93) -/

/-- `sym` is in 0 to 0x100. -/
def symInRange (sym : SymCode) : Bool := decide (sym.toNat ≤ 0x100)

/-- `idx < NN` and `sel2` is 0, 1 or 2. -/
def tmReadInRange (s : State) (idx : NodeIdx) (sel2 : BitVec 2) : Bool := decide (idx.toNat < s.nn.toNat) && decide (sel2 ≠ 3)

/-- `sel4` is in 0 to 8. -/
def sel4InRange (sel4 : BitVec 4) : Bool := decide (sel4.toNat ≤ 8)

/-- `r` is in 0 to 6. -/
def regInRange (r : BitVec 4) : Bool := decide (r.toNat ≤ 6)

/-! ### Bits -/

/-- One data bit as 0 or 1. -/
def bit64 (b : Bool) : Data64 := (BitVec.ofBool b).setWidth 64

/-- The bits of a byte in payload order, bit 7 first (R63, R214). -/
def byteBits (d : Byte) : List Bool :=
  [d.getLsbD 7, d.getLsbD 6, d.getLsbD 5, d.getLsbD 4, d.getLsbD 3, d.getLsbD 2, d.getLsbD 1, d.getLsbD 0]

/-- The stored form of a code (R29, `pack` of R171): code bit `c[i]` in bit `255 - i`, all other bits 0. -/
def packCode (code : List Bool) : BitVec 256 :=
  (BitVec.ofBoolListBE code).setWidth 256 <<< (256 - code.length)

/-- Chunk `k` of a code (R173): bits `255 - 32k` down to `224 - 32k` of the stored form, for `k` in 0 to 7. -/
def codeChunk (code : List Bool) (k : Nat) : BitVec 32 := (packCode code).extractLsb' (224 - 32 * k) 32

end Sys2Proof.Machine
end

