-- ==== Sys2Proof/Machine/Flags.lean ====
section
/-! DEFINITION. The status flags (R43) and the registers RD_REG reads (R34 to R40). -/

namespace Sys2Proof.Machine

/-- The code numbers of R261. -/
def Rstat.code : Rstat → BitVec 4
  | .ok => 0
  | .eIllegal => 1
  | .eOperand => 2
  | .eState => 3
  | .eNoTree => 4
  | .eInvalidInput => 5
  | .eMissingCode => 6
  | .eCountOvf => 7
  | .eNoChild => 8
  | .eFaulted => 15

/-- The ENC_ST values of R31. -/
def EncSt.code : EncSt → BitVec 2
  | .idle => 0
  | .run => 1
  | .done => 2

/-- The DEC_ST values of R32. -/
def DecSt.code : DecSt → BitVec 2
  | .idle => 0
  | .run => 1
  | .doneEod => 2
  | .doneTrunc => 3

/-- TREE_VALID (R26, R34): NN is not 0. -/
def State.treeValid (s : State) : Bool := decide (s.nn ≠ 0)

/-- CT_NONEMPTY (R34): some entry of CT is present. -/
def State.ctNonempty (s : State) : Bool := (List.range Config.nsym).any (fun k => decide (s.ctAt k ≠ []))

/-- FAULTED (R33, R34, R272): ERR_CODE is not 0. -/
def State.faulted (s : State) : Bool := decide (s.errCode ≠ .ok)

/-- The level of the port FAULT: high exactly while ERR_CODE is not 0 (R270). -/
def State.faultLine (s : State) : Bool := s.faulted

/-- The symbol codes present in FT, in ascending order (R22, R23). -/
def State.present (s : State) : List Nat := (List.range Config.nsym).filter (fun k => decide (s.ftAt k ≠ 0))

/-- Register 0, STATUS (R34). -/
def State.statusReg (s : State) : Data64 :=
  bit64 s.treeValid ||| bit64 s.ctNonempty <<< 1 ||| s.encSt.code.setWidth 64 <<< 2 |||
    s.decSt.code.setWidth 64 <<< 4 ||| bit64 s.faulted <<< 6

/-- Register 1, ERR (R35). -/
def State.errReg (s : State) : Data64 := s.errCode.code.setWidth 64

/-- Register 2, ERRCMD (R36). -/
def State.errCmdReg (s : State) : Data64 := s.errCmd

/-- Register 3, TREEINFO (R37). -/
def State.treeInfoReg (s : State) : Data64 :=
  s.nleaf.setWidth 64 <<< 32 ||| s.root.setWidth 64 <<< 16 ||| s.nn.setWidth 64

/-- Register 4, ENCSTATE (R38). -/
def State.encStateReg (s : State) : Data64 := s.encCnt.setWidth 64 <<< 8 ||| s.encAcc.setWidth 64

/-- Register 5, DECSTATE (R39). -/
def State.decStateReg (s : State) : Data64 := s.decCur.setWidth 64

/-- Register 6, FTINFO (R40): NPRESENT. -/
def State.ftInfoReg (s : State) : Data64 := BitVec.ofNat 64 s.present.length

/-- The value of register `r` (R34 to R40, R243), for `r` in 0 to 6. -/
def State.readReg (s : State) (r : BitVec 4) : Data64 :=
  match r.toNat with
  | 0 => s.statusReg
  | 1 => s.errReg
  | 2 => s.errCmdReg
  | 3 => s.treeInfoReg
  | 4 => s.encStateReg
  | 5 => s.decStateReg
  | 6 => s.ftInfoReg
  | _ => 0

end Sys2Proof.Machine
end

