-- ==== Sys2Proof/Machine/CodeTable.lean ====
section
/-! DEFINITION. The Code Table Deriver: DERIVE and CT_READ (R170 to R173). -/

namespace Sys2Proof.Machine

/-- What the depth-first walk answers: the codes it found, each with its CT index, or why it stopped. -/
inductive WalkResult where
  | codes (found : List (Nat × List Bool))
  | stopped (why : Fault)
deriving DecidableEq, Repr

/-- The codes of the left walk, then those of the right walk; a stop on either side is a stop. -/
def WalkResult.append : WalkResult → WalkResult → WalkResult
  | .codes l, .codes r => .codes (l ++ r)
  | .codes _, .stopped why => .stopped why
  | .stopped why, _ => .stopped why

/-- `walk(i, path)` of R171: the codes of the leaves below record `i`, whose own path is `path`; left appends 0, right 1.
The deepest tree has 257 records on a path (R171), so `fuel` is the number of records a path may still have. -/
def walk (s : State) : Nat → NodeIdx → List Bool → WalkResult
  | 0, _, _ => .stopped .pathTooLong
  | fuel + 1, i, path =>
    match s.tmGet i with
    | none => .stopped (.tmIndexAbsent i.toNat)
    | some n =>
      if n.isLeaf then
        match symIndex n.sym with
        | none => .stopped (.ctIndexAbsent (symCode n.sym).toNat)
        | some k => .codes [(k, path)]
      else
        WalkResult.append
          (match n.left with
            | none => .codes []
            | some c => walk s fuel c (path ++ [false]))
          (match n.right with
            | none => .codes []
            | some c => walk s fuel c (path ++ [true]))

/-- The walk from the root, or no codes when there is no tree (R170, R171). -/
def State.rootWalk (s : State) : WalkResult :=
  if s.nn = 0 then .codes [] else walk s (Config.maxLen + 1) s.root []

/-- The table that holds the found codes and nothing else. -/
def codeTable (found : List (Nat × List Bool)) : List (Nat × List Bool) :=
  found.foldl (fun t e => tableWrite [] t e.1 e.2) []

/-- DERIVE (R171). -/
def execDerive (s : State) : Answer :=
  unlessFaulted .derive s <|
    match s.rootWalk with
    | .stopped why => .fault why
    | .codes found => respond (BitVec.ofNat 64 found.length) (s.setCt (codeTable found))

/-- CT_READ sym, sel4 (R173); runs while FAULTED. -/
def execCtRead (sym : SymCode) (sel4 : BitVec 4) (s : State) : Answer :=
  if symInRange sym && sel4InRange sel4 then
    if sel4 = 8 then respond (BitVec.ofNat 64 (s.ctAt sym.toNat).length) s
    else respond ((codeChunk (s.ctAt sym.toNat) sel4.toNat).setWidth 64) s
  else raise .eOperand (encode (.ctRead sym sel4)) s

end Sys2Proof.Machine
end

