-- ==== Sys2Proof/Machine/Control.lean ====
section
/-! DEFINITION. The control commands NOP, CLEAR and RD_REG (R240 to R243). All three run in every state, also FAULTED. -/

namespace Sys2Proof.Machine

/-- NOP (R241). -/
def execNop (s : State) : Answer := respond 0 s

/-- CLEAR (R242). -/
def execClear (s : State) : Answer := respond 0 s.cleared

/-- RD_REG r (R243). -/
def execRdReg (r : BitVec 4) (s : State) : Answer :=
  if regInRange r then respond (s.readReg r) s else raise .eOperand (encode (.rdReg r)) s

end Sys2Proof.Machine
end

