-- ==== Sys2Proof/Machine/Decoder.lean ====
section
/-! DEFINITION. The Bit Decoder: DEC_START, DEC_BIT, DEC_BYTE, DEC_END (R210 to R215, R218). -/

namespace Sys2Proof.Machine

/-- The decoder registers with the bytes decoded in the command so far. -/
structure Walker where
  st : DecSt
  cur : NodeIdx
  bytes : List Byte
deriving DecidableEq, Repr

/-- What one bit of the walk does (R211). -/
inductive BitResult where
  /-- the bit is consumed -/
  | moved (w : Walker)
  /-- the child is absent: E_NOCHILD (R218) -/
  | noChild
  /-- a tree-memory index that does not exist (R69) -/
  | absent (index : Nat)
deriving DecidableEq, Repr

/-- Arriving at record `m`, index `c`: the leaf detector of R211. At the END_OF_DATA leaf the walk stops, at another leaf
its byte, the low 8 bits of its code, is emitted; both return to ROOT. -/
def arrive (s : State) (w : Walker) (c : NodeIdx) (m : NodeRec) : Walker :=
  if m.isLeaf then
    if m.sym = .endOfData then { st := .doneEod, cur := s.root, bytes := w.bytes }
    else { st := w.st, cur := s.root, bytes := w.bytes ++ [(symCode m.sym).setWidth 8] }
  else { st := w.st, cur := c, bytes := w.bytes }

/-- `decstep(b)` of R211: descend to the left child on 0, to the right child on 1 (R145). -/
def decStep (s : State) (w : Walker) (b : Bool) : BitResult :=
  match s.tmGet w.cur with
  | none => .absent w.cur.toNat
  | some n =>
    match (if b then n.right else n.left) with
    | none => .noChild
    | some c =>
      match s.tmGet c with
      | none => .absent c.toNat
      | some m => .moved (arrive s w c m)

/-- What a list of bits does: all bits taken as far as the walk goes, with the number consumed; or a fault at one bit,
with the walker as the bits before it left it (R214). -/
inductive BitsResult where
  | finished (w : Walker) (used : Nat)
  | noChild (w : Walker)
  | absent (index : Nat)
deriving DecidableEq, Repr

/-- The loop of R214: bits are consumed while the walk is in RUN. -/
def feedBits (s : State) : List Bool → Walker → Nat → BitsResult
  | [], w, used => .finished w used
  | b :: bits, w, used =>
    if w.st = .run then
      match decStep s w b with
      | .moved w' => feedBits s bits w' (used + 1)
      | .noChild => .noChild w
      | .absent index => .absent index
    else .finished w used

/-- The walker at the start of a command: the registers, and no byte decoded yet. -/
def State.walker (s : State) : Walker := { st := s.decSt, cur := s.decCur, bytes := [] }

/-- The decoder registers and the bytes on DOUT after a command has walked its bits. -/
def State.walked (s : State) (w : Walker) : State := (s.setDec w.st w.cur).emit (w.bytes.map PortEvent.dout)

/-- The response of DEC_BIT and DEC_BYTE (R98): DEC_ST after, bits consumed, bytes emitted. -/
def walkerData (w : Walker) (used : Nat) : Data64 :=
  BitVec.ofNat 64 w.bytes.length <<< 8 ||| BitVec.ofNat 64 used <<< 4 ||| w.st.code.setWidth 64

/-- The common body of DEC_BIT and DEC_BYTE (R213, R214): E_STATE in IDLE, else feed the bits. The effects of the bits
before a faulting bit stand (R262); DEC_BIT has none. -/
def decodeBits (i : Instr) (bits : List Bool) (s : State) : Answer :=
  unlessFaulted i s <|
    if s.decSt = .idle then raise .eState (encode i) s
    else
      match feedBits s bits s.walker 0 with
      | .finished w used => respond (walkerData w used) (s.walked w)
      | .noChild w => raise .eNoChild (encode i) (s.walked w)
      | .absent index => .fault (.tmIndexAbsent index)

/-- DEC_START (R212). -/
def execDecStart (s : State) : Answer :=
  unlessFaulted .decStart s <|
    if s.decSt = .run then raise .eState (encode .decStart) s
    else if s.nn = 0 then raise .eNoTree (encode .decStart) s
    else respond 0 (s.setDec .run s.root)

/-- DEC_BIT b (R213). -/
def execDecBit (b : Bool) (s : State) : Answer := decodeBits (.decBit b) [b] s

/-- DEC_BYTE d (R214). -/
def execDecByte (d : Byte) (s : State) : Answer := decodeBits (.decByte d) (byteBits d) s

/-- DEC_END (R215): exhaustion is a normal end; a partial path is dropped. -/
def execDecEnd (s : State) : Answer :=
  unlessFaulted .decEnd s <|
    if s.decSt = .idle then raise .eState (encode .decEnd) s
    else if s.decSt = .run then
      respond (DecSt.doneTrunc.code.setWidth 64) (s.setDec .doneTrunc s.root)
    else respond (s.decSt.code.setWidth 64) s

end Sys2Proof.Machine
end

