-- ==== Sys2Proof/Machine/Encoder.lean ====
section
/-! DEFINITION. The Bit Encoder: ENC_START, ENC_SYM, ENC_END (R190 to R194). -/

namespace Sys2Proof.Machine

/-- The bit-packing register with the bytes it has completed in the command so far (R191). -/
structure Packer where
  acc : BitVec 8
  cnt : BitVec 3
  bytes : List Byte
deriving DecidableEq, Repr

/-- `push(b)` of R191: the bit goes below the ones packed so far, and the eighth bit completes a byte (R63). -/
def push (p : Packer) (b : Bool) : Packer :=
  let acc := p.acc ||| (BitVec.ofBool b).setWidth 8 <<< (7 - p.cnt.toNat)
  if p.cnt = 7 then { acc := 0, cnt := 0, bytes := p.bytes ++ [acc] }
  else { acc := acc, cnt := p.cnt + 1, bytes := p.bytes }

/-- `pushcode(e)` of R191: every bit of the code, root edge first. -/
def pushCode (p : Packer) (code : List Bool) : Packer := code.foldl push p

/-- The end of ENC_END (R194): a partial byte leaves with its low bits 0, which is the padding (R67). -/
def flush (p : Packer) : Packer :=
  if p.cnt = 0 then p else { acc := 0, cnt := 0, bytes := p.bytes ++ [p.acc] }

/-- The packer at the start of a command: the registers, and no byte completed yet. -/
def State.packer (s : State) : Packer := { acc := s.encAcc, cnt := s.encCnt, bytes := [] }

/-- The encoder registers and the bytes on EOUT after a command has packed its bits. -/
def State.packed (s : State) (st : EncSt) (p : Packer) : State :=
  (s.setEnc st p.acc p.cnt).emit (p.bytes.map PortEvent.eout)

/-- The response of ENC_SYM and ENC_END (R98): bytes emitted by the command, and ENC_CNT after it. -/
def packerData (p : Packer) : Data64 := p.cnt.setWidth 64 <<< 8 ||| BitVec.ofNat 64 p.bytes.length

/-- ENC_START (R192). -/
def execEncStart (s : State) : Answer :=
  unlessFaulted .encStart s <|
    if s.encSt = .run then raise .eState (encode .encStart) s
    else respond 0 (s.setEnc .run 0 0)

/-- ENC_SYM d (R193). -/
def execEncSym (d : Byte) (s : State) : Answer :=
  unlessFaulted (.encSym d) s <|
    if s.encSt ≠ .run then raise .eState (encode (.encSym d)) s
    else if s.ctAt d.toNat = [] then raise .eMissingCode (encode (.encSym d)) s
    else
      let p := pushCode s.packer (s.ctAt d.toNat)
      respond (packerData p) (s.packed .run p)

/-- ENC_END (R194). -/
def execEncEnd (s : State) : Answer :=
  unlessFaulted .encEnd s <|
    if s.encSt ≠ .run then raise .eState (encode .encEnd) s
    else if s.ctAt eodIndex = [] then raise .eMissingCode (encode .encEnd) s
    else
      let p := flush (pushCode s.packer (s.ctAt eodIndex))
      respond (packerData p) (s.packed .done p)

end Sys2Proof.Machine
end

