-- ==== Sys2Proof/Machine/Frequency.lean ====
section
/-! DEFINITION. The frequency table and the Frequency Counter: FT_SET, FT_READ, FC_BYTE, FC_END (R120 to R124). -/

namespace Sys2Proof.Machine

/-- FT_SET sym, count (R121). -/
def execFtSet (sym : SymCode) (count : Count) (s : State) : Answer :=
  unlessFaulted (.ftSet sym count) s <|
    if symInRange sym then respond 0 (s.ftPut sym.toNat count)
    else raise .eOperand (encode (.ftSet sym count)) s

/-- FT_READ sym (R122); runs while FAULTED. -/
def execFtRead (sym : SymCode) (s : State) : Answer :=
  if symInRange sym then respond ((s.ftAt sym.toNat).setWidth 64) s
  else raise .eOperand (encode (.ftRead sym)) s

/-- FC_BYTE d (R123): a count never wraps. -/
def execFcByte (d : Byte) (s : State) : Answer :=
  unlessFaulted (.fcByte d) s <|
    if s.ftAt d.toNat = 0xFFFFFFFF then raise .eCountOvf (encode (.fcByte d)) s
    else respond ((s.ftAt d.toNat + 1).setWidth 64) (s.ftPut d.toNat (s.ftAt d.toNat + 1))

/-- FC_END (R124). -/
def execFcEnd (s : State) : Answer :=
  unlessFaulted .fcEnd s <| respond 0 (s.ftPut eodIndex 1)

end Sys2Proof.Machine
end

