-- ==== Sys2Proof/Machine/Tree.lean ====
section
/-! DEFINITION. The Tree Builder: BUILD and TM_READ (R140 to R148). The list `nodes` is TM while it is being built: the
record at position `i` is TM[i], and `nn` of the pseudocode is its length. -/

namespace Sys2Proof.Machine

/-- The weight of the record at an index. -/
def weightAt (nodes : List NodeRec) (i : Nat) : Weight := (nodes.getD i NodeRec.zero).weight

/-- Node `i` comes before node `j` in the priority order: the lexicographic order on (weight, index) (R142). -/
def comesBefore (nodes : List NodeRec) (i j : Nat) : Bool :=
  decide (weightAt nodes i < weightAt nodes j) || (decide (weightAt nodes i = weightAt nodes j) && decide (i < j))

/-- The first node of `i :: live` in the priority order (R142). -/
def firstLive (nodes : List NodeRec) (i : Nat) : List Nat → Nat
  | [] => i
  | j :: live => if comesBefore nodes j i then firstLive nodes j live else firstLive nodes i live

/-- The leaf record of a present symbol (R141). -/
def leafNode (sym : Nat) (count : Count) : NodeRec :=
  { sym := symOfIndex sym, weight := count.setWidth 41, left := none, right := none }

/-- The internal node over the first removed node `a` (left, bit 0) and the second removed node `b` (right, bit 1); the
41-bit sum of the weights never overflows on a tree built from FT (R141, R144, R145). -/
def mergeNode (nodes : List NodeRec) (a b : Nat) : NodeRec :=
  { sym := .internal, weight := weightAt nodes a + weightAt nodes b,
    left := some (BitVec.ofNat 10 a), right := some (BitVec.ofNat 10 b) }

/-- The `while |LIVE| > 1` loop of R141: remove the first two live nodes, append their parent, put it in LIVE. Each pass
makes LIVE one shorter, so `fuel = |LIVE|` passes are enough. -/
def mergeLoop : Nat → List NodeRec → List Nat → List NodeRec
  | 0, nodes, _ => nodes
  | _ + 1, nodes, [] => nodes
  | _ + 1, nodes, [_] => nodes
  | fuel + 1, nodes, i :: j :: live =>
    let a := firstLive nodes i (j :: live)
    match (i :: j :: live).erase a with
    | [] => nodes
    | k :: rest =>
      let b := firstLive nodes k rest
      mergeLoop fuel (nodes ++ [mergeNode nodes a b]) ((k :: rest).erase b ++ [nodes.length])

/-- The degenerate tree's internal root over its one leaf (R143). -/
def soleRoot (leaf : NodeRec) : NodeRec :=
  { sym := .internal, weight := leaf.weight, left := some 0, right := none }

/-- The records of the tree over the given leaves, TM[0] to TM[nn - 1] (R141). -/
def treeOfLeaves : List NodeRec → List NodeRec
  | [] => []
  | [leaf] => [leaf, soleRoot leaf]
  | leaves => mergeLoop leaves.length leaves (List.range leaves.length)

/-- The leaves BUILD inserts: one per present symbol, in ascending symbol order (R22, R141). -/
def State.leaves (s : State) : List NodeRec := s.present.map (fun k => leafNode k (s.ftAt k))

/-- The writes of a BUILD whose table is not empty (R141): the tree, CT emptied, both units IDLE. -/
def State.withBuiltTree (s : State) : State :=
  let nodes := treeOfLeaves s.leaves
  (((s.setTree (tableOfListFrom NodeRec.zero 0 nodes) (BitVec.ofNat 10 nodes.length)
    (BitVec.ofNat 10 (nodes.length - 1)) (BitVec.ofNat 9 s.present.length)).setCt []).setEnc .idle 0 0).setDec .idle 0

/-- BUILD (R141). -/
def execBuild (s : State) : Answer :=
  unlessFaulted .build s <|
    if s.encSt = .run ∨ s.decSt = .run then raise .eState (encode .build) s
    else if s.present = [] then raise .eInvalidInput (encode .build) s
    else respond s.withBuiltTree.treeInfoReg s.withBuiltTree

/-- The field group `sel2` of a record (R148): symbol and leaf flag, weight, or the two children. -/
def fieldGroup (n : NodeRec) (sel2 : BitVec 2) : Data64 :=
  if sel2 = 0 then bit64 n.isLeaf <<< 16 ||| (symCode n.sym).setWidth 64
  else if sel2 = 1 then n.weight.setWidth 64
  else bit64 n.right.isSome <<< 31 ||| (n.right.getD 0).setWidth 64 <<< 16 |||
    bit64 n.left.isSome <<< 15 ||| (n.left.getD 0).setWidth 64

/-- TM_READ idx, sel2 (R148); runs while FAULTED. -/
def execTmRead (idx : NodeIdx) (sel2 : BitVec 2) (s : State) : Answer :=
  if tmReadInRange s idx sel2 then
    match s.tmGet idx with
    | none => .fault (.tmIndexAbsent idx.toNat)
    | some n => respond (fieldGroup n sel2) s
  else raise .eOperand (encode (.tmRead idx sel2)) s

end Sys2Proof.Machine
end

