-- ==== Sys2Proof/Machine/Dispatch.lean ====
section
/-! DEFINITION. The dispatch: one arm per command of R94. -/

namespace Sys2Proof.Machine

/-- Execute one decoded command: steps 2 to 6 of R102. -/
def exec (i : Instr) (s : State) : Host.Outcome State Fault Refusal :=
  match i with
  | .nop => Sys2Proof.Machine.execNop s
  | .clear => Sys2Proof.Machine.execClear s
  | .rdReg r => Sys2Proof.Machine.execRdReg r s
  | .ftSet sym count => Sys2Proof.Machine.execFtSet sym count s
  | .ftRead sym => Sys2Proof.Machine.execFtRead sym s
  | .fcByte d => Sys2Proof.Machine.execFcByte d s
  | .fcEnd => Sys2Proof.Machine.execFcEnd s
  | .build => Sys2Proof.Machine.execBuild s
  | .tmRead idx sel2 => Sys2Proof.Machine.execTmRead idx sel2 s
  | .derive => Sys2Proof.Machine.execDerive s
  | .ctRead sym sel4 => Sys2Proof.Machine.execCtRead sym sel4 s
  | .encStart => Sys2Proof.Machine.execEncStart s
  | .encSym d => Sys2Proof.Machine.execEncSym d s
  | .encEnd => Sys2Proof.Machine.execEncEnd s
  | .decStart => Sys2Proof.Machine.execDecStart s
  | .decBit b => Sys2Proof.Machine.execDecBit b s
  | .decByte d => Sys2Proof.Machine.execDecByte d s
  | .decEnd => Sys2Proof.Machine.execDecEnd s

end Sys2Proof.Machine
end

