-- ==== Sys2Proof/Machine/Port.lean ====
section
/-! DEFINITION. What one action of the host does: a command word presented on CMD (R102), RST (R300), and a command cut
short by RST (R301). -/

namespace Sys2Proof.Machine

/-- Present a command word: step 1 of R102, then the command. An illegal word raises E_ILLEGAL, also while FAULTED, and
does nothing else (R95, R264). -/
def present (w : Cmd64) (s : State) : Answer :=
  match decode w with
  | .instr i => exec i s
  | .rejected _ => raise .eIllegal w s

/-- RST between commands (R300, R302): the reset state, and no response. -/
def resetEvent (s : State) : State := s.cleared

/-- What a command put on EOUT and DOUT, without its response. -/
def bytesOf (evs : List PortEvent) : List PortEvent := evs.filter (fun e => e.onRsp.isNone)

/-- A command cut short by RST (R301, U2): no response, the reset state, and of the bytes the command would have emitted
those that had left, as many as a free draw says (log entry 3). -/
def presentCutByReset (w : Cmd64) (s : State) : Answer :=
  match present w s with
  | .next t =>
    let left := (bytesOf (t.out.drop s.out.length)).take (Config.bytesBeforeReset s.draws)
    .next { (resetEvent s).emit left with draws := s.draws + 1 }
  | .fault r => .fault r
  | .refused r => .refused r

/-- One action of the host. -/
def hostAct (e : HostEvent) (s : State) : Answer :=
  match e with
  | .command w => present w s
  | .reset => .next (resetEvent s)
  | .commandCutByReset w => presentCutByReset w s

/-- The state with a command word placed so that it is presented next. -/
def State.withCommand (s : State) (w : Cmd64) : State := s.setHost (.command w :: s.host)

end Sys2Proof.Machine
end

