-- ==== Sys2Proof/Machine/Step.lean ====
section
/-! DEFINITION. One step: the host's next action, or nothing while the host does nothing. -/

namespace Sys2Proof.Machine

/-- One step of the machine. HUFFCORE has no program counter and fetches nothing: it executes the command the host
presents (R7, R42). With nothing presented the block holds its state (R277, R300). -/
def step (s : State) : Host.Outcome State Fault Refusal :=
  match s.host with
  | [] => .next s
  | e :: rest => hostAct e (s.setHost rest)

/-- The state with the command word `w` presented next, so that `step` executes it. A command is one 64-bit word (R90);
a table row given fewer bits has zeros above them (log entry 1). -/
def State.withFetchWord (s : State) (_nbits w : Nat) : State := s.withCommand (BitVec.ofNat 64 w)

end Sys2Proof.Machine
end

