-- ==== Sys2Proof/Safety.lean ====
section
/-! DEFINITION. What counts as a safe run (R263), the invariants the spec states of every state a run reaches (R25 to
R33), and the words in which the statements about commands are written. -/

namespace Sys2Proof.Machine

/-! ### Safe runs -/

/-- R263: ERR_CODE is 0 and every response so far had `rstat = 0`. -/
def State.safeRun (s : State) : Bool := decide (s.errCode = .ok) && s.responses.all (fun r => decide (r.rstat = .ok))

/-! ### How a command ends -/

/-- The state after a command that put `evs` on the output ports and then completed with data `d` (R71, R97). -/
def State.completed (s : State) (evs : List PortEvent) (d : Data64) : State :=
  { s with out := s.out ++ evs ++ [.rsp ⟨.ok, d⟩] }

/-- The state after the command word `w` faulted with `k`, `s` being the state whose effects stand (R262): the response
is (k, 0), and the latch takes the fault when it holds none. -/
def State.afterFault (s : State) (k : Rstat) (w : Cmd64) : State :=
  { s with
    errCode := if s.errCode = .ok then k else s.errCode
    errCmd := if s.errCode = .ok then w else s.errCmd
    out := s.out ++ [.rsp ⟨k, 0⟩] }

/-- The state after a list of commands, when each of them ends in a next state. -/
def runCommands : List Instr → State → Option State
  | [], s => some s
  | i :: rest, s =>
    match exec i s with
    | .next t => runCommands rest t
    | .fault _ => none
    | .refused _ => none

/-! ### Bits in the order of a payload (R63) -/

/-- The bits of a list of payload bytes, bit 7 of each byte first. -/
def payloadBits (bytes : List Byte) : List Bool := bytes.flatMap byteBits

/-- The bits waiting in ENC_ACC, earliest first: the top ENC_CNT bits (R31). -/
def State.pendingBits (s : State) : List Bool := (byteBits s.encAcc).take s.encCnt.toNat

/-! ### The tree (R25 to R28) -/

/-- The indices of the present children of a record, left first. -/
def NodeRec.children (n : NodeRec) : List NodeIdx := n.left.toList ++ n.right.toList

/-- How many times record `j` is named as a child among the records below `bound`. -/
def State.timesChildBelow (s : State) (bound j : Nat) : Nat :=
  ((List.range bound).map (fun k => (s.tmAt k).children.countP (fun c => decide (c.toNat = j)))).sum

/-- The record reached from `i` along the edges `path`, 0 left and 1 right; none where a child is absent (R145). -/
def State.follow (s : State) : NodeIdx → List Bool → Option NodeIdx
  | i, [] => some i
  | i, b :: path =>
    match (if b then (s.tmAt i.toNat).right else (s.tmAt i.toNat).left) with
    | none => none
    | some c => s.follow c path

/-- Record `i` comes before record `j` in the order of R142. -/
def State.before (s : State) (i j : Nat) : Prop :=
  (s.tmAt i).weight.toNat < (s.tmAt j).weight.toNat ∨ ((s.tmAt i).weight.toNat = (s.tmAt j).weight.toNat ∧ i < j)

/-- Record `j` is in the live set when record `k` is created: it exists, and no record before `k` has it as a child. -/
def State.liveAt (s : State) (k j : Nat) : Prop := j < k ∧ s.timesChildBelow k j = 0

/-- The tree that stands in TM while NN is not 0 (R26, R27). -/
structure TreeInv (s : State) : Prop where
  /-- R26: 1 to 257 leaves. -/
  leafCount : 1 ≤ s.nleaf.toNat ∧ s.nleaf.toNat ≤ 257
  /-- R26: NN is 2 NLEAF - 1, and 2 when there is one leaf. -/
  nodeCount : s.nn.toNat = if s.nleaf.toNat = 1 then 2 else 2 * s.nleaf.toNat - 1
  /-- R26: ROOT is NN - 1. -/
  rootLast : s.root.toNat + 1 = s.nn.toNat
  /-- R26, R27: the first NLEAF records are leaves with a codable symbol; R144: no weight is 0. -/
  leaves : ∀ k, k < s.nleaf.toNat → (s.tmAt k).isLeaf = true ∧ (s.tmAt k).sym ≠ .internal ∧ (s.tmAt k).weight ≠ 0
  /-- R26: the leaves stand in ascending symbol order, so no two have the same symbol. -/
  ascending : ∀ k, k + 1 < s.nleaf.toNat → (symCode (s.tmAt k).sym).toNat < (symCode (s.tmAt (k + 1)).sym).toNat
  /-- R26, R27: the others are internal, with a left child, and with a right child unless there is one leaf. -/
  internals : ∀ k, k < s.nn.toNat → s.nleaf.toNat ≤ k →
    (s.tmAt k).sym = .internal ∧ (s.tmAt k).left.isSome = true ∧ (s.tmAt k).right.isSome = decide (s.nleaf.toNat ≠ 1)
  /-- R27: a child's index is smaller than its parent's. -/
  childBelow : ∀ k, k < s.nn.toNat → ∀ c ∈ (s.tmAt k).children, c.toNat < k
  /-- R27: the weight of an internal node is the sum of the weights of its present children, as exact integers. -/
  weights : ∀ k, k < s.nn.toNat → s.nleaf.toNat ≤ k →
    (s.tmAt k).weight.toNat = ((s.tmAt k).children.map (fun c => (s.tmAt c.toNat).weight.toNat)).sum
  /-- R27: every record other than ROOT is the child of exactly one record, and ROOT of none. -/
  oneParent : ∀ j, j < s.nn.toNat → s.timesChildBelow s.nn.toNat j = if j = s.root.toNat then 0 else 1
  /-- R25: the records from NN on are all-zero. -/
  unused : ∀ k, k < Config.nnode → s.nn.toNat ≤ k → s.tmAt k = NodeRec.zero

/-- R26, R47: no tree, and nothing of one. -/
def State.noTree (s : State) : Prop := s.nn = 0 ∧ s.tm = [] ∧ s.root = 0 ∧ s.nleaf = 0

/-! ### The code table and the units (R30 to R33) -/

/-- R30: CT is empty or what DERIVE computes from the current TM; R29: no code is longer than 256 bits. -/
structure CodeInv (s : State) : Prop where
  derived : s.ct = [] ∨ ∃ found, s.rootWalk = .codes found ∧ s.ct = codeTable found
  lengths : ∀ k, k < Config.nsym → (s.ctAt k).length ≤ Config.maxLen

/-- R31: the bits of ENC_ACC below the ENC_CNT packed ones are 0; outside RUN both registers are 0. -/
structure EncInv (s : State) : Prop where
  lowBits : ∀ j, j < 8 - s.encCnt.toNat → s.encAcc.getLsbD j = false
  idle : s.encSt ≠ .run → s.encAcc = 0 ∧ s.encCnt = 0

/-- R32: where the decoder's cursor stands in each state. -/
structure DecInv (s : State) : Prop where
  running : s.decSt = .run → s.nn ≠ 0 ∧ s.decCur.toNat < s.nn.toNat ∧ (s.tmAt s.decCur.toNat).isLeaf = false
  stopped : s.decSt = .doneEod ∨ s.decSt = .doneTrunc → s.decCur = s.root
  idle : s.decSt = .idle → s.decCur = 0

/-- R33: both latch registers are 0 when no fault has occurred; R262: E_FAULTED is never the first fault. -/
structure LatchInv (s : State) : Prop where
  clear : s.errCode = .ok → s.errCmd = 0
  notRefusal : s.errCode ≠ .eFaulted

/-- Everything the spec says of every state a run reaches. -/
structure Inv (s : State) : Prop where
  memory : Memory.wf s = true
  tree : s.noTree ∨ (s.nn ≠ 0 ∧ TreeInv s)
  codes : CodeInv s
  encoder : EncInv s
  decoder : DecInv s
  latch : LatchInv s

end Sys2Proof.Machine
end

