-- ==== Sys2Proof/WellFormed.lean ====
section
/-! DEFINITION. Well-formed commands: every operand inside the range of rule R93 that does not depend on the state.
A command that is not well formed still has an encoding and still runs: it raises E_OPERAND (R93, R95). -/

namespace Sys2Proof

/-- `sym` names a codable symbol: 0 to 0x100 (R93). -/
def WellFormed.sym (sym : SymCode) : Bool := decide (sym.toNat ≤ 0x100)

/-- `sel2` is 0, 1 or 2 (R93). -/
def WellFormed.sel2 (sel2 : BitVec 2) : Bool := decide (sel2.toNat ≤ 2)

/-- `sel4` is 0 to 8 (R93). -/
def WellFormed.sel4 (sel4 : BitVec 4) : Bool := decide (sel4.toNat ≤ 8)

/-- `r` is 0 to 6 (R93). -/
def WellFormed.reg (r : BitVec 4) : Bool := decide (r.toNat ≤ 6)

/-- The state-independent operand ranges of R93, command by command. `idx` is compared with NN when it is used, so
no value of it is ill formed by itself. -/
def Instr.wellFormed : Instr → Bool
  | .nop => true
  | .clear => true
  | .rdReg r => WellFormed.reg r
  | .ftSet sym _ => WellFormed.sym sym
  | .ftRead sym => WellFormed.sym sym
  | .fcByte _ => true
  | .fcEnd => true
  | .build => true
  | .tmRead _ sel2 => WellFormed.sel2 sel2
  | .derive => true
  | .ctRead sym sel4 => WellFormed.sym sym && WellFormed.sel4 sel4
  | .encStart => true
  | .encSym _ => true
  | .encEnd => true
  | .decStart => true
  | .decBit _ => true
  | .decByte _ => true
  | .decEnd => true

end Sys2Proof
end

