-- ==== Sys2Proof/Certificates/Slice0/Obligations.lean ====
section
/-! DEFINITION. The statements for the provers. Each is about the machine over all states, operands or words; where a state
that no run reaches could make it false, it has an invariant of Safety.lean as a hypothesis, and StepKeepsInv states that
invariant. -/

open Sys2Proof Sys2Proof.Machine

/-! ### Encoding -/

/-- The opcode map as R92 and R94 print it: (mask, match), one pair per command, in the order of the table. -/
def Sys2Proof.printedOpcodeMap : List (BitVec 64 × BitVec 64) :=
  [ (0xFFFFFFFFFFFFFFFF, 0x0100000000000000), (0xFFFFFFFFFFFFFFFF, 0x0200000000000000),
    (0xFFFFFFFFFFFFFFF0, 0x0300000000000000), (0xFFFFFE0000000000, 0x1000000000000000),
    (0xFFFFFE00FFFFFFFF, 0x1100000000000000), (0xFFFFFFFFFFFFFF00, 0x1200000000000000),
    (0xFFFFFFFFFFFFFFFF, 0x1300000000000000), (0xFFFFFFFFFFFFFFFF, 0x2000000000000000),
    (0xFFFFFC00FFFFFFFC, 0x2100000000000000), (0xFFFFFFFFFFFFFFFF, 0x3000000000000000),
    (0xFFFFFE00FFFFFFF0, 0x3100000000000000), (0xFFFFFFFFFFFFFFFF, 0x4000000000000000),
    (0xFFFFFFFFFFFFFF00, 0x4100000000000000), (0xFFFFFFFFFFFFFFFF, 0x4200000000000000),
    (0xFFFFFFFFFFFFFFFF, 0x5000000000000000), (0xFFFFFFFFFFFFFFFE, 0x5100000000000000),
    (0xFFFFFFFFFFFFFF00, 0x5200000000000000), (0xFFFFFFFFFFFFFFFF, 0x5300000000000000) ]

/-- Every command, with every value of every operand, is what its encoding decodes to (R91, R92, R94). -/
def Obligations.DecodeOfEncode : Prop := ∀ i : Instr, decode (encode i) = .instr i

/-- Every word that decodes to a command is that command's encoding, so the ERR_CMD that a fault latches, the encoding of
the command, is the word the host presented (R92, R262). -/
def Obligations.EncodeOfDecode : Prop := ∀ (w : Cmd64) (i : Instr), decode w = .instr i → encode i = w

/-- R95: a word is illegal exactly when no row of the printed opcode map selects it; an illegal word raises E_ILLEGAL and
does nothing else, in every state; the all-zero and the all-ones word are illegal; a field out of its range in a legal
word raises E_OPERAND instead. -/
def Obligations.IllegalWords : Prop :=
  (∀ w : Cmd64, (∃ r, decode w = .rejected r) ↔ ∀ p ∈ printedOpcodeMap, w &&& p.1 ≠ p.2) ∧
  (∀ (w : Cmd64) (s : State), (∀ p ∈ printedOpcodeMap, w &&& p.1 ≠ p.2) →
    present w s = .next (s.afterFault .eIllegal w)) ∧
  (∃ r, decode 0 = .rejected r) ∧ (∃ r, decode (BitVec.allOnes 64) = .rejected r) ∧
  (∀ (i : Instr) (s : State), s.errCode = .ok →
    i.wellFormed = false ∨ (∃ idx sel2, i = .tmRead idx sel2 ∧ s.nn.toNat ≤ idx.toNat) →
    present (encode i) s = .next (s.afterFault .eOperand (encode i)))

/-- Words written out bit by bit from the encodings of R91, R92 and R94, one for each family and format. -/
def Obligations.SampleWordsDecode : Prop :=
  decode 0x0300000000000006 = .instr (.rdReg 6) ∧
  decode 0x1000004100000003 = .instr (.ftSet 0x41 3) ∧
  decode 0x1100010000000000 = .instr (.ftRead 0x100) ∧
  decode 0x2100020000000002 = .instr (.tmRead 512 2) ∧
  decode 0x3100004100000008 = .instr (.ctRead 0x41 8) ∧
  decode 0x4100000000000043 = .instr (.encSym 0x43) ∧
  decode 0x5100000000000001 = .instr (.decBit true) ∧
  decode 0x52000000000000B8 = .instr (.decByte 0xB8)

/-! ### Steps and the host -/

/-- When the word the host presents next decodes to a command, the step is that command executed on the state without that
word; nothing is added around it, since HUFFCORE has no program counter (R42). -/
def Obligations.StepRunsDecoded : Prop :=
  (∀ (s : State) (w : Cmd64) (rest : List HostEvent) (i : Instr),
    s.host = .command w :: rest → decode w = .instr i → step s = exec i { s with host := rest }) ∧
  (∀ (s : State) (nbits w : Nat) (i : Instr),
    decode (BitVec.ofNat 64 w) = .instr i → step (s.withFetchWord nbits w) = exec i s)

/-- R277: between commands the block holds its state unchanged. -/
def Obligations.IdleHoldsState : Prop := ∀ s : State, s.host = [] → step s = .next s

/-- R302 and R47: a reset and CLEAR leave every element of R20 at its reset value, in every state; CLEAR has a response
and reset has none. -/
def Obligations.ResetAndClearAgree : Prop :=
  ∀ (s : State) (rest : List HostEvent),
    (s.host = .reset :: rest →
      step s = .next { State.reset with host := rest, out := s.out, draws := s.draws }) ∧
    exec .clear s =
      .next { State.reset with host := s.host, out := s.out ++ [.rsp ⟨.ok, 0⟩], draws := s.draws }

/-- R47 and R300: at reset every entry of the three tables is zero, there is no tree, both units are IDLE, no fault is
latched, FAULT is low and all seven registers read 0. -/
def Obligations.ResetValues : Prop :=
  (∀ k, State.reset.ftAt k = 0 ∧ State.reset.tmAt k = NodeRec.zero ∧ State.reset.ctAt k = []) ∧
  State.reset.nn = 0 ∧ State.reset.root = 0 ∧ State.reset.nleaf = 0 ∧
  State.reset.encSt = .idle ∧ State.reset.encAcc = 0 ∧ State.reset.encCnt = 0 ∧
  State.reset.decSt = .idle ∧ State.reset.decCur = 0 ∧
  State.reset.errCode = .ok ∧ State.reset.errCmd = 0 ∧ State.reset.faultLine = false ∧
  (∀ r : BitVec 4, r.toNat ≤ 6 → State.reset.readReg r = 0)

/-- R301: when RST cuts a command short there is no response, the state is the reset state, and what reached EOUT and DOUT
is the first part of the bytes the command would have emitted. It holds for every value of the free draw. -/
def Obligations.CommandCutByReset : Prop :=
  ∀ (s u : State) (w : Cmd64) (rest : List HostEvent) (bytes : List PortEvent) (r : Resp),
    s.host = .commandCutByReset w :: rest → present w { s with host := rest } = .next u →
    u.out = s.out ++ bytes ++ [.rsp r] → (∀ e ∈ bytes, e.onRsp = none) →
    ∃ t left, step s = .next t ∧ left <+: bytes ∧
      t = { State.reset with host := rest, out := s.out ++ left, draws := t.draws }

/-! ### Faults and the FAULTED mode -/

/-- R264: while ERR_CODE is not 0, the twelve commands other than NOP, CLEAR, RD_REG, FT_READ, TM_READ and CT_READ respond
(15, 0) and change nothing, not even the latch. -/
def Obligations.FaultedRefusal : Prop :=
  ∀ s : State, s.errCode ≠ .ok →
    ∀ i : Instr, (match i with
      | .nop => False | .clear => False | .rdReg _ => False | .ftRead _ => False | .tmRead _ _ => False
      | .ctRead _ _ => False | .ftSet _ _ => True | .fcByte _ => True | .fcEnd => True | .build => True
      | .derive => True | .encStart => True | .encSym _ => True | .encEnd => True | .decStart => True
      | .decBit _ => True | .decByte _ => True | .decEnd => True) →
    exec i s = .next { s with out := s.out ++ [.rsp ⟨.eFaulted, 0⟩] }

/-- R93, R267: an operand out of range raises E_OPERAND, and the five commands that have such an operand do so before
looking at any other state; the three read commands and RD_REG do so in FAULTED too. -/
def Obligations.OperandOutOfRange : Prop :=
  ∀ s : State,
    (∀ sym count, 0x100 < sym.toNat → s.errCode = .ok →
      exec (.ftSet sym count) s = .next (s.afterFault .eOperand (encode (.ftSet sym count)))) ∧
    (∀ sym, 0x100 < sym.toNat → exec (.ftRead sym) s = .next (s.afterFault .eOperand (encode (.ftRead sym)))) ∧
    (∀ sym sel4, 0x100 < sym.toNat ∨ 8 < sel4.toNat →
      exec (.ctRead sym sel4) s = .next (s.afterFault .eOperand (encode (.ctRead sym sel4)))) ∧
    (∀ idx sel2, s.nn.toNat ≤ idx.toNat ∨ sel2 = 3 →
      exec (.tmRead idx sel2) s = .next (s.afterFault .eOperand (encode (.tmRead idx sel2)))) ∧
    (∀ r, 6 < r.toNat → exec (.rdReg r) s = .next (s.afterFault .eOperand (encode (.rdReg r))))

/-- R267, R190, R210: the state preconditions. Each command raises E_STATE exactly in the unit states the tables of R190
and R210 name, DEC_START raises E_NOTREE without a tree, BUILD raises E_INVALID_INPUT on an empty table. -/
def Obligations.StatePreconditions : Prop :=
  ∀ s : State, s.errCode = .ok →
    (s.encSt = .run ∨ s.decSt = .run → exec .build s = .next (s.afterFault .eState (encode .build))) ∧
    (s.encSt ≠ .run → s.decSt ≠ .run → (∀ k, k < 257 → s.ftAt k = 0) →
      exec .build s = .next (s.afterFault .eInvalidInput (encode .build))) ∧
    (s.encSt = .run → exec .encStart s = .next (s.afterFault .eState (encode .encStart))) ∧
    (s.encSt ≠ .run →
      (∀ d, exec (.encSym d) s = .next (s.afterFault .eState (encode (.encSym d)))) ∧
      exec .encEnd s = .next (s.afterFault .eState (encode .encEnd))) ∧
    (s.encSt = .run →
      (∀ d, s.ctAt d.toNat = [] → exec (.encSym d) s = .next (s.afterFault .eMissingCode (encode (.encSym d)))) ∧
      (s.ctAt 0x100 = [] → exec .encEnd s = .next (s.afterFault .eMissingCode (encode .encEnd)))) ∧
    (s.decSt = .run → exec .decStart s = .next (s.afterFault .eState (encode .decStart))) ∧
    (s.decSt ≠ .run → s.nn = 0 → exec .decStart s = .next (s.afterFault .eNoTree (encode .decStart))) ∧
    (s.decSt = .idle →
      (∀ b, exec (.decBit b) s = .next (s.afterFault .eState (encode (.decBit b)))) ∧
      (∀ d, exec (.decByte d) s = .next (s.afterFault .eState (encode (.decByte d)))) ∧
      exec .decEnd s = .next (s.afterFault .eState (encode .decEnd)))

/-- R33: once ERR_CODE is not 0, ERR_CODE and ERR_CMD are changed only by CLEAR and by reset: every step on a state that
holds a fault keeps both, unless the host's next action is one of those. -/
def Obligations.LatchHoldsFirstFault : Prop :=
  ∀ s t : State, s.errCode ≠ .ok → step s = .next t →
    (∀ rest, s.host ≠ .command 0x0200000000000000 :: rest) → (∀ rest, s.host ≠ .reset :: rest) →
    (∀ w rest, s.host ≠ .commandCutByReset w :: rest) →
    t.errCode = s.errCode ∧ t.errCmd = s.errCmd

/-- R97, R71: every command that answers a next state puts its bytes and then exactly one response on the ports, and a
response that is not ok carries data 0. -/
def Obligations.OneResponsePerCommand : Prop :=
  ∀ (w : Cmd64) (s t : State), present w s = .next t →
    ∃ bytes r, t.out = s.out ++ bytes ++ [.rsp r] ∧ (∀ e ∈ bytes, e.onRsp = none) ∧
      (r.rstat ≠ .ok → r.rdata = 0)

/-- R270, R262, R266: FAULT is high after a command exactly when the command was not CLEAR and FAULT was high before it or
the command's response is a fault. -/
def Obligations.FaultLineFollowsLatch : Prop :=
  ∀ (i : Instr) (s t : State) (r : Resp), exec i s = .next t → t.responses = s.responses ++ [r] →
    t.faultLine = (decide (i ≠ .clear) && (s.faultLine || decide (r.rstat ≠ .ok)))

/-- R263: a safe run stays safe with a command exactly when the command's response is ok. -/
def Obligations.SafeRunExtends : Prop :=
  ∀ (i : Instr) (s t : State) (r : Resp), s.safeRun = true → exec i s = .next t → t.responses = s.responses ++ [r] →
    (t.safeRun = true ↔ r.rstat = .ok)

/-- R20, the column "written by", and R60: which commands may change which state. -/
def Obligations.WritersOfState : Prop :=
  ∀ (i : Instr) (s t : State), exec i s = .next t →
    (t.ft ≠ s.ft → i = .clear ∨ (∃ sym count, i = .ftSet sym count) ∨ (∃ d, i = .fcByte d) ∨ i = .fcEnd) ∧
    (t.tm ≠ s.tm ∨ t.nn ≠ s.nn ∨ t.root ≠ s.root ∨ t.nleaf ≠ s.nleaf → i = .clear ∨ i = .build) ∧
    (t.ct ≠ s.ct → i = .clear ∨ i = .build ∨ i = .derive) ∧
    (t.encSt ≠ s.encSt → i = .clear ∨ i = .build ∨ i = .encStart ∨ i = .encEnd) ∧
    (t.encAcc ≠ s.encAcc ∨ t.encCnt ≠ s.encCnt →
      i = .clear ∨ i = .build ∨ i = .encStart ∨ (∃ d, i = .encSym d) ∨ i = .encEnd) ∧
    (t.decSt ≠ s.decSt ∨ t.decCur ≠ s.decCur →
      i = .clear ∨ i = .build ∨ i = .decStart ∨ (∃ b, i = .decBit b) ∨ (∃ d, i = .decByte d) ∨ i = .decEnd) ∧
    t.host = s.host ∧ t.draws = s.draws

/-! ### Control, frequency table -/

/-- R241: NOP is the word 0x0100000000000000; it responds (0, 0) and changes nothing, in every state; the all-zero word is
not NOP. -/
def Obligations.NopDoesNothing : Prop :=
  (∀ s : State, exec .nop s = .next { s with out := s.out ++ [.rsp ⟨.ok, 0⟩] }) ∧
    decode 0x0100000000000000 = .instr .nop ∧ ∃ r, decode 0 = .rejected r

/-- R34 to R40, R243: what RD_REG reads, field by field, in every state; it changes nothing. -/
def Obligations.RegisterReads : Prop :=
  ∀ s : State, ∀ r : BitVec 4, r.toNat ≤ 6 →
    ∃ d : Data64, exec (.rdReg r) s = .next { s with out := s.out ++ [.rsp ⟨.ok, d⟩] } ∧
      (r.toNat = 0 → d.getLsbD 0 = decide (s.nn ≠ 0) ∧
        (d.getLsbD 1 = true ↔ ∃ k, k < 257 ∧ s.ctAt k ≠ []) ∧
        d.extractLsb' 2 2 = s.encSt.code ∧ d.extractLsb' 4 2 = s.decSt.code ∧
        d.getLsbD 6 = decide (s.errCode ≠ .ok) ∧ d.extractLsb' 7 57 = 0) ∧
      (r.toNat = 1 → d.extractLsb' 0 4 = s.errCode.code ∧ d.extractLsb' 4 60 = 0) ∧
      (r.toNat = 2 → d = s.errCmd) ∧
      (r.toNat = 3 → d.extractLsb' 0 10 = s.nn ∧ d.extractLsb' 10 6 = 0 ∧ d.extractLsb' 16 10 = s.root ∧
        d.extractLsb' 26 6 = 0 ∧ d.extractLsb' 32 9 = s.nleaf ∧ d.extractLsb' 41 23 = 0) ∧
      (r.toNat = 4 → d.extractLsb' 0 8 = s.encAcc ∧ d.extractLsb' 8 3 = s.encCnt ∧ d.extractLsb' 11 53 = 0) ∧
      (r.toNat = 5 → d.extractLsb' 0 10 = s.decCur ∧ d.extractLsb' 10 54 = 0) ∧
      (r.toNat = 6 → d.toNat = ((List.range 257).filter (fun k => decide (s.ftAt k ≠ 0))).length ∧ d.toNat ≤ 257)

/-- R121: FT_SET writes one count and nothing else; writing the value already held changes nothing. -/
def Obligations.FtSetWritesOneCount : Prop :=
  ∀ (s : State) (sym : SymCode) (count : Count), s.errCode = .ok →
    (sym.toNat ≤ 0x100 → ∃ t, exec (.ftSet sym count) s = .next t ∧
      t.ftAt sym.toNat = count ∧ (∀ k, k ≠ sym.toNat → t.ftAt k = s.ftAt k) ∧
      t = { s with ft := t.ft, out := s.out ++ [.rsp ⟨.ok, 0⟩] } ∧
      (Memory.wf s = true → s.ftAt sym.toNat = count → t.ft = s.ft)) ∧
    (0x100 < sym.toNat →
      exec (.ftSet sym count) s = .next (s.afterFault .eOperand (encode (.ftSet sym count))))

/-- R122: FT_READ responds with the count and changes nothing, in every state. -/
def Obligations.FtReadReadsCount : Prop :=
  ∀ (s : State) (sym : SymCode),
    (sym.toNat ≤ 0x100 → exec (.ftRead sym) s =
      .next { s with out := s.out ++ [.rsp ⟨.ok, BitVec.ofNat 64 (s.ftAt sym.toNat).toNat⟩] }) ∧
    (0x100 < sym.toNat → exec (.ftRead sym) s = .next (s.afterFault .eOperand (encode (.ftRead sym))))

/-- R123: FC_BYTE adds exactly one to one count, never wraps, and responds with the new count. -/
def Obligations.FcByteCountsOne : Prop :=
  ∀ (s : State) (d : Byte), s.errCode = .ok →
    ((s.ftAt d.toNat).toNat ≠ 2 ^ 32 - 1 → ∃ t, exec (.fcByte d) s = .next t ∧
      (t.ftAt d.toNat).toNat = (s.ftAt d.toNat).toNat + 1 ∧ (∀ k, k ≠ d.toNat → t.ftAt k = s.ftAt k) ∧
      t = { s with ft := t.ft, out := s.out ++ [.rsp ⟨.ok, BitVec.ofNat 64 ((s.ftAt d.toNat).toNat + 1)⟩] }) ∧
    ((s.ftAt d.toNat).toNat = 2 ^ 32 - 1 →
      exec (.fcByte d) s = .next (s.afterFault .eCountOvf (encode (.fcByte d))))

/-- R124: FC_END sets the count of END_OF_DATA to 1 and changes nothing else. -/
def Obligations.FcEndSetsEndOfData : Prop :=
  ∀ s : State, s.errCode = .ok → ∃ t, exec .fcEnd s = .next t ∧
    t.ftAt 0x100 = 1 ∧ (∀ k, k ≠ 0x100 → t.ftAt k = s.ftAt k) ∧
    t = { s with ft := t.ft, out := s.out ++ [.rsp ⟨.ok, 0⟩] }

/-- R125: counting the bytes of any input into an empty table, and then FC_END, leaves the number of occurrences of every
byte, 1 for END_OF_DATA, and a sum of the input's length plus 1. -/
def Obligations.CountingRun : Prop :=
  ∀ (s : State) (input : List Byte), s.errCode = .ok → (∀ k, s.ftAt k = 0) → (∀ v, input.count v < 2 ^ 32) →
    ∃ t, runCommands (input.map .fcByte ++ [.fcEnd]) s = some t ∧ t.errCode = .ok ∧
      (∀ v : Byte, (t.ftAt v.toNat).toNat = input.count v) ∧ t.ftAt 0x100 = 1 ∧
      ((List.range 257).map (fun k => (t.ftAt k).toNat)).sum = input.length + 1

/-! ### Tree builder -/

/-- R141: BUILD of a non-empty table, with neither unit in RUN, completes: NLEAF is the number of present symbols, CT is
emptied, both units are IDLE, FT and the latch are unchanged, and the response is the new TREEINFO. -/
def Obligations.BuildCompletes : Prop :=
  ∀ s : State, s.errCode = .ok → s.encSt ≠ .run → s.decSt ≠ .run → (∃ k, k < 257 ∧ s.ftAt k ≠ 0) →
    ∃ t, exec .build s = .next t ∧ t.nn ≠ 0 ∧
      t.nleaf.toNat = ((List.range 257).filter (fun k => decide (s.ftAt k ≠ 0))).length ∧
      t = { s with
        tm := t.tm, nn := t.nn, root := t.root, nleaf := t.nleaf, ct := []
        encSt := .idle, encAcc := 0, encCnt := 0, decSt := .idle, decCur := 0
        out := s.out ++ [.rsp ⟨.ok, BitVec.ofNat 64 (t.nleaf.toNat * 2 ^ 32 + t.root.toNat * 2 ^ 16 + t.nn.toNat)⟩] }

/-- R26, R27, R144, R149: the tree a BUILD leaves satisfies all the tree invariants. -/
def Obligations.BuildMakesTree : Prop :=
  ∀ s t : State, s.errCode = .ok → exec .build s = .next t → t.errCode = .ok → TreeInv t

/-- R141, R149: the leaves of the built tree are the present symbols, each once, weighted by its count. -/
def Obligations.BuildLeaves : Prop :=
  ∀ s t : State, s.errCode = .ok → exec .build s = .next t → t.errCode = .ok →
    (∀ k, k < t.nleaf.toNat → ∃ sym, sym < 257 ∧ symIndex (t.tmAt k).sym = some sym ∧ s.ftAt sym ≠ 0 ∧
      (t.tmAt k).weight.toNat = (s.ftAt sym).toNat) ∧
    (∀ sym, sym < 257 → s.ftAt sym ≠ 0 →
      ∃ k, (k < t.nleaf.toNat ∧ symIndex (t.tmAt k).sym = some sym) ∧
        ∀ k', k' < t.nleaf.toNat ∧ symIndex (t.tmAt k').sym = some sym → k' = k)

/-- R141, R142, R144, R145: with two or more leaves, the record at every index from NLEAF on merges the two first nodes, in the
order of (weight, index), of those that exist and have no parent yet: the first is its left child, the second its right
child, and its weight is their exact sum. With R26 this determines the whole tree. -/
def Obligations.BuildMergesTwoFirst : Prop :=
  ∀ s t : State, s.errCode = .ok → exec .build s = .next t → t.errCode = .ok → 2 ≤ t.nleaf.toNat →
    ∀ k, t.nleaf.toNat ≤ k → k < t.nn.toNat →
      ∃ a b : NodeIdx, (t.tmAt k).left = some a ∧ (t.tmAt k).right = some b ∧ a ≠ b ∧
        t.liveAt k a.toNat ∧ t.liveAt k b.toNat ∧ t.before a.toNat b.toNat ∧
        (∀ j, t.liveAt k j → j ≠ a.toNat → j ≠ b.toNat → t.before b.toNat j) ∧
        (t.tmAt k).sym = .internal ∧
        (t.tmAt k).weight.toNat = (t.tmAt a.toNat).weight.toNat + (t.tmAt b.toNat).weight.toNat

/-- R149: the root's weight is the sum of all counts in FT. -/
def Obligations.BuildRootWeight : Prop :=
  ∀ s t : State, s.errCode = .ok → exec .build s = .next t → t.errCode = .ok →
    (t.tmAt t.root.toNat).weight.toNat = ((List.range 257).map (fun k => (s.ftAt k).toNat)).sum

/-- R143: a table with exactly one present entry builds the leaf at index 0 and, at index 1, an internal root with the
leaf as its left child, no right child and the leaf's weight. -/
def Obligations.BuildDegenerate : Prop :=
  ∀ (s : State) (sym : Nat), s.errCode = .ok → s.encSt ≠ .run → s.decSt ≠ .run → sym < 257 → s.ftAt sym ≠ 0 →
    (∀ k, k < 257 → k ≠ sym → s.ftAt k = 0) →
    ∃ t, exec .build s = .next t ∧ t.nleaf = 1 ∧ t.nn = 2 ∧ t.root = 1 ∧
      symIndex (t.tmAt 0).sym = some sym ∧ (t.tmAt 0).weight.toNat = (s.ftAt sym).toNat ∧ (t.tmAt 0).isLeaf = true ∧
      t.tmAt 1 = { sym := .internal, weight := (t.tmAt 0).weight, left := some 0, right := none } ∧
      (∀ k, 2 ≤ k → t.tmAt k = NodeRec.zero)

/-- R146: the tree is a function of FT alone, whatever the states were otherwise, and so is the code table that DERIVE
then computes. -/
def Obligations.BuildIsFunctionOfTable : Prop :=
  ∀ s s' t t' : State, s.errCode = .ok → s'.errCode = .ok → (∀ k, k < 257 → s.ftAt k = s'.ftAt k) →
    exec .build s = .next t → exec .build s' = .next t' → t.errCode = .ok → t'.errCode = .ok →
    t.tm = t'.tm ∧ t.nn = t'.nn ∧ t.root = t'.root ∧ t.nleaf = t'.nleaf ∧
      ∀ u u', exec .derive t = .next u → exec .derive t' = .next u' → u.ct = u'.ct

/-- R148: what TM_READ reads, group by group; it changes nothing, in every state. -/
def Obligations.TmReadFieldGroups : Prop :=
  ∀ (s : State) (idx : NodeIdx), idx.toNat < s.nn.toNat → idx.toNat < 513 →
    (exec (.tmRead idx 0) s = .next { s with out := s.out ++ [.rsp ⟨.ok, BitVec.ofNat 64
      ((if (s.tmAt idx.toNat).left = none ∧ (s.tmAt idx.toNat).right = none then 2 ^ 16 else 0) +
        (symCode (s.tmAt idx.toNat).sym).toNat)⟩] }) ∧
    (exec (.tmRead idx 1) s =
      .next { s with out := s.out ++ [.rsp ⟨.ok, BitVec.ofNat 64 (s.tmAt idx.toNat).weight.toNat⟩] }) ∧
    (exec (.tmRead idx 2) s = .next { s with out := s.out ++ [.rsp ⟨.ok, BitVec.ofNat 64
      (((s.tmAt idx.toNat).right.map (fun c => 2 ^ 31 + c.toNat * 2 ^ 16)).getD 0 +
        ((s.tmAt idx.toNat).left.map (fun c => 2 ^ 15 + c.toNat)).getD 0)⟩] })

/-! ### Code table -/

/-- R171: DERIVE without a tree empties CT and responds 0; with a tree it completes, responds NLEAF, and gives every leaf's
symbol the path of edges from ROOT to that leaf and every other symbol no code. It changes nothing but CT. -/
def Obligations.DeriveRecordsPaths : Prop :=
  ∀ s : State, s.errCode = .ok →
    (s.nn = 0 → exec .derive s = .next { s with ct := [], out := s.out ++ [.rsp ⟨.ok, 0⟩] }) ∧
    (s.nn ≠ 0 → TreeInv s → ∃ t, exec .derive s = .next t ∧
      t = { s with ct := t.ct, out := s.out ++ [.rsp ⟨.ok, BitVec.ofNat 64 s.nleaf.toNat⟩] } ∧
      (∀ k, k < s.nleaf.toNat → ∃ sym, symIndex (s.tmAt k).sym = some sym ∧
        s.follow s.root (t.ctAt sym) = some (BitVec.ofNat 10 k) ∧
        1 ≤ (t.ctAt sym).length ∧ (t.ctAt sym).length ≤ 256) ∧
      (∀ sym, (∀ k, k < s.nleaf.toNat → symIndex (s.tmAt k).sym ≠ some sym) → t.ctAt sym = []))

/-- R172: in a derived table no code is a prefix of another. -/
def Obligations.DerivedCodesPrefixFree : Prop :=
  ∀ s t : State, s.errCode = .ok → s.nn ≠ 0 → TreeInv s → exec .derive s = .next t →
    ∀ a b, t.ctAt a ≠ [] → t.ctAt b ≠ [] → a ≠ b → ¬ t.ctAt a <+: t.ctAt b

/-- R172: for two or more leaves the sum of 2^(-len) over the present symbols is 1, for one leaf it is 1/2; written with
the common denominator 2^256. -/
def Obligations.DerivedCodesKraftSum : Prop :=
  ∀ s t : State, s.errCode = .ok → s.nn ≠ 0 → TreeInv s → exec .derive s = .next t →
    (((List.range 257).filter (fun k => decide (t.ctAt k ≠ []))).map (fun k => 2 ^ (256 - (t.ctAt k).length))).sum =
      if s.nleaf.toNat = 1 then 2 ^ 255 else 2 ^ 256

/-- R173: CT_READ responds with the length, or with one 32-bit chunk whose bit 31 - j is code bit 32 sel4 + j, 0 beyond
the length; it changes nothing, in every state. -/
def Obligations.CtReadChunks : Prop :=
  ∀ (s : State) (sym : SymCode) (sel4 : BitVec 4), sym.toNat ≤ 0x100 → (s.ctAt sym.toNat).length ≤ 256 →
    (sel4.toNat = 8 → exec (.ctRead sym sel4) s =
      .next { s with out := s.out ++ [.rsp ⟨.ok, BitVec.ofNat 64 (s.ctAt sym.toNat).length⟩] }) ∧
    (sel4.toNat < 8 → ∃ d : Data64,
      exec (.ctRead sym sel4) s = .next { s with out := s.out ++ [.rsp ⟨.ok, d⟩] } ∧
      d.extractLsb' 32 32 = 0 ∧
      ∀ j, j < 32 → d.getLsbD (31 - j) = (s.ctAt sym.toNat).getD (32 * sel4.toNat + j) false)

/-! ### Encoder -/

/-- R192: ENC_START begins a payload from IDLE or DONE with an empty accumulator, and touches nothing else; in RUN it
raises E_STATE. -/
def Obligations.EncStartBeginsPayload : Prop :=
  ∀ s : State, s.errCode = .ok →
    (s.encSt ≠ .run → exec .encStart s =
      .next { s with encSt := .run, encAcc := 0, encCnt := 0, out := s.out ++ [.rsp ⟨.ok, 0⟩] }) ∧
    (s.encSt = .run → exec .encStart s = .next (s.afterFault .eState (encode .encStart)))

/-- R191, R193, R63: ENC_SYM appends the bits of the byte's code, first bit first, to the pending bits, and every complete
byte leaves on EOUT most significant bit first; the counts are those of the corner cases of R193. -/
def Obligations.EncSymAppendsCode : Prop :=
  ∀ (s : State) (d : Byte), s.errCode = .ok → EncInv s → s.encSt = .run → s.ctAt d.toNat ≠ [] →
    (s.ctAt d.toNat).length ≤ 256 →
    ∃ t bytes, exec (.encSym d) s = .next t ∧
      payloadBits bytes ++ t.pendingBits = s.pendingBits ++ s.ctAt d.toNat ∧
      bytes.length = (s.encCnt.toNat + (s.ctAt d.toNat).length) / 8 ∧
      t.encCnt.toNat = (s.encCnt.toNat + (s.ctAt d.toNat).length) % 8 ∧ EncInv t ∧
      t = { s with
        encAcc := t.encAcc, encCnt := t.encCnt
        out := s.out ++ bytes.map .eout ++ [.rsp ⟨.ok, BitVec.ofNat 64 (t.encCnt.toNat * 2 ^ 8 + bytes.length)⟩] }

/-- R194, R67: ENC_END appends the END_OF_DATA code and the least number of zero bits that completes a byte, empties the
accumulator and ends in DONE. -/
def Obligations.EncEndTerminatesPayload : Prop :=
  ∀ s : State, s.errCode = .ok → EncInv s → s.encSt = .run → s.ctAt 0x100 ≠ [] →
    ∃ t bytes pad, exec .encEnd s = .next t ∧ pad < 8 ∧
      payloadBits bytes = s.pendingBits ++ s.ctAt 0x100 ++ List.replicate pad false ∧
      t = { s with
        encSt := .done, encAcc := 0, encCnt := 0
        out := s.out ++ bytes.map .eout ++ [.rsp ⟨.ok, BitVec.ofNat 64 bytes.length⟩] }

/-- R195: the payload of any byte sequence whose bytes and END_OF_DATA have codes is the concatenation of the codes and 0
to 7 zero bits, cut into bytes most significant bit first; and nothing but the encoder and the ports changes. -/
def Obligations.PayloadLaw : Prop :=
  ∀ (s : State) (input : List Byte), s.errCode = .ok → s.encSt ≠ .run → (∀ d ∈ input, s.ctAt d.toNat ≠ []) →
    s.ctAt 0x100 ≠ [] →
    ∃ t payload pad, runCommands (.encStart :: (input.map .encSym ++ [.encEnd])) s = some t ∧
      t.eoutBytes = s.eoutBytes ++ payload ∧ t.doutBytes = s.doutBytes ∧ pad < 8 ∧
      payloadBits payload = input.flatMap (fun d => s.ctAt d.toNat) ++ s.ctAt 0x100 ++ List.replicate pad false ∧
      t = { s with encSt := .done, encAcc := 0, encCnt := 0, out := t.out }

/-! ### Decoder -/

/-- R212: DEC_START stands at ROOT in RUN, from IDLE and both DONE states, and touches nothing else; E_STATE in RUN comes
before E_NOTREE. -/
def Obligations.DecStartStandsAtRoot : Prop :=
  ∀ s : State, s.errCode = .ok →
    (s.decSt ≠ .run → s.nn ≠ 0 → exec .decStart s =
      .next { s with decSt := .run, decCur := s.root, out := s.out ++ [.rsp ⟨.ok, 0⟩] }) ∧
    (s.decSt ≠ .run → s.nn = 0 → exec .decStart s = .next (s.afterFault .eNoTree (encode .decStart))) ∧
    (s.decSt = .run → exec .decStart s = .next (s.afterFault .eState (encode .decStart)))

/-- R211, R213, R218: one input bit. In RUN it moves to the child bound to the bit, left on 0 and right on 1; at the
END_OF_DATA leaf the walk stops, at a byte's leaf the byte is emitted, and both return to ROOT; an absent child faults and
changes nothing. After a stop the bit is ignored. -/
def Obligations.DecBitWalksOneEdge : Prop :=
  ∀ (s : State) (b : Bool), s.errCode = .ok →
    (s.decSt = .run → s.decCur.toNat < 513 →
      ((if b then (s.tmAt s.decCur.toNat).right else (s.tmAt s.decCur.toNat).left) = none →
        exec (.decBit b) s = .next (s.afterFault .eNoChild (encode (.decBit b)))) ∧
      (∀ c, (if b then (s.tmAt s.decCur.toNat).right else (s.tmAt s.decCur.toNat).left) = some c → c.toNat < 513 →
        ((s.tmAt c.toNat).isLeaf = false →
          exec (.decBit b) s = .next { s with decCur := c, out := s.out ++ [.rsp ⟨.ok, 0x011⟩] }) ∧
        ((s.tmAt c.toNat).isLeaf = true → (s.tmAt c.toNat).sym = .endOfData →
          exec (.decBit b) s =
            .next { s with decSt := .doneEod, decCur := s.root, out := s.out ++ [.rsp ⟨.ok, 0x012⟩] }) ∧
        (∀ v, (s.tmAt c.toNat).isLeaf = true → (s.tmAt c.toNat).sym = .byte v →
          exec (.decBit b) s =
            .next { s with decCur := s.root, out := s.out ++ [.dout v, .rsp ⟨.ok, 0x111⟩] }))) ∧
    (s.decSt = .doneEod → exec (.decBit b) s = .next { s with out := s.out ++ [.rsp ⟨.ok, 2⟩] }) ∧
    (s.decSt = .doneTrunc → exec (.decBit b) s = .next { s with out := s.out ++ [.rsp ⟨.ok, 3⟩] })

/-- R214: where the walk of DEC_BYTE meets no absent child (in a tree of two or more leaves on every byte; in a tree of one
leaf on the byte 0, and over END_OF_DATA on every byte whose bit 7 is 0) DEC_BYTE in RUN completes and is the sequence of
DEC_BIT on its bits, bit 7 first, until END_OF_DATA or the last bit, but for its one response, which counts the bits
consumed and the bytes emitted; after a stop the whole byte is ignored. -/
def Obligations.DecByteIsItsBits : Prop :=
  ∀ (s : State) (d : Byte), s.errCode = .ok →
    (Inv s → (s.nleaf ≠ 1 ∨ d = 0 ∨ ((s.tmAt 0).sym = .endOfData ∧ d.getLsbD 7 = false)) → s.decSt = .run →
      ∃ t u used bytes, exec (.decByte d) s = .next t ∧
      runCommands (((byteBits d).take used).map .decBit) s = some u ∧
      1 ≤ used ∧ used ≤ 8 ∧ (used < 8 → u.decSt = .doneEod) ∧ (u.decSt = .run ∨ u.decSt = .doneEod) ∧
      (∀ n, n < used → ∃ v, runCommands (((byteBits d).take n).map .decBit) s = some v ∧ v.decSt = .run) ∧
      u.errCode = .ok ∧ u.doutBytes = s.doutBytes ++ bytes ∧
      t = { s with
        decSt := u.decSt, decCur := u.decCur
        out := s.out ++ bytes.map .dout ++
          [.rsp ⟨.ok, BitVec.ofNat 64 (bytes.length * 2 ^ 8 + used * 2 ^ 4 + u.decSt.code.toNat)⟩] }) ∧
    (s.decSt = .doneEod → exec (.decByte d) s = .next { s with out := s.out ++ [.rsp ⟨.ok, 2⟩] }) ∧
    (s.decSt = .doneTrunc → exec (.decByte d) s = .next { s with out := s.out ++ [.rsp ⟨.ok, 3⟩] })

/-- R214, R218, R262: in the tree of one leaf, the first 1 bit of DEC_BYTE faults with E_NOCHILD, and the bytes decoded by
the 0 bits before it stand; over END_OF_DATA that is bit 7 only, since a 0 bit ends the walk. -/
def Obligations.DecByteKeepsEarlierBits : Prop :=
  ∀ (s : State) (d v : Byte) (k : Nat), s.errCode = .ok → Inv s → s.nleaf = 1 → s.decSt = .run →
    ((s.tmAt 0).sym = .byte v ∨ k = 0) → k < 8 → (∀ j, j < k → (byteBits d).getD j false = false) →
    (byteBits d).getD k false = true →
    exec (.decByte d) s = .next
      ({ s with out := s.out ++ List.replicate k (PortEvent.dout v) }.afterFault .eNoChild (encode (.decByte d)))

/-- R215, R269: DEC_END in RUN is a normal stop that drops a partial path; after a stop it changes nothing. -/
def Obligations.DecEndStops : Prop :=
  ∀ s : State, s.errCode = .ok →
    (s.decSt = .run → exec .decEnd s =
      .next { s with decSt := .doneTrunc, decCur := s.root, out := s.out ++ [.rsp ⟨.ok, 3⟩] }) ∧
    (s.decSt = .doneEod → exec .decEnd s = .next { s with out := s.out ++ [.rsp ⟨.ok, 2⟩] }) ∧
    (s.decSt = .doneTrunc → exec .decEnd s = .next { s with out := s.out ++ [.rsp ⟨.ok, 3⟩] }) ∧
    (s.decSt = .idle → exec .decEnd s = .next (s.afterFault .eState (encode .decEnd)))

/-- R211, R171: fed bit by bit from ROOT, the derived code of a byte emits exactly that byte and returns to ROOT in RUN. -/
def Obligations.DecoderReadsDerivedCode : Prop :=
  ∀ (s : State) (v : Byte), s.errCode = .ok → Inv s → s.decSt = .run → s.decCur = s.root → s.ctAt v.toNat ≠ [] →
    ∃ t, runCommands ((s.ctAt v.toNat).map .decBit) s = some t ∧ t.doutBytes = s.doutBytes ++ [v] ∧
      t = { s with out := t.out }

/-- R216: any byte sequence whose bytes and END_OF_DATA have codes in the derived table is encoded into a payload that,
fed to the decoder byte by byte, comes out as the same sequence and ends in DONE_EOD. -/
def Obligations.RoundTrip : Prop :=
  ∀ (s : State) (input : List Byte), s.errCode = .ok → Inv s → s.encSt ≠ .run → s.decSt ≠ .run →
    (∀ d ∈ input, s.ctAt d.toNat ≠ []) → s.ctAt 0x100 ≠ [] →
    ∃ t payload u, runCommands (.encStart :: (input.map .encSym ++ [.encEnd])) s = some t ∧
      t.eoutBytes = s.eoutBytes ++ payload ∧
      runCommands (.decStart :: payload.map .decByte) t = some u ∧
      u.doutBytes = s.doutBytes ++ input ∧ u.decSt = .doneEod ∧ u.errCode = .ok

/-- The compress sequence of R245, without the table reads, for an input. -/
def Sys2Proof.compressCommands (input : List Byte) : List Instr :=
  .clear :: (input.map .fcByte ++ [.fcEnd, .build, .derive, .encStart] ++ input.map .encSym ++ [.encEnd])

/-- The decompress sequence of R246 up to the last payload byte, for a frequency table and a payload. An absent symbol is
loaded with its count 0, which leaves it absent. -/
def Sys2Proof.decompressCommands (table : Nat → Count) (payload : List Byte) : List Instr :=
  .clear :: ((List.range 257).map (fun k => .ftSet (BitVec.ofNat 9 k) (table k)) ++ [.build, .decStart] ++
    payload.map .decByte)

/-- R216, R245, R246: for every input, the empty one among them, the compress sequence on any device in any state
completes without fault; the decompress sequence on any device in any state, from the table the first device counted and
the payload it emitted, completes without fault, puts exactly the input on DOUT and ends in DONE_EOD. -/
def Obligations.CompressThenDecompress : Prop :=
  ∀ (s s' : State) (input : List Byte), (∀ v, input.count v < 2 ^ 32) →
    ∃ t payload u, runCommands (compressCommands input) s = some t ∧ t.errCode = .ok ∧
      t.eoutBytes = s.eoutBytes ++ payload ∧
      runCommands (decompressCommands t.ftAt payload) s' = some u ∧ u.errCode = .ok ∧
      u.doutBytes = s'.doutBytes ++ input ∧ u.decSt = .doneEod

/-! ### Invariants -/

/-- The three tables keep their canonical form in every step from every state that has it (R60, R61). -/
def Obligations.StepKeepsMemoryWf : Prop :=
  ∀ s t : State, Memory.wf s = true → step s = .next t → Memory.wf t = true

/-- R31, R33: every step keeps the encoder's register invariant and the latch's. -/
def Obligations.StepKeepsEncoderAndLatch : Prop :=
  ∀ s t : State, EncInv s → LatchInv s → step s = .next t → EncInv t ∧ LatchInv t

/-- The state after reset has every invariant. -/
def Obligations.ResetHasInv : Prop := Inv State.reset

/-- R26, R27, R30 to R33: every step from a state with the invariants ends in a state with them. -/
def Obligations.StepKeepsInv : Prop := ∀ s t : State, Inv s → step s = .next t → Inv t

/-- 93 part 3: no command has an undefined result for any operand value in any state: from a state with the invariants
every word the host presents, legal or not, answers a next state. -/
def Obligations.EveryWordAnswers : Prop := ∀ (s : State) (w : Cmd64), Inv s → ∃ t, present w s = .next t
end

