-- ==== Sys2Proof/Laws/Table.lean ====
section
/-! SUPPORT. The laws of the tables: a read after a write, the canonical form, and whole tables written from a list. -/

namespace Sys2Proof.Machine

variable {α : Type} {d : α}

theorem tableRead_insert (t : List (Nat × α)) (i j : Nat) (v : α) (h : ∀ e ∈ t, e.1 ≠ i) :
    tableRead d (tableInsert i v t) j = if j = i then v else tableRead d t j := by
  induction t with
  | nil => simp [tableInsert, tableRead, eq_comm]
  | cons e rest ih =>
    obtain ⟨k, x⟩ := e
    have hk : k ≠ i := h (k, x) (by simp)
    have ih := ih (fun e he => h e (by simp [he]))
    unfold tableInsert
    split
    · simp [tableRead, eq_comm]
    · simp only [tableRead, ih]
      split_ifs with h1 h2 <;> simp_all

theorem tableRead_filter_ne (t : List (Nat × α)) (i j : Nat) :
    tableRead d (t.filter (fun e => decide (e.1 ≠ i))) j = if j = i then d else tableRead d t j := by
  induction t with
  | nil => simp [tableRead]
  | cons e rest ih =>
    obtain ⟨k, x⟩ := e
    by_cases hk : k = i
    · subst hk
      rw [List.filter_cons_of_neg (by simp), ih]
      by_cases hj : j = k
      · simp [hj]
      · simp [hj, tableRead, Ne.symm hj]
    · rw [List.filter_cons_of_pos (by simpa using hk)]
      simp only [tableRead, ih]
      split_ifs with h1 h2 <;> simp_all

/-- Reading any index after a write: the value written at its own index, what was there elsewhere. -/
theorem tableRead_write [DecidableEq α] (t : List (Nat × α)) (i j : Nat) (v : α) :
    tableRead d (tableWrite d t i v) j = if j = i then v else tableRead d t j := by
  unfold tableWrite
  by_cases hv : v = d
  · subst hv
    simp only [if_true]
    exact tableRead_filter_ne t i j
  · rw [if_neg hv, tableRead_insert _ _ _ _ (by simp), tableRead_filter_ne]
    split_ifs <;> rfl

@[simp] theorem tableRead_write_same [DecidableEq α] (t : List (Nat × α)) (i : Nat) (v : α) :
    tableRead d (tableWrite d t i v) i = v := by
  simp [tableRead_write]

@[simp] theorem State.ftAt_ftPut (s : State) (i j : Nat) (c : Count) :
    (s.ftPut i c).ftAt j = if j = i then c else s.ftAt j :=
  tableRead_write s.ft i j c

/-! ### The canonical form -/

/-- The canonical form, said of the list as a whole: keys strictly rising, keys below `size`, no default entry. -/
theorem tableWf_iff [DecidableEq α] (size : Nat) (t : List (Nat × α)) :
    tableWf d size t = true ↔
      (t.map Prod.fst).Pairwise (· < ·) ∧ ∀ e ∈ t, e.1 < size ∧ e.2 ≠ d := by
  induction t with
  | nil => simp [tableWf]
  | cons e rest ih =>
    obtain ⟨k, v⟩ := e
    cases rest with
    | nil => simp [tableWf]
    | cons e' rest' =>
      obtain ⟨k', v'⟩ := e'
      rw [tableWf, Bool.and_eq_true, Bool.and_eq_true, ih]
      simp only [decide_eq_true_eq, List.map_cons, List.pairwise_cons, List.mem_cons, List.mem_map, Prod.exists,
        exists_and_right, exists_eq_right]
      constructor
      · rintro ⟨⟨hlt, hv⟩, ⟨hrest, hpw⟩, hall⟩
        refine ⟨⟨?_, hrest, hpw⟩, ?_⟩
        · rintro a (rfl | ha)
          · exact hlt
          · exact hlt.trans (hrest a ha)
        · rintro e (rfl | he)
          · exact ⟨hlt.trans (hall (k', v') (by simp)).1, hv⟩
          · exact hall e he
      · rintro ⟨⟨hk, hrest, hpw⟩, hall⟩
        exact ⟨⟨hk k' (by simp), (hall (k, v) (by simp)).2⟩, ⟨hrest, hpw⟩, fun e he => hall e (Or.inr he)⟩

theorem mem_tableInsert (t : List (Nat × α)) (i : Nat) (v : α) (e : Nat × α) :
    e ∈ tableInsert i v t ↔ e = (i, v) ∨ e ∈ t := by
  induction t with
  | nil => simp [tableInsert]
  | cons x rest ih =>
    obtain ⟨k, w⟩ := x
    unfold tableInsert
    split
    · simp
    · simp only [List.mem_cons, ih]
      tauto

theorem tableInsert_sorted (t : List (Nat × α)) (i : Nat) (v : α) (h : (t.map Prod.fst).Pairwise (· < ·))
    (hi : ∀ e ∈ t, e.1 ≠ i) : ((tableInsert i v t).map Prod.fst).Pairwise (· < ·) := by
  induction t with
  | nil => simp [tableInsert]
  | cons x rest ih =>
    obtain ⟨k, w⟩ := x
    rw [List.map_cons, List.pairwise_cons] at h
    have hk : k ≠ i := hi (k, w) (by simp)
    unfold tableInsert
    split
    · next hlt =>
      simp only [List.map_cons, List.pairwise_cons, List.mem_cons]
      refine ⟨?_, h.1, h.2⟩
      rintro a (rfl | ha)
      · exact hlt
      · exact hlt.trans (h.1 a ha)
    · next hge =>
      simp only [List.map_cons, List.pairwise_cons]
      refine ⟨?_, ih h.2 (fun e he => hi e (by simp [he]))⟩
      intro a ha
      obtain ⟨e, he, rfl⟩ := List.mem_map.1 ha
      rcases (mem_tableInsert rest i v e).1 he with rfl | he
      · dsimp only
        omega
      · exact h.1 _ (List.mem_map_of_mem he)

/-- A write below `size` keeps the canonical form. -/
theorem tableWf_write [DecidableEq α] (size : Nat) (t : List (Nat × α)) (i : Nat) (v : α) (hi : i < size)
    (h : tableWf d size t = true) : tableWf d size (tableWrite d t i v) = true := by
  rw [tableWf_iff] at h ⊢
  have hsub : ((t.filter (fun e => decide (e.1 ≠ i))).map Prod.fst).Pairwise (· < ·) :=
    h.1.sublist (List.filter_sublist.map _)
  have hmem : ∀ e ∈ t.filter (fun e => decide (e.1 ≠ i)), e.1 < size ∧ e.2 ≠ d :=
    fun e he => h.2 e (List.mem_of_mem_filter he)
  unfold tableWrite
  by_cases hv : v = d
  · simp only [if_pos hv]
    exact ⟨hsub, hmem⟩
  · simp only [if_neg hv]
    refine ⟨tableInsert_sorted _ _ _ hsub (by simp), ?_⟩
    intro e he
    rcases (mem_tableInsert _ _ _ _).1 he with rfl | he
    · exact ⟨hi, hv⟩
    · exact hmem e he

/-- In the canonical form an index at or above `size` reads the default. -/
theorem tableRead_ge [DecidableEq α] (size : Nat) (t : List (Nat × α)) (h : tableWf d size t = true) (i : Nat)
    (hi : size ≤ i) : tableRead d t i = d := by
  have hlt := ((tableWf_iff size t).1 h).2
  clear h
  induction t with
  | nil => rfl
  | cons e rest ih =>
    obtain ⟨k, v⟩ := e
    have hk : k < size := (hlt (k, v) (by simp)).1
    simp only [tableRead, if_neg (show k ≠ i by omega)]
    exact ih (fun e he => hlt e (by simp [he]))

theorem tableRead_lt_head (t : List (Nat × α)) (i : Nat) (h : ∀ e ∈ t, i < e.1) : tableRead d t i = d := by
  induction t with
  | nil => rfl
  | cons e rest ih =>
    obtain ⟨k, v⟩ := e
    have hk := h (k, v) (by simp)
    simp only [tableRead]
    rw [if_neg (by dsimp only at hk; omega)]
    exact ih (fun e he => h e (by simp [he]))

/-- Canonical tables that read alike are the same data. -/
theorem tableWf_ext [DecidableEq α] (size : Nat) (t u : List (Nat × α)) (ht : tableWf d size t = true)
    (hu : tableWf d size u = true) (h : ∀ i, tableRead d t i = tableRead d u i) : t = u := by
  rw [tableWf_iff] at ht hu
  induction t generalizing u with
  | nil =>
    cases u with
    | nil => rfl
    | cons e rest =>
      obtain ⟨k, v⟩ := e
      have := h k
      simp only [tableRead, if_pos] at this
      exact absurd this.symm (hu.2 (k, v) (by simp)).2
  | cons e rest ih =>
    obtain ⟨k, v⟩ := e
    cases u with
    | nil =>
      have := h k
      simp only [tableRead, if_pos] at this
      exact absurd this (ht.2 (k, v) (by simp)).2
    | cons e' rest' =>
      obtain ⟨k', v'⟩ := e'
      simp only [List.map_cons, List.pairwise_cons, List.mem_map, forall_exists_index, and_imp,
        forall_apply_eq_imp_iff₂] at ht hu
      have hv := (ht.2 (k, v) (by simp)).2
      have hv' := (hu.2 (k', v') (by simp)).2
      have hkk : k = k' := by
        rcases Nat.lt_trichotomy k k' with hlt | heq | hgt
        · have h1 := h k
          rw [tableRead_lt_head (d := d) ((k', v') :: rest') k (by
            intro e he
            rcases List.mem_cons.1 he with rfl | he
            · exact hlt
            · exact hlt.trans (hu.1.1 e he))] at h1
          simp only [tableRead, if_pos] at h1
          exact absurd h1 hv
        · exact heq
        · have h1 := h k'
          rw [tableRead_lt_head (d := d) ((k, v) :: rest) k' (by
            intro e he
            rcases List.mem_cons.1 he with rfl | he
            · exact hgt
            · exact hgt.trans (ht.1.1 e he))] at h1
          simp only [tableRead, if_pos] at h1
          exact absurd h1.symm hv'
      subst hkk
      have hvv : v = v' := by
        have := h k
        simpa [tableRead] using this
      subst hvv
      congr 1
      refine ih rest' ⟨ht.1.2, fun e he => ht.2 e (by simp [he])⟩ ⟨hu.1.2, fun e he => hu.2 e (by simp [he])⟩ ?_
      intro i
      by_cases hi : k = i
      · subst hi
        rw [tableRead_lt_head rest k ht.1.1, tableRead_lt_head rest' k hu.1.1]
      · have := h i
        simpa [tableRead, hi] using this

/-! ### A whole table from a list -/

theorem tableRead_ofListFrom [DecidableEq α] (l : List α) (i j : Nat) :
    tableRead d (tableOfListFrom d i l) j = if i ≤ j then l.getD (j - i) d else d := by
  induction l generalizing i with
  | nil => simp [tableOfListFrom, tableRead]
  | cons v rest ih =>
    unfold tableOfListFrom
    by_cases hv : v = d
    · rw [if_pos hv, ih]
      by_cases hij : i ≤ j
      · rcases Nat.eq_or_lt_of_le hij with rfl | hlt
        · simp [hv]
        · rw [if_pos (by omega), if_pos hij, show j - i = (j - (i + 1)) + 1 by omega, List.getD_cons_succ]
      · rw [if_neg (by omega), if_neg hij]
    · rw [if_neg hv]
      simp only [tableRead, ih]
      by_cases hij : i = j
      · subst hij
        simp
      · rw [if_neg hij]
        by_cases hle : i ≤ j
        · rw [if_pos (by omega), if_pos hle, show j - i = (j - (i + 1)) + 1 by omega, List.getD_cons_succ]
        · rw [if_neg (by omega), if_neg hle]

/-- TM written from a list of records: the record at its position, the default beyond. -/
theorem tableRead_ofList [DecidableEq α] (l : List α) (j : Nat) : tableRead d (tableOfListFrom d 0 l) j = l.getD j d := by
  simp [tableRead_ofListFrom]

theorem mem_tableOfListFrom [DecidableEq α] (l : List α) (i : Nat) :
    ∀ e ∈ tableOfListFrom d i l, i ≤ e.1 ∧ e.1 < i + l.length ∧ e.2 ≠ d := by
  induction l generalizing i with
  | nil => simp [tableOfListFrom]
  | cons v rest ih =>
    intro e he
    unfold tableOfListFrom at he
    split at he
    · have := ih (i + 1) e he
      simp only [List.length_cons]
      exact ⟨by omega, by omega, this.2.2⟩
    · next hv =>
      rcases List.mem_cons.1 he with rfl | he
      · simp [hv]
      · have := ih (i + 1) e he
        simp only [List.length_cons]
        exact ⟨by omega, by omega, this.2.2⟩

theorem tableWf_ofListFrom [DecidableEq α] (size : Nat) (l : List α) (i : Nat) (h : i + l.length ≤ size) :
    tableWf d size (tableOfListFrom d i l) = true := by
  rw [tableWf_iff]
  constructor
  · clear h
    induction l generalizing i with
    | nil => simp [tableOfListFrom]
    | cons v rest ih =>
      unfold tableOfListFrom
      split
      · exact ih (i + 1)
      · rw [List.map_cons, List.pairwise_cons]
        refine ⟨?_, ih (i + 1)⟩
        intro a ha
        obtain ⟨e, he, rfl⟩ := List.mem_map.1 ha
        have := (mem_tableOfListFrom rest (i + 1) e he).1
        dsimp only
        omega
  · intro e he
    have := mem_tableOfListFrom l i e he
    exact ⟨by omega, this.2.2⟩

/-! ### The memory operations of the machine keep the canonical form -/

/-- A write of FT below NSYM. -/
theorem Memory.wf_ftPut (s : State) (k : Nat) (c : Count) (hk : k < Config.nsym) (h : Memory.wf s = true) :
    Memory.wf (s.ftPut k c) = true := by
  simp only [Memory.wf, Bool.and_eq_true] at h ⊢
  exact ⟨⟨tableWf_write _ _ _ _ hk h.1.1, h.1.2⟩, h.2⟩

/-- TM written from at most 513 records. -/
theorem Memory.wf_setTree (s : State) (nodes : List NodeRec) (nn : BitVec 10) (root : NodeIdx) (nleaf : BitVec 9)
    (hlen : nodes.length ≤ Config.nnode) (h : Memory.wf s = true) :
    Memory.wf (s.setTree (tableOfListFrom NodeRec.zero 0 nodes) nn root nleaf) = true := by
  simp only [Memory.wf, Bool.and_eq_true] at h ⊢
  exact ⟨⟨h.1.1, tableWf_ofListFrom _ _ _ (by omega)⟩, h.2⟩

/-- The code table of codes whose indices are below NSYM is canonical. -/
theorem tableWf_codeTable (found : List (Nat × List Bool)) (h : ∀ e ∈ found, e.1 < Config.nsym) :
    tableWf [] Config.nsym (codeTable found) = true := by
  unfold codeTable
  have key : ∀ (l : List (Nat × List Bool)) (t : List (Nat × List Bool)), (∀ e ∈ l, e.1 < Config.nsym) →
      tableWf [] Config.nsym t = true →
      tableWf [] Config.nsym (l.foldl (fun t e => tableWrite [] t e.1 e.2) t) = true := by
    intro l
    induction l with
    | nil => exact fun _ _ ht => ht
    | cons e rest ih =>
      intro t hl ht
      exact ih _ (fun x hx => hl x (by simp [hx])) (tableWf_write _ _ _ _ (hl e (by simp)) ht)
  exact key found [] h rfl

/-- CT replaced by a canonical table. -/
theorem Memory.wf_setCt (s : State) (ct : List (Nat × List Bool)) (hct : tableWf [] Config.nsym ct = true)
    (h : Memory.wf s = true) : Memory.wf (s.setCt ct) = true := by
  simp only [Memory.wf, Bool.and_eq_true] at h ⊢
  exact ⟨h.1, hct⟩

/-- The state after reset has it, and so has a cleared state. -/
theorem Memory.wf_reset : Memory.wf State.reset = true := rfl

theorem Memory.wf_cleared (s : State) : Memory.wf s.cleared = true := rfl

end Sys2Proof.Machine
end

