-- ==== Sys2Proof/Laws/CodeTable.lean ====
section
/-! SUPPORT. The Code Table Deriver (R171): what the walk reads, and what the table made of its codes holds. -/

namespace Sys2Proof.Machine

/-- The walk reads TM and nothing else of the state. -/
theorem walk_congr {s t : State} (htm : s.tm = t.tm) (fuel : Nat) (i : NodeIdx) (path : List Bool) :
    walk s fuel i path = walk t fuel i path := by
  induction fuel generalizing i path with
  | zero => rfl
  | succ fuel ih => simp only [walk, State.tmGet, State.tmAt, htm, ih]

theorem rootWalk_congr {s t : State} (htm : s.tm = t.tm) (hnn : s.nn = t.nn) (hroot : s.root = t.root) :
    s.rootWalk = t.rootWalk := by
  simp only [State.rootWalk, hnn, hroot, walk_congr htm]

/-- Two walks in sequence give codes exactly when both do. -/
theorem WalkResult.append_codes {a b : WalkResult} {found : List (Nat × List Bool)} :
    a.append b = .codes found ↔ ∃ l r, a = .codes l ∧ b = .codes r ∧ found = l ++ r := by
  cases a <;> cases b <;> simp [WalkResult.append, eq_comm]

/-- The indices of found codes are those of codable symbols, so they are below NSYM. -/
theorem walk_index_lt (s : State) (fuel : Nat) (i : NodeIdx) (path : List Bool) (found : List (Nat × List Bool))
    (h : walk s fuel i path = .codes found) : ∀ e ∈ found, e.1 < Config.nsym := by
  induction fuel generalizing i path found with
  | zero => cases h
  | succ fuel ih =>
    unfold walk at h
    split at h
    · cases h
    · split at h
      · next n _ _ =>
        split at h
        · cases h
        · next k hk =>
          cases h
          intro e he
          rw [List.mem_singleton.1 he]
          cases hs : n.sym with
          | byte b =>
            rw [hs, symIndex, Option.some.injEq] at hk
            have := b.isLt
            simp only [Config.nsym]
            omega
          | endOfData =>
            rw [hs, symIndex, Option.some.injEq] at hk
            simp only [Config.nsym]
            omega
          | internal => simp [hs, symIndex] at hk
      · obtain ⟨l, r, hl, hr, rfl⟩ := WalkResult.append_codes.1 h
        intro e he
        rcases List.mem_append.1 he with he | he
        · split at hl
          · cases hl
            cases he
          · exact ih _ _ _ hl e he
        · split at hr
          · cases hr
            cases he
          · exact ih _ _ _ hr e he

theorem rootWalk_index_lt (s : State) (found : List (Nat × List Bool)) (h : s.rootWalk = .codes found) :
    ∀ e ∈ found, e.1 < Config.nsym := by
  unfold State.rootWalk at h
  split at h
  · cases h
    simp
  · exact walk_index_lt s _ _ _ _ h

theorem foldl_tableWrite_read (found : List (Nat × List Bool)) (t : List (Nat × List Bool)) (k : Nat)
    (h : ∀ e ∈ found, e.1 ≠ k) :
    tableRead [] (found.foldl (fun t e => tableWrite [] t e.1 e.2) t) k = tableRead [] t k := by
  induction found generalizing t with
  | nil => rfl
  | cons e rest ih =>
    rw [List.foldl_cons, ih _ (fun x hx => h x (by simp [hx])), tableRead_write,
      if_neg (Ne.symm (h e (by simp)))]

/-- The table of found codes with different indices: each code at its index, no code elsewhere. -/
theorem codeTable_read (found : List (Nat × List Bool)) (hnd : (found.map Prod.fst).Nodup) (k : Nat) :
    (∀ code, (k, code) ∈ found → tableRead [] (codeTable found) k = code) ∧
      ((∀ e ∈ found, e.1 ≠ k) → tableRead [] (codeTable found) k = []) := by
  unfold codeTable
  refine ⟨?_, fun h => by rw [foldl_tableWrite_read found [] k h]; rfl⟩
  generalize ([] : List (Nat × List Bool)) = t
  induction found generalizing t with
  | nil => simp
  | cons e rest ih =>
    rw [List.map_cons, List.nodup_cons] at hnd
    intro code hmem
    rw [List.foldl_cons]
    rcases List.mem_cons.1 hmem with rfl | hmem
    · rw [foldl_tableWrite_read rest _ k (fun x hx hk => hnd.1 (List.mem_map.2 ⟨x, hx, hk⟩)), tableRead_write_same]
    · exact ih hnd.2 _ code hmem

end Sys2Proof.Machine
end

