-- ==== Sys2Proof/Laws/State.lean ====
section
/-! SUPPORT. For each named update of the state, what each field holds afterwards; and what the table reads see of it. -/

namespace Sys2Proof.Machine

/-! ### emit -/

@[simp] theorem State.emit_ft (s : State) (evs : List PortEvent) : (s.emit evs).ft = s.ft := rfl
@[simp] theorem State.emit_tm (s : State) (evs : List PortEvent) : (s.emit evs).tm = s.tm := rfl
@[simp] theorem State.emit_nn (s : State) (evs : List PortEvent) : (s.emit evs).nn = s.nn := rfl
@[simp] theorem State.emit_root (s : State) (evs : List PortEvent) : (s.emit evs).root = s.root := rfl
@[simp] theorem State.emit_nleaf (s : State) (evs : List PortEvent) : (s.emit evs).nleaf = s.nleaf := rfl
@[simp] theorem State.emit_ct (s : State) (evs : List PortEvent) : (s.emit evs).ct = s.ct := rfl
@[simp] theorem State.emit_encSt (s : State) (evs : List PortEvent) : (s.emit evs).encSt = s.encSt := rfl
@[simp] theorem State.emit_encAcc (s : State) (evs : List PortEvent) : (s.emit evs).encAcc = s.encAcc := rfl
@[simp] theorem State.emit_encCnt (s : State) (evs : List PortEvent) : (s.emit evs).encCnt = s.encCnt := rfl
@[simp] theorem State.emit_decSt (s : State) (evs : List PortEvent) : (s.emit evs).decSt = s.decSt := rfl
@[simp] theorem State.emit_decCur (s : State) (evs : List PortEvent) : (s.emit evs).decCur = s.decCur := rfl
@[simp] theorem State.emit_errCode (s : State) (evs : List PortEvent) : (s.emit evs).errCode = s.errCode := rfl
@[simp] theorem State.emit_errCmd (s : State) (evs : List PortEvent) : (s.emit evs).errCmd = s.errCmd := rfl
@[simp] theorem State.emit_host (s : State) (evs : List PortEvent) : (s.emit evs).host = s.host := rfl
@[simp] theorem State.emit_out (s : State) (evs : List PortEvent) : (s.emit evs).out = s.out ++ evs := rfl
@[simp] theorem State.emit_draws (s : State) (evs : List PortEvent) : (s.emit evs).draws = s.draws := rfl
@[simp] theorem State.emit_ftAt (s : State) (evs : List PortEvent) (i : Nat) : (s.emit evs).ftAt i = s.ftAt i := rfl
@[simp] theorem State.emit_tmAt (s : State) (evs : List PortEvent) (i : Nat) : (s.emit evs).tmAt i = s.tmAt i := rfl
@[simp] theorem State.emit_ctAt (s : State) (evs : List PortEvent) (i : Nat) : (s.emit evs).ctAt i = s.ctAt i := rfl
@[simp] theorem State.emit_tmGet (s : State) (evs : List PortEvent) (i : NodeIdx) : (s.emit evs).tmGet i = s.tmGet i := rfl
@[simp] theorem State.emit_present (s : State) (evs : List PortEvent) : (s.emit evs).present = s.present := rfl

/-! ### ftPut -/

@[simp] theorem State.ftPut_ft (s : State) (k : Nat) (c : Count) : (s.ftPut k c).ft = tableWrite 0 s.ft k c := rfl
@[simp] theorem State.ftPut_tm (s : State) (k : Nat) (c : Count) : (s.ftPut k c).tm = s.tm := rfl
@[simp] theorem State.ftPut_nn (s : State) (k : Nat) (c : Count) : (s.ftPut k c).nn = s.nn := rfl
@[simp] theorem State.ftPut_root (s : State) (k : Nat) (c : Count) : (s.ftPut k c).root = s.root := rfl
@[simp] theorem State.ftPut_nleaf (s : State) (k : Nat) (c : Count) : (s.ftPut k c).nleaf = s.nleaf := rfl
@[simp] theorem State.ftPut_ct (s : State) (k : Nat) (c : Count) : (s.ftPut k c).ct = s.ct := rfl
@[simp] theorem State.ftPut_encSt (s : State) (k : Nat) (c : Count) : (s.ftPut k c).encSt = s.encSt := rfl
@[simp] theorem State.ftPut_encAcc (s : State) (k : Nat) (c : Count) : (s.ftPut k c).encAcc = s.encAcc := rfl
@[simp] theorem State.ftPut_encCnt (s : State) (k : Nat) (c : Count) : (s.ftPut k c).encCnt = s.encCnt := rfl
@[simp] theorem State.ftPut_decSt (s : State) (k : Nat) (c : Count) : (s.ftPut k c).decSt = s.decSt := rfl
@[simp] theorem State.ftPut_decCur (s : State) (k : Nat) (c : Count) : (s.ftPut k c).decCur = s.decCur := rfl
@[simp] theorem State.ftPut_errCode (s : State) (k : Nat) (c : Count) : (s.ftPut k c).errCode = s.errCode := rfl
@[simp] theorem State.ftPut_errCmd (s : State) (k : Nat) (c : Count) : (s.ftPut k c).errCmd = s.errCmd := rfl
@[simp] theorem State.ftPut_host (s : State) (k : Nat) (c : Count) : (s.ftPut k c).host = s.host := rfl
@[simp] theorem State.ftPut_out (s : State) (k : Nat) (c : Count) : (s.ftPut k c).out = s.out := rfl
@[simp] theorem State.ftPut_draws (s : State) (k : Nat) (c : Count) : (s.ftPut k c).draws = s.draws := rfl
@[simp] theorem State.ftPut_tmAt (s : State) (k : Nat) (c : Count) (i : Nat) : (s.ftPut k c).tmAt i = s.tmAt i := rfl
@[simp] theorem State.ftPut_ctAt (s : State) (k : Nat) (c : Count) (i : Nat) : (s.ftPut k c).ctAt i = s.ctAt i := rfl
@[simp] theorem State.ftPut_tmGet (s : State) (k : Nat) (c : Count) (i : NodeIdx) : (s.ftPut k c).tmGet i = s.tmGet i := rfl

/-! ### setTree -/

@[simp] theorem State.setTree_ft (s : State) (tm : List (Nat × NodeRec)) (nn : BitVec 10) (root : NodeIdx) (nleaf : BitVec 9) : (s.setTree tm nn root nleaf).ft = s.ft := rfl
@[simp] theorem State.setTree_tm (s : State) (tm : List (Nat × NodeRec)) (nn : BitVec 10) (root : NodeIdx) (nleaf : BitVec 9) : (s.setTree tm nn root nleaf).tm = tm := rfl
@[simp] theorem State.setTree_nn (s : State) (tm : List (Nat × NodeRec)) (nn : BitVec 10) (root : NodeIdx) (nleaf : BitVec 9) : (s.setTree tm nn root nleaf).nn = nn := rfl
@[simp] theorem State.setTree_root (s : State) (tm : List (Nat × NodeRec)) (nn : BitVec 10) (root : NodeIdx) (nleaf : BitVec 9) : (s.setTree tm nn root nleaf).root = root := rfl
@[simp] theorem State.setTree_nleaf (s : State) (tm : List (Nat × NodeRec)) (nn : BitVec 10) (root : NodeIdx) (nleaf : BitVec 9) : (s.setTree tm nn root nleaf).nleaf = nleaf := rfl
@[simp] theorem State.setTree_ct (s : State) (tm : List (Nat × NodeRec)) (nn : BitVec 10) (root : NodeIdx) (nleaf : BitVec 9) : (s.setTree tm nn root nleaf).ct = s.ct := rfl
@[simp] theorem State.setTree_encSt (s : State) (tm : List (Nat × NodeRec)) (nn : BitVec 10) (root : NodeIdx) (nleaf : BitVec 9) : (s.setTree tm nn root nleaf).encSt = s.encSt := rfl
@[simp] theorem State.setTree_encAcc (s : State) (tm : List (Nat × NodeRec)) (nn : BitVec 10) (root : NodeIdx) (nleaf : BitVec 9) : (s.setTree tm nn root nleaf).encAcc = s.encAcc := rfl
@[simp] theorem State.setTree_encCnt (s : State) (tm : List (Nat × NodeRec)) (nn : BitVec 10) (root : NodeIdx) (nleaf : BitVec 9) : (s.setTree tm nn root nleaf).encCnt = s.encCnt := rfl
@[simp] theorem State.setTree_decSt (s : State) (tm : List (Nat × NodeRec)) (nn : BitVec 10) (root : NodeIdx) (nleaf : BitVec 9) : (s.setTree tm nn root nleaf).decSt = s.decSt := rfl
@[simp] theorem State.setTree_decCur (s : State) (tm : List (Nat × NodeRec)) (nn : BitVec 10) (root : NodeIdx) (nleaf : BitVec 9) : (s.setTree tm nn root nleaf).decCur = s.decCur := rfl
@[simp] theorem State.setTree_errCode (s : State) (tm : List (Nat × NodeRec)) (nn : BitVec 10) (root : NodeIdx) (nleaf : BitVec 9) : (s.setTree tm nn root nleaf).errCode = s.errCode := rfl
@[simp] theorem State.setTree_errCmd (s : State) (tm : List (Nat × NodeRec)) (nn : BitVec 10) (root : NodeIdx) (nleaf : BitVec 9) : (s.setTree tm nn root nleaf).errCmd = s.errCmd := rfl
@[simp] theorem State.setTree_host (s : State) (tm : List (Nat × NodeRec)) (nn : BitVec 10) (root : NodeIdx) (nleaf : BitVec 9) : (s.setTree tm nn root nleaf).host = s.host := rfl
@[simp] theorem State.setTree_out (s : State) (tm : List (Nat × NodeRec)) (nn : BitVec 10) (root : NodeIdx) (nleaf : BitVec 9) : (s.setTree tm nn root nleaf).out = s.out := rfl
@[simp] theorem State.setTree_draws (s : State) (tm : List (Nat × NodeRec)) (nn : BitVec 10) (root : NodeIdx) (nleaf : BitVec 9) : (s.setTree tm nn root nleaf).draws = s.draws := rfl
@[simp] theorem State.setTree_ftAt (s : State) (tm : List (Nat × NodeRec)) (nn : BitVec 10) (root : NodeIdx) (nleaf : BitVec 9) (i : Nat) : (s.setTree tm nn root nleaf).ftAt i = s.ftAt i := rfl
@[simp] theorem State.setTree_ctAt (s : State) (tm : List (Nat × NodeRec)) (nn : BitVec 10) (root : NodeIdx) (nleaf : BitVec 9) (i : Nat) : (s.setTree tm nn root nleaf).ctAt i = s.ctAt i := rfl
@[simp] theorem State.setTree_present (s : State) (tm : List (Nat × NodeRec)) (nn : BitVec 10) (root : NodeIdx) (nleaf : BitVec 9) : (s.setTree tm nn root nleaf).present = s.present := rfl

/-! ### setCt -/

@[simp] theorem State.setCt_ft (s : State) (ct : List (Nat × List Bool)) : (s.setCt ct).ft = s.ft := rfl
@[simp] theorem State.setCt_tm (s : State) (ct : List (Nat × List Bool)) : (s.setCt ct).tm = s.tm := rfl
@[simp] theorem State.setCt_nn (s : State) (ct : List (Nat × List Bool)) : (s.setCt ct).nn = s.nn := rfl
@[simp] theorem State.setCt_root (s : State) (ct : List (Nat × List Bool)) : (s.setCt ct).root = s.root := rfl
@[simp] theorem State.setCt_nleaf (s : State) (ct : List (Nat × List Bool)) : (s.setCt ct).nleaf = s.nleaf := rfl
@[simp] theorem State.setCt_ct (s : State) (ct : List (Nat × List Bool)) : (s.setCt ct).ct = ct := rfl
@[simp] theorem State.setCt_encSt (s : State) (ct : List (Nat × List Bool)) : (s.setCt ct).encSt = s.encSt := rfl
@[simp] theorem State.setCt_encAcc (s : State) (ct : List (Nat × List Bool)) : (s.setCt ct).encAcc = s.encAcc := rfl
@[simp] theorem State.setCt_encCnt (s : State) (ct : List (Nat × List Bool)) : (s.setCt ct).encCnt = s.encCnt := rfl
@[simp] theorem State.setCt_decSt (s : State) (ct : List (Nat × List Bool)) : (s.setCt ct).decSt = s.decSt := rfl
@[simp] theorem State.setCt_decCur (s : State) (ct : List (Nat × List Bool)) : (s.setCt ct).decCur = s.decCur := rfl
@[simp] theorem State.setCt_errCode (s : State) (ct : List (Nat × List Bool)) : (s.setCt ct).errCode = s.errCode := rfl
@[simp] theorem State.setCt_errCmd (s : State) (ct : List (Nat × List Bool)) : (s.setCt ct).errCmd = s.errCmd := rfl
@[simp] theorem State.setCt_host (s : State) (ct : List (Nat × List Bool)) : (s.setCt ct).host = s.host := rfl
@[simp] theorem State.setCt_out (s : State) (ct : List (Nat × List Bool)) : (s.setCt ct).out = s.out := rfl
@[simp] theorem State.setCt_draws (s : State) (ct : List (Nat × List Bool)) : (s.setCt ct).draws = s.draws := rfl
@[simp] theorem State.setCt_ftAt (s : State) (ct : List (Nat × List Bool)) (i : Nat) : (s.setCt ct).ftAt i = s.ftAt i := rfl
@[simp] theorem State.setCt_tmAt (s : State) (ct : List (Nat × List Bool)) (i : Nat) : (s.setCt ct).tmAt i = s.tmAt i := rfl
@[simp] theorem State.setCt_tmGet (s : State) (ct : List (Nat × List Bool)) (i : NodeIdx) : (s.setCt ct).tmGet i = s.tmGet i := rfl
@[simp] theorem State.setCt_present (s : State) (ct : List (Nat × List Bool)) : (s.setCt ct).present = s.present := rfl

/-! ### setEnc -/

@[simp] theorem State.setEnc_ft (s : State) (st : EncSt) (acc : BitVec 8) (cnt : BitVec 3) : (s.setEnc st acc cnt).ft = s.ft := rfl
@[simp] theorem State.setEnc_tm (s : State) (st : EncSt) (acc : BitVec 8) (cnt : BitVec 3) : (s.setEnc st acc cnt).tm = s.tm := rfl
@[simp] theorem State.setEnc_nn (s : State) (st : EncSt) (acc : BitVec 8) (cnt : BitVec 3) : (s.setEnc st acc cnt).nn = s.nn := rfl
@[simp] theorem State.setEnc_root (s : State) (st : EncSt) (acc : BitVec 8) (cnt : BitVec 3) : (s.setEnc st acc cnt).root = s.root := rfl
@[simp] theorem State.setEnc_nleaf (s : State) (st : EncSt) (acc : BitVec 8) (cnt : BitVec 3) : (s.setEnc st acc cnt).nleaf = s.nleaf := rfl
@[simp] theorem State.setEnc_ct (s : State) (st : EncSt) (acc : BitVec 8) (cnt : BitVec 3) : (s.setEnc st acc cnt).ct = s.ct := rfl
@[simp] theorem State.setEnc_encSt (s : State) (st : EncSt) (acc : BitVec 8) (cnt : BitVec 3) : (s.setEnc st acc cnt).encSt = st := rfl
@[simp] theorem State.setEnc_encAcc (s : State) (st : EncSt) (acc : BitVec 8) (cnt : BitVec 3) : (s.setEnc st acc cnt).encAcc = acc := rfl
@[simp] theorem State.setEnc_encCnt (s : State) (st : EncSt) (acc : BitVec 8) (cnt : BitVec 3) : (s.setEnc st acc cnt).encCnt = cnt := rfl
@[simp] theorem State.setEnc_decSt (s : State) (st : EncSt) (acc : BitVec 8) (cnt : BitVec 3) : (s.setEnc st acc cnt).decSt = s.decSt := rfl
@[simp] theorem State.setEnc_decCur (s : State) (st : EncSt) (acc : BitVec 8) (cnt : BitVec 3) : (s.setEnc st acc cnt).decCur = s.decCur := rfl
@[simp] theorem State.setEnc_errCode (s : State) (st : EncSt) (acc : BitVec 8) (cnt : BitVec 3) : (s.setEnc st acc cnt).errCode = s.errCode := rfl
@[simp] theorem State.setEnc_errCmd (s : State) (st : EncSt) (acc : BitVec 8) (cnt : BitVec 3) : (s.setEnc st acc cnt).errCmd = s.errCmd := rfl
@[simp] theorem State.setEnc_host (s : State) (st : EncSt) (acc : BitVec 8) (cnt : BitVec 3) : (s.setEnc st acc cnt).host = s.host := rfl
@[simp] theorem State.setEnc_out (s : State) (st : EncSt) (acc : BitVec 8) (cnt : BitVec 3) : (s.setEnc st acc cnt).out = s.out := rfl
@[simp] theorem State.setEnc_draws (s : State) (st : EncSt) (acc : BitVec 8) (cnt : BitVec 3) : (s.setEnc st acc cnt).draws = s.draws := rfl
@[simp] theorem State.setEnc_ftAt (s : State) (st : EncSt) (acc : BitVec 8) (cnt : BitVec 3) (i : Nat) : (s.setEnc st acc cnt).ftAt i = s.ftAt i := rfl
@[simp] theorem State.setEnc_tmAt (s : State) (st : EncSt) (acc : BitVec 8) (cnt : BitVec 3) (i : Nat) : (s.setEnc st acc cnt).tmAt i = s.tmAt i := rfl
@[simp] theorem State.setEnc_ctAt (s : State) (st : EncSt) (acc : BitVec 8) (cnt : BitVec 3) (i : Nat) : (s.setEnc st acc cnt).ctAt i = s.ctAt i := rfl
@[simp] theorem State.setEnc_tmGet (s : State) (st : EncSt) (acc : BitVec 8) (cnt : BitVec 3) (i : NodeIdx) : (s.setEnc st acc cnt).tmGet i = s.tmGet i := rfl
@[simp] theorem State.setEnc_present (s : State) (st : EncSt) (acc : BitVec 8) (cnt : BitVec 3) : (s.setEnc st acc cnt).present = s.present := rfl

/-! ### setDec -/

@[simp] theorem State.setDec_ft (s : State) (st : DecSt) (cur : NodeIdx) : (s.setDec st cur).ft = s.ft := rfl
@[simp] theorem State.setDec_tm (s : State) (st : DecSt) (cur : NodeIdx) : (s.setDec st cur).tm = s.tm := rfl
@[simp] theorem State.setDec_nn (s : State) (st : DecSt) (cur : NodeIdx) : (s.setDec st cur).nn = s.nn := rfl
@[simp] theorem State.setDec_root (s : State) (st : DecSt) (cur : NodeIdx) : (s.setDec st cur).root = s.root := rfl
@[simp] theorem State.setDec_nleaf (s : State) (st : DecSt) (cur : NodeIdx) : (s.setDec st cur).nleaf = s.nleaf := rfl
@[simp] theorem State.setDec_ct (s : State) (st : DecSt) (cur : NodeIdx) : (s.setDec st cur).ct = s.ct := rfl
@[simp] theorem State.setDec_encSt (s : State) (st : DecSt) (cur : NodeIdx) : (s.setDec st cur).encSt = s.encSt := rfl
@[simp] theorem State.setDec_encAcc (s : State) (st : DecSt) (cur : NodeIdx) : (s.setDec st cur).encAcc = s.encAcc := rfl
@[simp] theorem State.setDec_encCnt (s : State) (st : DecSt) (cur : NodeIdx) : (s.setDec st cur).encCnt = s.encCnt := rfl
@[simp] theorem State.setDec_decSt (s : State) (st : DecSt) (cur : NodeIdx) : (s.setDec st cur).decSt = st := rfl
@[simp] theorem State.setDec_decCur (s : State) (st : DecSt) (cur : NodeIdx) : (s.setDec st cur).decCur = cur := rfl
@[simp] theorem State.setDec_errCode (s : State) (st : DecSt) (cur : NodeIdx) : (s.setDec st cur).errCode = s.errCode := rfl
@[simp] theorem State.setDec_errCmd (s : State) (st : DecSt) (cur : NodeIdx) : (s.setDec st cur).errCmd = s.errCmd := rfl
@[simp] theorem State.setDec_host (s : State) (st : DecSt) (cur : NodeIdx) : (s.setDec st cur).host = s.host := rfl
@[simp] theorem State.setDec_out (s : State) (st : DecSt) (cur : NodeIdx) : (s.setDec st cur).out = s.out := rfl
@[simp] theorem State.setDec_draws (s : State) (st : DecSt) (cur : NodeIdx) : (s.setDec st cur).draws = s.draws := rfl
@[simp] theorem State.setDec_ftAt (s : State) (st : DecSt) (cur : NodeIdx) (i : Nat) : (s.setDec st cur).ftAt i = s.ftAt i := rfl
@[simp] theorem State.setDec_tmAt (s : State) (st : DecSt) (cur : NodeIdx) (i : Nat) : (s.setDec st cur).tmAt i = s.tmAt i := rfl
@[simp] theorem State.setDec_ctAt (s : State) (st : DecSt) (cur : NodeIdx) (i : Nat) : (s.setDec st cur).ctAt i = s.ctAt i := rfl
@[simp] theorem State.setDec_tmGet (s : State) (st : DecSt) (cur : NodeIdx) (i : NodeIdx) : (s.setDec st cur).tmGet i = s.tmGet i := rfl
@[simp] theorem State.setDec_present (s : State) (st : DecSt) (cur : NodeIdx) : (s.setDec st cur).present = s.present := rfl

/-! ### setHost -/

@[simp] theorem State.setHost_ft (s : State) (evs : List HostEvent) : (s.setHost evs).ft = s.ft := rfl
@[simp] theorem State.setHost_tm (s : State) (evs : List HostEvent) : (s.setHost evs).tm = s.tm := rfl
@[simp] theorem State.setHost_nn (s : State) (evs : List HostEvent) : (s.setHost evs).nn = s.nn := rfl
@[simp] theorem State.setHost_root (s : State) (evs : List HostEvent) : (s.setHost evs).root = s.root := rfl
@[simp] theorem State.setHost_nleaf (s : State) (evs : List HostEvent) : (s.setHost evs).nleaf = s.nleaf := rfl
@[simp] theorem State.setHost_ct (s : State) (evs : List HostEvent) : (s.setHost evs).ct = s.ct := rfl
@[simp] theorem State.setHost_encSt (s : State) (evs : List HostEvent) : (s.setHost evs).encSt = s.encSt := rfl
@[simp] theorem State.setHost_encAcc (s : State) (evs : List HostEvent) : (s.setHost evs).encAcc = s.encAcc := rfl
@[simp] theorem State.setHost_encCnt (s : State) (evs : List HostEvent) : (s.setHost evs).encCnt = s.encCnt := rfl
@[simp] theorem State.setHost_decSt (s : State) (evs : List HostEvent) : (s.setHost evs).decSt = s.decSt := rfl
@[simp] theorem State.setHost_decCur (s : State) (evs : List HostEvent) : (s.setHost evs).decCur = s.decCur := rfl
@[simp] theorem State.setHost_errCode (s : State) (evs : List HostEvent) : (s.setHost evs).errCode = s.errCode := rfl
@[simp] theorem State.setHost_errCmd (s : State) (evs : List HostEvent) : (s.setHost evs).errCmd = s.errCmd := rfl
@[simp] theorem State.setHost_host (s : State) (evs : List HostEvent) : (s.setHost evs).host = evs := rfl
@[simp] theorem State.setHost_out (s : State) (evs : List HostEvent) : (s.setHost evs).out = s.out := rfl
@[simp] theorem State.setHost_draws (s : State) (evs : List HostEvent) : (s.setHost evs).draws = s.draws := rfl
@[simp] theorem State.setHost_ftAt (s : State) (evs : List HostEvent) (i : Nat) : (s.setHost evs).ftAt i = s.ftAt i := rfl
@[simp] theorem State.setHost_tmAt (s : State) (evs : List HostEvent) (i : Nat) : (s.setHost evs).tmAt i = s.tmAt i := rfl
@[simp] theorem State.setHost_ctAt (s : State) (evs : List HostEvent) (i : Nat) : (s.setHost evs).ctAt i = s.ctAt i := rfl
@[simp] theorem State.setHost_tmGet (s : State) (evs : List HostEvent) (i : NodeIdx) : (s.setHost evs).tmGet i = s.tmGet i := rfl
@[simp] theorem State.setHost_present (s : State) (evs : List HostEvent) : (s.setHost evs).present = s.present := rfl

/-! ### cleared -/

@[simp] theorem State.cleared_ft (s : State) : (s.cleared).ft = [] := rfl
@[simp] theorem State.cleared_tm (s : State) : (s.cleared).tm = [] := rfl
@[simp] theorem State.cleared_nn (s : State) : (s.cleared).nn = 0 := rfl
@[simp] theorem State.cleared_root (s : State) : (s.cleared).root = 0 := rfl
@[simp] theorem State.cleared_nleaf (s : State) : (s.cleared).nleaf = 0 := rfl
@[simp] theorem State.cleared_ct (s : State) : (s.cleared).ct = [] := rfl
@[simp] theorem State.cleared_encSt (s : State) : (s.cleared).encSt = .idle := rfl
@[simp] theorem State.cleared_encAcc (s : State) : (s.cleared).encAcc = 0 := rfl
@[simp] theorem State.cleared_encCnt (s : State) : (s.cleared).encCnt = 0 := rfl
@[simp] theorem State.cleared_decSt (s : State) : (s.cleared).decSt = .idle := rfl
@[simp] theorem State.cleared_decCur (s : State) : (s.cleared).decCur = 0 := rfl
@[simp] theorem State.cleared_errCode (s : State) : (s.cleared).errCode = .ok := rfl
@[simp] theorem State.cleared_errCmd (s : State) : (s.cleared).errCmd = 0 := rfl
@[simp] theorem State.cleared_host (s : State) : (s.cleared).host = s.host := rfl
@[simp] theorem State.cleared_out (s : State) : (s.cleared).out = s.out := rfl
@[simp] theorem State.cleared_draws (s : State) : (s.cleared).draws = s.draws := rfl

/-! ### completed -/

@[simp] theorem State.completed_ft (s : State) (evs : List PortEvent) (d : Data64) : (s.completed evs d).ft = s.ft := rfl
@[simp] theorem State.completed_tm (s : State) (evs : List PortEvent) (d : Data64) : (s.completed evs d).tm = s.tm := rfl
@[simp] theorem State.completed_nn (s : State) (evs : List PortEvent) (d : Data64) : (s.completed evs d).nn = s.nn := rfl
@[simp] theorem State.completed_root (s : State) (evs : List PortEvent) (d : Data64) : (s.completed evs d).root = s.root := rfl
@[simp] theorem State.completed_nleaf (s : State) (evs : List PortEvent) (d : Data64) : (s.completed evs d).nleaf = s.nleaf := rfl
@[simp] theorem State.completed_ct (s : State) (evs : List PortEvent) (d : Data64) : (s.completed evs d).ct = s.ct := rfl
@[simp] theorem State.completed_encSt (s : State) (evs : List PortEvent) (d : Data64) : (s.completed evs d).encSt = s.encSt := rfl
@[simp] theorem State.completed_encAcc (s : State) (evs : List PortEvent) (d : Data64) : (s.completed evs d).encAcc = s.encAcc := rfl
@[simp] theorem State.completed_encCnt (s : State) (evs : List PortEvent) (d : Data64) : (s.completed evs d).encCnt = s.encCnt := rfl
@[simp] theorem State.completed_decSt (s : State) (evs : List PortEvent) (d : Data64) : (s.completed evs d).decSt = s.decSt := rfl
@[simp] theorem State.completed_decCur (s : State) (evs : List PortEvent) (d : Data64) : (s.completed evs d).decCur = s.decCur := rfl
@[simp] theorem State.completed_errCode (s : State) (evs : List PortEvent) (d : Data64) : (s.completed evs d).errCode = s.errCode := rfl
@[simp] theorem State.completed_errCmd (s : State) (evs : List PortEvent) (d : Data64) : (s.completed evs d).errCmd = s.errCmd := rfl
@[simp] theorem State.completed_host (s : State) (evs : List PortEvent) (d : Data64) : (s.completed evs d).host = s.host := rfl
@[simp] theorem State.completed_out (s : State) (evs : List PortEvent) (d : Data64) : (s.completed evs d).out = s.out ++ evs ++ [.rsp ⟨.ok, d⟩] := rfl
@[simp] theorem State.completed_draws (s : State) (evs : List PortEvent) (d : Data64) : (s.completed evs d).draws = s.draws := rfl
@[simp] theorem State.completed_ftAt (s : State) (evs : List PortEvent) (d : Data64) (i : Nat) : (s.completed evs d).ftAt i = s.ftAt i := rfl
@[simp] theorem State.completed_tmAt (s : State) (evs : List PortEvent) (d : Data64) (i : Nat) : (s.completed evs d).tmAt i = s.tmAt i := rfl
@[simp] theorem State.completed_ctAt (s : State) (evs : List PortEvent) (d : Data64) (i : Nat) : (s.completed evs d).ctAt i = s.ctAt i := rfl
@[simp] theorem State.completed_tmGet (s : State) (evs : List PortEvent) (d : Data64) (i : NodeIdx) : (s.completed evs d).tmGet i = s.tmGet i := rfl
@[simp] theorem State.completed_present (s : State) (evs : List PortEvent) (d : Data64) : (s.completed evs d).present = s.present := rfl

/-! ### afterFault -/

@[simp] theorem State.afterFault_ft (s : State) (k : Rstat) (w : Cmd64) : (s.afterFault k w).ft = s.ft := rfl
@[simp] theorem State.afterFault_tm (s : State) (k : Rstat) (w : Cmd64) : (s.afterFault k w).tm = s.tm := rfl
@[simp] theorem State.afterFault_nn (s : State) (k : Rstat) (w : Cmd64) : (s.afterFault k w).nn = s.nn := rfl
@[simp] theorem State.afterFault_root (s : State) (k : Rstat) (w : Cmd64) : (s.afterFault k w).root = s.root := rfl
@[simp] theorem State.afterFault_nleaf (s : State) (k : Rstat) (w : Cmd64) : (s.afterFault k w).nleaf = s.nleaf := rfl
@[simp] theorem State.afterFault_ct (s : State) (k : Rstat) (w : Cmd64) : (s.afterFault k w).ct = s.ct := rfl
@[simp] theorem State.afterFault_encSt (s : State) (k : Rstat) (w : Cmd64) : (s.afterFault k w).encSt = s.encSt := rfl
@[simp] theorem State.afterFault_encAcc (s : State) (k : Rstat) (w : Cmd64) : (s.afterFault k w).encAcc = s.encAcc := rfl
@[simp] theorem State.afterFault_encCnt (s : State) (k : Rstat) (w : Cmd64) : (s.afterFault k w).encCnt = s.encCnt := rfl
@[simp] theorem State.afterFault_decSt (s : State) (k : Rstat) (w : Cmd64) : (s.afterFault k w).decSt = s.decSt := rfl
@[simp] theorem State.afterFault_decCur (s : State) (k : Rstat) (w : Cmd64) : (s.afterFault k w).decCur = s.decCur := rfl
@[simp] theorem State.afterFault_errCode (s : State) (k : Rstat) (w : Cmd64) : (s.afterFault k w).errCode = if s.errCode = .ok then k else s.errCode := rfl
@[simp] theorem State.afterFault_errCmd (s : State) (k : Rstat) (w : Cmd64) : (s.afterFault k w).errCmd = if s.errCode = .ok then w else s.errCmd := rfl
@[simp] theorem State.afterFault_host (s : State) (k : Rstat) (w : Cmd64) : (s.afterFault k w).host = s.host := rfl
@[simp] theorem State.afterFault_out (s : State) (k : Rstat) (w : Cmd64) : (s.afterFault k w).out = s.out ++ [.rsp ⟨k, 0⟩] := rfl
@[simp] theorem State.afterFault_draws (s : State) (k : Rstat) (w : Cmd64) : (s.afterFault k w).draws = s.draws := rfl
@[simp] theorem State.afterFault_ftAt (s : State) (k : Rstat) (w : Cmd64) (i : Nat) : (s.afterFault k w).ftAt i = s.ftAt i := rfl
@[simp] theorem State.afterFault_tmAt (s : State) (k : Rstat) (w : Cmd64) (i : Nat) : (s.afterFault k w).tmAt i = s.tmAt i := rfl
@[simp] theorem State.afterFault_ctAt (s : State) (k : Rstat) (w : Cmd64) (i : Nat) : (s.afterFault k w).ctAt i = s.ctAt i := rfl
@[simp] theorem State.afterFault_tmGet (s : State) (k : Rstat) (w : Cmd64) (i : NodeIdx) : (s.afterFault k w).tmGet i = s.tmGet i := rfl
@[simp] theorem State.afterFault_present (s : State) (k : Rstat) (w : Cmd64) : (s.afterFault k w).present = s.present := rfl

/-! ### latch -/

/-- The latch changes ERR_CODE and ERR_CMD and nothing else, and those only when no fault is held (R33, R262). -/
theorem State.latch_eq (s : State) (k : Rstat) (w : Cmd64) :
    s.latch k w = { s with
      errCode := if s.errCode = .ok then k else s.errCode
      errCmd := if s.errCode = .ok then w else s.errCmd } := by
  unfold State.latch
  split <;> rfl

@[simp] theorem State.latch_ft (s : State) (k : Rstat) (w : Cmd64) : (s.latch k w).ft = s.ft := by rw [State.latch_eq]
@[simp] theorem State.latch_tm (s : State) (k : Rstat) (w : Cmd64) : (s.latch k w).tm = s.tm := by rw [State.latch_eq]
@[simp] theorem State.latch_nn (s : State) (k : Rstat) (w : Cmd64) : (s.latch k w).nn = s.nn := by rw [State.latch_eq]
@[simp] theorem State.latch_root (s : State) (k : Rstat) (w : Cmd64) : (s.latch k w).root = s.root := by rw [State.latch_eq]
@[simp] theorem State.latch_nleaf (s : State) (k : Rstat) (w : Cmd64) : (s.latch k w).nleaf = s.nleaf := by rw [State.latch_eq]
@[simp] theorem State.latch_ct (s : State) (k : Rstat) (w : Cmd64) : (s.latch k w).ct = s.ct := by rw [State.latch_eq]
@[simp] theorem State.latch_encSt (s : State) (k : Rstat) (w : Cmd64) : (s.latch k w).encSt = s.encSt := by rw [State.latch_eq]
@[simp] theorem State.latch_encAcc (s : State) (k : Rstat) (w : Cmd64) : (s.latch k w).encAcc = s.encAcc := by rw [State.latch_eq]
@[simp] theorem State.latch_encCnt (s : State) (k : Rstat) (w : Cmd64) : (s.latch k w).encCnt = s.encCnt := by rw [State.latch_eq]
@[simp] theorem State.latch_decSt (s : State) (k : Rstat) (w : Cmd64) : (s.latch k w).decSt = s.decSt := by rw [State.latch_eq]
@[simp] theorem State.latch_decCur (s : State) (k : Rstat) (w : Cmd64) : (s.latch k w).decCur = s.decCur := by rw [State.latch_eq]
@[simp] theorem State.latch_errCode (s : State) (k : Rstat) (w : Cmd64) : (s.latch k w).errCode = if s.errCode = .ok then k else s.errCode := by rw [State.latch_eq]
@[simp] theorem State.latch_errCmd (s : State) (k : Rstat) (w : Cmd64) : (s.latch k w).errCmd = if s.errCode = .ok then w else s.errCmd := by rw [State.latch_eq]
@[simp] theorem State.latch_host (s : State) (k : Rstat) (w : Cmd64) : (s.latch k w).host = s.host := by rw [State.latch_eq]
@[simp] theorem State.latch_out (s : State) (k : Rstat) (w : Cmd64) : (s.latch k w).out = s.out := by rw [State.latch_eq]
@[simp] theorem State.latch_draws (s : State) (k : Rstat) (w : Cmd64) : (s.latch k w).draws = s.draws := by rw [State.latch_eq]

/-! ### The state after reset (R47) -/

@[simp] theorem State.reset_ft : State.reset.ft = [] := rfl
@[simp] theorem State.reset_tm : State.reset.tm = [] := rfl
@[simp] theorem State.reset_nn : State.reset.nn = 0 := rfl
@[simp] theorem State.reset_root : State.reset.root = 0 := rfl
@[simp] theorem State.reset_nleaf : State.reset.nleaf = 0 := rfl
@[simp] theorem State.reset_ct : State.reset.ct = [] := rfl
@[simp] theorem State.reset_encSt : State.reset.encSt = .idle := rfl
@[simp] theorem State.reset_encAcc : State.reset.encAcc = 0 := rfl
@[simp] theorem State.reset_encCnt : State.reset.encCnt = 0 := rfl
@[simp] theorem State.reset_decSt : State.reset.decSt = .idle := rfl
@[simp] theorem State.reset_decCur : State.reset.decCur = 0 := rfl
@[simp] theorem State.reset_errCode : State.reset.errCode = .ok := rfl
@[simp] theorem State.reset_errCmd : State.reset.errCmd = 0 := rfl
@[simp] theorem State.reset_host : State.reset.host = [] := rfl
@[simp] theorem State.reset_out : State.reset.out = [] := rfl
@[simp] theorem State.reset_draws : State.reset.draws = 0 := rfl

/-- Two states with equal fields are equal. -/
theorem State.ext_fields (s t : State) (hft : s.ft = t.ft) (htm : s.tm = t.tm) (hnn : s.nn = t.nn) (hroot : s.root = t.root)
    (hnleaf : s.nleaf = t.nleaf) (hct : s.ct = t.ct) (hes : s.encSt = t.encSt) (hea : s.encAcc = t.encAcc)
    (hec : s.encCnt = t.encCnt) (hds : s.decSt = t.decSt) (hdc : s.decCur = t.decCur) (hcode : s.errCode = t.errCode)
    (hcmd : s.errCmd = t.errCmd) (hhost : s.host = t.host) (hout : s.out = t.out) (hdraws : s.draws = t.draws) : s = t := by
  cases s
  cases t
  simp_all

end Sys2Proof.Machine
end

