-- ==== Sys2Proof/Laws/Ops.lean ====
section
/-! SUPPORT. What the shared endings of a command, the decoding of a word and the host's actions can do, each said once. -/

namespace Sys2Proof.Machine

/-! ### Ending a command -/

/-- `respond` completes the command: nothing but the response is added. -/
theorem respond_eq (d : Data64) (s : State) : respond d s = .next (s.completed [] d) := by
  simp [respond, State.emit, State.completed]

/-- Fault entry is the state of `State.afterFault` (R262). -/
theorem raise_eq (k : Rstat) (w : Cmd64) (s : State) : raise k w s = .next (s.afterFault k w) := by
  rw [raise, State.latch_eq]
  rfl

theorem respond_next {d : Data64} {s t : State} : respond d s = .next t ↔ t = s.completed [] d := by
  rw [respond_eq, Host.Outcome.next.injEq, eq_comm]

theorem raise_next {k : Rstat} {w : Cmd64} {s t : State} : raise k w s = .next t ↔ t = s.afterFault k w := by
  rw [raise_eq, Host.Outcome.next.injEq, eq_comm]

/-- A command that is not FAULTED runs its own checks. -/
theorem unlessFaulted_ok {i : Instr} {s : State} {body : Answer} (h : s.errCode = .ok) :
    unlessFaulted i s body = body := by
  simp [unlessFaulted, h]

/-- A command refused in FAULTED (R264). -/
theorem unlessFaulted_faulted {i : Instr} {s : State} {body : Answer} (h : s.errCode ≠ .ok) :
    unlessFaulted i s body = .next (s.afterFault .eFaulted (encode i)) := by
  simp [unlessFaulted, h, raise_eq]

/-- The two ways through the FAULTED check. -/
theorem unlessFaulted_next {i : Instr} {s t : State} {body : Answer} (h : unlessFaulted i s body = .next t) :
    (s.errCode = .ok ∧ body = .next t) ∨ (s.errCode ≠ .ok ∧ t = s.afterFault .eFaulted (encode i)) := by
  by_cases hf : s.errCode = .ok
  · exact .inl ⟨hf, by rwa [unlessFaulted_ok hf] at h⟩
  · rw [unlessFaulted_faulted hf, Host.Outcome.next.injEq] at h
    exact .inr ⟨hf, h.symm⟩

/-- A fault taken while FAULTED leaves the latch as it was (R262, R264). -/
theorem State.afterFault_of_faulted {s : State} {k : Rstat} {w : Cmd64} (h : s.errCode ≠ .ok) :
    s.afterFault k w = s.emit [.rsp ⟨k, 0⟩] := by
  simp [State.afterFault, State.emit, h]

/-! ### Reading TM -/

theorem State.tmGet_lt {s : State} {i : NodeIdx} (h : i.toNat < Config.nnode) : s.tmGet i = some (s.tmAt i.toNat) := by
  simp [State.tmGet, h]

theorem State.tmGet_eq_some {s : State} {i : NodeIdx} {n : NodeRec} :
    s.tmGet i = some n ↔ i.toNat < Config.nnode ∧ n = s.tmAt i.toNat := by
  unfold State.tmGet
  split <;> simp_all [eq_comm]

/-! ### Output ports -/

theorem filterMap_map_none {α β γ : Type} (f : α → β) (g : β → Option γ) (h : ∀ a, g (f a) = none) (l : List α) :
    (l.map f).filterMap g = [] := by
  simp [List.filterMap_map, h]

theorem filterMap_map_some {α β : Type} (f : α → β) (g : β → Option α) (h : ∀ a, g (f a) = some a) (l : List α) :
    (l.map f).filterMap g = l := by
  simp [List.filterMap_map, h]

/-- A command that completes adds its EOUT bytes to EOUT. -/
theorem State.eoutBytes_completed (s : State) (evs : List PortEvent) (d : Data64) :
    (s.completed evs d).eoutBytes = s.eoutBytes ++ evs.filterMap PortEvent.onEout := by
  simp [State.eoutBytes, PortEvent.onEout]

/-- A command that completes adds its DOUT bytes to DOUT. -/
theorem State.doutBytes_completed (s : State) (evs : List PortEvent) (d : Data64) :
    (s.completed evs d).doutBytes = s.doutBytes ++ evs.filterMap PortEvent.onDout := by
  simp [State.doutBytes, PortEvent.onDout]

@[simp] theorem onEout_eout (bytes : List Byte) : (bytes.map PortEvent.eout).filterMap PortEvent.onEout = bytes :=
  filterMap_map_some PortEvent.eout PortEvent.onEout (fun _ => rfl) _

@[simp] theorem onDout_eout (bytes : List Byte) : (bytes.map PortEvent.eout).filterMap PortEvent.onDout = [] :=
  filterMap_map_none PortEvent.eout PortEvent.onDout (fun _ => rfl) _

@[simp] theorem onEout_dout (bytes : List Byte) : (bytes.map PortEvent.dout).filterMap PortEvent.onEout = [] :=
  filterMap_map_none PortEvent.dout PortEvent.onEout (fun _ => rfl) _

@[simp] theorem onDout_dout (bytes : List Byte) : (bytes.map PortEvent.dout).filterMap PortEvent.onDout = bytes :=
  filterMap_map_some PortEvent.dout PortEvent.onDout (fun _ => rfl) _

@[simp] theorem onRsp_eout (bytes : List Byte) : (bytes.map PortEvent.eout).filterMap PortEvent.onRsp = [] :=
  filterMap_map_none PortEvent.eout PortEvent.onRsp (fun _ => rfl) _

@[simp] theorem onRsp_dout (bytes : List Byte) : (bytes.map PortEvent.dout).filterMap PortEvent.onRsp = [] :=
  filterMap_map_none PortEvent.dout PortEvent.onRsp (fun _ => rfl) _

/-! ### The host's actions -/

theorem present_of_decode {w : Cmd64} {i : Instr} (h : decode w = .instr i) (s : State) : present w s = exec i s := by
  simp [present, h]

theorem present_of_rejected {w : Cmd64} {r : Reject} (h : decode w = .rejected r) (s : State) :
    present w s = .next (s.afterFault .eIllegal w) := by
  simp [present, h, raise_eq]

/-- What a step can do: nothing while the host does nothing, else the host's next action on the state without it. -/
theorem step_cases (s : State) :
    (s.host = [] ∧ step s = .next s) ∨ ∃ e rest, s.host = e :: rest ∧ step s = hostAct e (s.setHost rest) := by
  unfold step
  cases h : s.host with
  | nil => exact .inl ⟨rfl, rfl⟩
  | cons e rest => exact .inr ⟨e, rest, rfl, rfl⟩

/-- A reset that cuts a command short leaves the reset state, with some of the command's bytes on the ports (R301). -/
theorem presentCutByReset_next {w : Cmd64} {s t : State} (h : presentCutByReset w s = .next t) :
    ∃ u, present w s = .next u ∧
      t = { s.cleared with
        out := s.out ++ (bytesOf (u.out.drop s.out.length)).take (Config.bytesBeforeReset s.draws)
        draws := s.draws + 1 } := by
  unfold presentCutByReset at h
  split at h
  · next u hu =>
    simp only [Host.Outcome.next.injEq] at h
    exact ⟨u, hu, h.symm⟩
  · cases h
  · cases h

end Sys2Proof.Machine
end

