-- ==== Sys2Proof/Laws/Decoder.lean ====
section
/-! SUPPORT. The decoder's walk (R211, R214): what one bit and a list of bits can do. -/

namespace Sys2Proof.Machine

/-- The child a bit selects: the left one on 0, the right one on 1 (R145). -/
def NodeRec.child (n : NodeRec) (b : Bool) : Option NodeIdx := if b then n.right else n.left

/-- One bit moves exactly when the cursor's record and the child it selects exist, and then arrives at that child. -/
theorem decStep_moved {s : State} {w w' : Walker} {b : Bool} :
    decStep s w b = .moved w' ↔
      w.cur.toNat < Config.nnode ∧
        ∃ c, (s.tmAt w.cur.toNat).child b = some c ∧ c.toNat < Config.nnode ∧ w' = arrive s w c (s.tmAt c.toNat) := by
  unfold decStep State.tmGet
  by_cases h : w.cur.toNat < Config.nnode
  · simp only [h, if_true, true_and, NodeRec.child]
    cases hc : (if b then (s.tmAt w.cur.toNat).right else (s.tmAt w.cur.toNat).left) with
    | none => simp
    | some c =>
      by_cases hlt : c.toNat < Config.nnode
      · simp [hlt, eq_comm]
      · simp [hlt]
  · simp [h]

/-- One bit faults exactly when the child it selects is absent (R218). -/
theorem decStep_noChild {s : State} {w : Walker} {b : Bool} :
    decStep s w b = .noChild ↔ w.cur.toNat < Config.nnode ∧ (s.tmAt w.cur.toNat).child b = none := by
  unfold decStep State.tmGet
  by_cases h : w.cur.toNat < Config.nnode
  · simp only [h, if_true, true_and, NodeRec.child]
    cases hc : (if b then (s.tmAt w.cur.toNat).right else (s.tmAt w.cur.toNat).left) with
    | none => simp
    | some c =>
      by_cases hlt : c.toNat < Config.nnode <;> simp [hlt]
  · simp [h]

/-- The walk reads TM and ROOT and nothing else of the state. -/
theorem decStep_congr {s t : State} (htm : s.tm = t.tm) (hroot : s.root = t.root) (w : Walker) (b : Bool) :
    decStep s w b = decStep t w b := by
  simp only [decStep, State.tmGet, State.tmAt, arrive, htm, hroot]

theorem feedBits_congr {s t : State} (htm : s.tm = t.tm) (hroot : s.root = t.root) (bits : List Bool) (w : Walker)
    (used : Nat) : feedBits s bits w used = feedBits t bits w used := by
  induction bits generalizing w used with
  | nil => rfl
  | cons b rest ih =>
    simp only [feedBits, decStep_congr htm hroot, ih]

/-- Feeding two runs of bits is feeding the first and then the second. -/
theorem feedBits_append (s : State) (a b : List Bool) (w : Walker) (used : Nat) :
    feedBits s (a ++ b) w used =
      match feedBits s a w used with
      | .finished w' used' => feedBits s b w' used'
      | .noChild w' => .noChild w'
      | .absent index => .absent index := by
  induction a generalizing w used with
  | nil => rfl
  | cons x rest ih =>
    simp only [List.cons_append, feedBits]
    by_cases hrun : w.st = .run
    · simp only [if_pos hrun]
      cases decStep s w x with
      | moved w' => exact ih w' (used + 1)
      | noChild => rfl
      | absent index => rfl
    · simp only [if_neg hrun]
      cases b with
      | nil => rfl
      | cons y ys => simp [feedBits, hrun]

/-- After a stop, bits are not consumed (R213, R214). -/
theorem feedBits_stopped {s : State} {w : Walker} (h : w.st ≠ .run) (bits : List Bool) (used : Nat) :
    feedBits s bits w used = .finished w used := by
  cases bits with
  | nil => rfl
  | cons b rest => simp [feedBits, h]

/-- The bytes a walker held stay in front of those it decodes. -/
theorem arrive_bytes (s : State) (w : Walker) (c : NodeIdx) (m : NodeRec) :
    ∃ more, (arrive s w c m).bytes = w.bytes ++ more := by
  unfold arrive
  split
  · split
    · exact ⟨[], by simp⟩
    · exact ⟨_, rfl⟩
  · exact ⟨[], by simp⟩

/-- One bit decodes the same byte, if any, whatever bytes were decoded before it. -/
theorem arrive_bytes_eq (s : State) (st : DecSt) (cur : NodeIdx) (bytes : List Byte) (c : NodeIdx) (m : NodeRec) :
    arrive s ⟨st, cur, bytes⟩ c m =
      { arrive s ⟨st, cur, []⟩ c m with bytes := bytes ++ (arrive s ⟨st, cur, []⟩ c m).bytes } := by
  unfold arrive
  split
  · split <;> simp
  · simp

end Sys2Proof.Machine
end

