-- ==== Sys2Proof/Laws/Encoder.lean ====
section
/-! SUPPORT. The bit-packing register (R31, R191): what pushing a bit, pushing a code and flushing do to the bits packed
so far. -/

namespace Sys2Proof.Machine

/-- R31: the bits of the accumulator below the packed ones are 0. -/
def Packer.clean (p : Packer) : Prop := ∀ j, j < 8 - p.cnt.toNat → p.acc.getLsbD j = false

/-- All bits packed in the command so far, earliest first: the completed bytes, then the top ENC_CNT bits. -/
def Packer.bits (p : Packer) : List Bool := payloadBits p.bytes ++ (byteBits p.acc).take p.cnt.toNat

@[simp] theorem byteBits_length (d : Byte) : (byteBits d).length = 8 := rfl

@[simp] theorem payloadBits_nil : payloadBits [] = [] := rfl

theorem payloadBits_append (a b : List Byte) : payloadBits (a ++ b) = payloadBits a ++ payloadBits b := by
  simp [payloadBits]

theorem payloadBits_length (bytes : List Byte) : (payloadBits bytes).length = 8 * bytes.length := by
  induction bytes with
  | nil => rfl
  | cons b rest ih =>
    simp only [payloadBits, List.flatMap_cons, List.length_append, byteBits_length, List.length_cons] at ih ⊢
    omega

/-- The byte that the accumulator becomes when a bit is pushed, before the count is looked at. -/
theorem byteBits_push (acc : BitVec 8) (cnt : BitVec 3) (b : Bool)
    (h : ∀ j, j < 8 - cnt.toNat → acc.getLsbD j = false) :
    (byteBits (acc ||| (BitVec.ofBool b).setWidth 8 <<< (7 - cnt.toNat))).take (cnt.toNat + 1) =
      (byteBits acc).take cnt.toNat ++ [b] := by
  have hc : cnt.toNat < 8 := cnt.isLt
  have hl : ∀ j (hj : j < 8), j < 8 - cnt.toNat → acc[j] = false := fun j hj hlt => by
    rw [← BitVec.getLsbD_eq_getElem]
    exact h j hlt
  generalize cnt.toNat = n at *
  interval_cases n <;> simp [byteBits, hl]

theorem lowBits_push (acc : BitVec 8) (cnt : BitVec 3) (b : Bool)
    (h : ∀ j, j < 8 - cnt.toNat → acc.getLsbD j = false) (j : Nat) (hj : j < 7 - cnt.toNat) :
    (acc ||| (BitVec.ofBool b).setWidth 8 <<< (7 - cnt.toNat)).getLsbD j = false := by
  simp [h j (by omega), hj]

/-- Pushing one bit appends it to the bits packed so far. -/
theorem push_bits (p : Packer) (b : Bool) (h : p.clean) : (push p b).bits = p.bits ++ [b] ∧ (push p b).clean := by
  have hb := byteBits_push p.acc p.cnt b h
  unfold push
  by_cases hc : p.cnt = 7
  · rw [if_pos hc]
    constructor
    · rw [hc] at hb
      simp only [Packer.bits, payloadBits_append, hc]
      rw [show (0 : BitVec 3).toNat = 0 from rfl, List.take_zero, List.append_nil, List.append_assoc]
      exact congrArg (payloadBits p.bytes ++ ·) hb
    · intro j _
      simp
  · rw [if_neg hc]
    have hlt : p.cnt.toNat < 7 := by
      have := p.cnt.isLt
      rcases Nat.lt_or_ge p.cnt.toNat 7 with h7 | h7
      · exact h7
      · exact absurd (BitVec.eq_of_toNat_eq (show p.cnt.toNat = (7 : BitVec 3).toNat by simp; omega)) hc
    have hadd : (p.cnt + 1).toNat = p.cnt.toNat + 1 := by
      rw [BitVec.toNat_add]
      simp
      omega
    constructor
    · simp only [Packer.bits, hadd, hb, List.append_assoc]
    · intro j hj
      rw [hadd] at hj
      exact lowBits_push p.acc p.cnt b h j (by omega)

/-- Pushing a code appends its bits, first bit first. -/
theorem pushCode_bits (code : List Bool) (p : Packer) (h : p.clean) :
    (pushCode p code).bits = p.bits ++ code ∧ (pushCode p code).clean := by
  induction code generalizing p with
  | nil => simpa [pushCode] using h
  | cons b rest ih =>
    obtain ⟨hb, hc⟩ := push_bits p b h
    obtain ⟨hb', hc'⟩ := ih (push p b) hc
    refine ⟨?_, hc'⟩
    rw [show pushCode p (b :: rest) = pushCode (push p b) rest from rfl, hb', hb]
    simp

/-- The number of packed bits. -/
theorem Packer.bits_length (p : Packer) : p.bits.length = 8 * p.bytes.length + p.cnt.toNat := by
  have := p.cnt.isLt
  simp only [Packer.bits, List.length_append, payloadBits_length, List.length_take, byteBits_length]
  omega

/-- Flushing appends zeros, as many as the last byte lacks, and leaves the registers 0. -/
theorem flush_bits (p : Packer) (h : p.clean) :
    payloadBits (flush p).bytes = p.bits ++ List.replicate ((8 - p.cnt.toNat) % 8) false ∧
      (flush p).cnt = 0 ∧ (p.cnt = 0 → (flush p).acc = p.acc) ∧ (p.cnt ≠ 0 → (flush p).acc = 0) := by
  unfold flush
  by_cases hc : p.cnt = 0
  · simp [hc, Packer.bits]
  · rw [if_neg hc]
    refine ⟨?_, rfl, fun h0 => absurd h0 hc, fun _ => rfl⟩
    rw [payloadBits_append, Packer.bits, List.append_assoc]
    congr 1
    have hlt := p.cnt.isLt
    have hpos : 0 < p.cnt.toNat := by
      rcases Nat.eq_zero_or_pos p.cnt.toNat with h0 | h0
      · exact absurd (BitVec.eq_of_toNat_eq (show p.cnt.toNat = (0 : BitVec 3).toNat by simpa using h0)) hc
      · exact h0
    have hl : ∀ j (hj : j < 8), j < 8 - p.cnt.toNat → p.acc[j] = false := fun j hj hlt => by
      rw [← BitVec.getLsbD_eq_getElem]
      exact h j hlt
    generalize p.cnt.toNat = n at *
    interval_cases n <;> simp [payloadBits, byteBits, hl, List.replicate]

end Sys2Proof.Machine
end

