-- ==== Sys2Proof/Laws/Encoding.lean ====
section
/-! SUPPORT. Fields placed in a word and read back (R91): what `placeField` does under a mask and under a field read. -/

namespace Sys2Proof

variable {n m : Nat}

/-- The bits of a placed field. -/
theorem getLsbD_placeField (v : BitVec n) (lo i : Nat) :
    (placeField v lo).getLsbD i = (decide (i < 64) && decide (lo ≤ i) && v.getLsbD (i - lo)) := by
  unfold placeField
  rw [BitVec.getLsbD_shiftLeft, BitVec.getLsbD_setWidth]
  by_cases h1 : i < 64
  · by_cases h2 : lo ≤ i
    · simp [h1, h2, show i - lo < 64 by omega]
    · simp [h1, h2, show i < lo by omega]
  · simp [h1]

/-- A field read at its own place gives the value placed there. -/
theorem extract_placeField_same (v : BitVec n) (lo : Nat) (h : lo + n ≤ 64) :
    (placeField v lo).extractLsb' lo n = v := by
  apply BitVec.eq_of_getLsbD_eq
  intro i hi
  rw [BitVec.getLsbD_extractLsb', getLsbD_placeField]
  simp [hi, show lo + i < 64 by omega]

/-- A field read at another place sees nothing of it. -/
theorem extract_placeField_other (v : BitVec n) (lo lo' : Nat) (h : lo + n ≤ lo' ∨ lo' + m ≤ lo) :
    (placeField v lo).extractLsb' lo' m = 0 := by
  apply BitVec.eq_of_getLsbD_eq
  intro i hi
  rw [BitVec.getLsbD_extractLsb', getLsbD_placeField]
  rcases h with h | h
  · simp [BitVec.getLsbD_of_ge v (lo' + i - lo) (by omega)]
  · simp [show ¬ lo ≤ lo' + i by omega]

/-- A mask with zeros at the place of a field removes the field. -/
theorem placeField_and_mask (v : BitVec n) (lo : Nat) (mask : Cmd64) (h : mask.extractLsb' lo n = 0) :
    placeField v lo &&& mask = 0 := by
  apply BitVec.eq_of_getLsbD_eq
  intro i hi
  rw [BitVec.getLsbD_and, getLsbD_placeField]
  by_cases hlo : lo ≤ i
  · by_cases hn : i - lo < n
    · have hb := congrArg (fun w => BitVec.getLsbD w (i - lo)) h
      simp only [BitVec.getLsbD_extractLsb', hn, decide_true, Bool.true_and, show lo + (i - lo) = i by omega] at hb
      simp [hb]
    · simp [BitVec.getLsbD_of_ge v (i - lo) (by omega)]
  · simp [hlo]

/-- A mask goes through the union of fields. -/
theorem or_and_mask (a b mask : Cmd64) : (a ||| b) &&& mask = (a &&& mask) ||| (b &&& mask) := by
  apply BitVec.eq_of_getLsbD_eq
  intro i _
  simp [Bool.and_or_distrib_right]

end Sys2Proof
end

