-- ==== Sys2Proof/Laws/PerInstr.lean ====
section
/-! SUPPORT. One family of facts about every command as syntax: its encoding agrees with a row of the opcode map. -/

namespace Sys2Proof

/-- The format of a command (R94). -/
def Instr.format : Instr → Format
  | .nop => .z
  | .clear => .z
  | .rdReg _ => .r
  | .ftSet _ _ => .sc
  | .ftRead _ => .s
  | .fcByte _ => .d
  | .fcEnd => .z
  | .build => .z
  | .tmRead _ _ => .xs
  | .derive => .z
  | .ctRead _ _ => .ss
  | .encStart => .z
  | .encSym _ => .d
  | .encEnd => .z
  | .decStart => .z
  | .decBit _ => .b
  | .decByte _ => .d
  | .decEnd => .z

namespace Laws.EncodingFitsRow

/-- The fixed bits of an encoding are those of its row: opcode in place, every must-be-zero bit 0 (R91, R92). -/
def Statement (i : Instr) : Prop := encode i &&& i.format.mask = placeField i.opcode 56

theorem nop : Statement .nop := rfl
theorem clear : Statement .clear := rfl
theorem fcEnd : Statement .fcEnd := rfl
theorem build : Statement .build := rfl
theorem derive : Statement .derive := rfl
theorem encStart : Statement .encStart := rfl
theorem encEnd : Statement .encEnd := rfl
theorem decStart : Statement .decStart := rfl
theorem decEnd : Statement .decEnd := rfl

/-- One field: it is placed where the mask is 0. -/
theorem of_one_field {n : Nat} (v : BitVec n) (lo : Nat) (op : BitVec 8) (mask : Cmd64)
    (hop : placeField op 56 &&& mask = placeField op 56) (h : mask.extractLsb' lo n = 0) :
    (placeField op 56 ||| placeField v lo) &&& mask = placeField op 56 := by
  rw [or_and_mask, placeField_and_mask v lo mask h, hop]
  simp

theorem of_two_fields {n m : Nat} (v : BitVec n) (u : BitVec m) (lo lo' : Nat) (op : BitVec 8) (mask : Cmd64)
    (hop : placeField op 56 &&& mask = placeField op 56) (h : mask.extractLsb' lo n = 0)
    (h' : mask.extractLsb' lo' m = 0) :
    (placeField op 56 ||| (placeField v lo ||| placeField u lo')) &&& mask = placeField op 56 := by
  rw [or_and_mask, or_and_mask, placeField_and_mask v lo mask h,
    placeField_and_mask u lo' mask h', hop]
  simp

theorem rdReg (r : BitVec 4) : Statement (.rdReg r) := of_one_field r 0 0x03 Format.r.mask (by decide) (by decide)
theorem ftRead (sym : SymCode) : Statement (.ftRead sym) := of_one_field sym 32 0x11 Format.s.mask (by decide) (by decide)
theorem fcByte (d : Byte) : Statement (.fcByte d) := of_one_field d 0 0x12 Format.d.mask (by decide) (by decide)
theorem encSym (d : Byte) : Statement (.encSym d) := of_one_field d 0 0x41 Format.d.mask (by decide) (by decide)
theorem decByte (d : Byte) : Statement (.decByte d) := of_one_field d 0 0x52 Format.d.mask (by decide) (by decide)
theorem decBit (b : Bool) : Statement (.decBit b) := of_one_field (BitVec.ofBool b) 0 0x51 Format.b.mask (by decide) (by decide)
theorem ftSet (sym : SymCode) (count : Count) : Statement (.ftSet sym count) :=
  of_two_fields sym count 32 0 0x10 Format.sc.mask (by decide) (by decide) (by decide)
theorem tmRead (idx : NodeIdx) (sel2 : BitVec 2) : Statement (.tmRead idx sel2) :=
  of_two_fields idx sel2 32 0 0x21 Format.xs.mask (by decide) (by decide) (by decide)
theorem ctRead (sym : SymCode) (sel4 : BitVec 4) : Statement (.ctRead sym sel4) :=
  of_two_fields sym sel4 32 0 0x31 Format.ss.mask (by decide) (by decide) (by decide)

end Laws.EncodingFitsRow
end Sys2Proof
end

