-- ==== Sys2Proof/Laws/Tree.lean ====
section
/-! SUPPORT. The Tree Builder (R141, R142): the present symbols, the first of the live nodes, and how many records a tree
has. -/

namespace Sys2Proof.Machine

/-! ### The present symbols -/

theorem State.mem_present (s : State) (k : Nat) : k ∈ s.present ↔ k < Config.nsym ∧ s.ftAt k ≠ 0 := by
  simp [State.present]

/-- The present symbols stand in ascending order (R22). -/
theorem State.present_sorted (s : State) : s.present.Pairwise (· < ·) :=
  List.Pairwise.filter _ List.pairwise_lt_range

theorem State.present_nodup (s : State) : s.present.Nodup := s.present_sorted.imp (fun h => Nat.ne_of_lt h)

theorem State.present_length_le (s : State) : s.present.length ≤ Config.nsym := by
  have := List.length_filter_le (fun k => decide (s.ftAt k ≠ 0)) (List.range Config.nsym)
  simpa [State.present] using this

@[simp] theorem State.leaves_length (s : State) : s.leaves.length = s.present.length := by simp [State.leaves]

/-! ### The priority order -/

/-- The order of R142 on two indices, as a proposition. -/
theorem comesBefore_iff (nodes : List NodeRec) (i j : Nat) :
    comesBefore nodes i j = true ↔
      (weightAt nodes i).toNat < (weightAt nodes j).toNat ∨
        ((weightAt nodes i).toNat = (weightAt nodes j).toNat ∧ i < j) := by
  simp [comesBefore, BitVec.lt_def, ← BitVec.toNat_inj]

theorem comesBefore_irrefl (nodes : List NodeRec) (i : Nat) : comesBefore nodes i i = false := by
  rw [← Bool.not_eq_true, comesBefore_iff]
  omega

theorem comesBefore_trans {nodes : List NodeRec} {i j k : Nat} (hij : comesBefore nodes i j = true)
    (hjk : comesBefore nodes j k = true) : comesBefore nodes i k = true := by
  rw [comesBefore_iff] at *
  omega

/-- The order is total: no two different indices are without order (R142). -/
theorem comesBefore_total {nodes : List NodeRec} {i j : Nat} (h : i ≠ j) :
    comesBefore nodes i j = true ∨ comesBefore nodes j i = true := by
  simp only [comesBefore_iff]
  omega

/-- The first live node is one of them. -/
theorem firstLive_mem (nodes : List NodeRec) (i : Nat) (live : List Nat) : firstLive nodes i live ∈ i :: live := by
  induction live generalizing i with
  | nil => simp [firstLive]
  | cons j rest ih =>
    unfold firstLive
    split
    · exact List.mem_cons_of_mem _ (ih j)
    · have := ih i
      rw [List.mem_cons] at this ⊢
      rcases this with h | h
      · exact .inl h
      · exact .inr (List.mem_cons_of_mem _ h)

/-- The first live node comes before every other one. -/
theorem firstLive_before (nodes : List NodeRec) (i : Nat) (live : List Nat) :
    ∀ j ∈ i :: live, j ≠ firstLive nodes i live → comesBefore nodes (firstLive nodes i live) j = true := by
  induction live generalizing i with
  | nil =>
    intro j hj hne
    simp [firstLive] at hj hne
    exact absurd hj hne
  | cons k rest ih =>
    intro j hj hne
    unfold firstLive at hne ⊢
    split
    · next hki =>
      rw [if_pos hki] at hne
      rcases List.mem_cons.1 hj with rfl | hj
      · by_cases hk : k = firstLive nodes k rest
        · rw [← hk]
          exact hki
        · exact comesBefore_trans (ih k k (by simp) hk) hki
      · exact ih k j hj hne
    · next hki =>
      rw [if_neg hki] at hne
      rcases List.mem_cons.1 hj with rfl | hj
      · exact ih j j (by simp) hne
      · rcases List.mem_cons.1 hj with rfl | hj
        · by_cases hji : j = i
          · subst hji
            exact ih j j (by simp) hne
          · have hij : comesBefore nodes i j = true := by
              rcases comesBefore_total (nodes := nodes) (Ne.symm hji) with h | h
              · exact h
              · exact absurd h hki
            by_cases hi : i = firstLive nodes i rest
            · rw [← hi]
              exact hij
            · exact comesBefore_trans (ih i i (by simp) hi) hij
        · exact ih i j (List.mem_cons_of_mem _ hj) hne

/-! ### How many records -/

/-- One pass of the merge loop on at least two live nodes: both removed nodes are live and different, the second is the
first of those left, and LIVE gets one shorter. -/
theorem mergeLoop_pass (fuel : Nat) (nodes : List NodeRec) (i j : Nat) (live : List Nat) :
    ∃ k rest, (i :: j :: live).erase (firstLive nodes i (j :: live)) = k :: rest ∧
      mergeLoop (fuel + 1) nodes (i :: j :: live) =
        mergeLoop fuel (nodes ++ [mergeNode nodes (firstLive nodes i (j :: live)) (firstLive nodes k rest)])
          ((k :: rest).erase (firstLive nodes k rest) ++ [nodes.length]) ∧
      ((k :: rest).erase (firstLive nodes k rest) ++ [nodes.length]).length = (i :: j :: live).length - 1 := by
  have hmem := firstLive_mem nodes i (j :: live)
  have hlen := List.length_erase_of_mem hmem
  cases he : (i :: j :: live).erase (firstLive nodes i (j :: live)) with
  | nil =>
    rw [he] at hlen
    simp at hlen
  | cons k rest =>
    refine ⟨k, rest, rfl, ?_, ?_⟩
    · rw [mergeLoop]
      simp only [he]
    · rw [he] at hlen
      rw [List.length_append, List.length_erase_of_mem (firstLive_mem nodes k rest)]
      simp only [List.length_cons, List.length_nil] at hlen ⊢
      omega

theorem mergeLoop_length (fuel : Nat) (nodes : List NodeRec) (live : List Nat) (h : live.length ≤ fuel) :
    (mergeLoop fuel nodes live).length = nodes.length + (live.length - 1) := by
  induction fuel generalizing nodes live with
  | zero =>
    have : live = [] := List.length_eq_zero_iff.1 (by omega)
    simp [this, mergeLoop]
  | succ fuel ih =>
    match live with
    | [] => simp [mergeLoop]
    | [_] => simp [mergeLoop]
    | i :: j :: live =>
      obtain ⟨k, rest, _, heq, hlen⟩ := mergeLoop_pass fuel nodes i j live
      rw [heq, ih _ _ (by rw [hlen]; simp at h ⊢; omega), hlen]
      simp
      omega

/-- R149: 2n - 1 records for n ≥ 2 leaves, 2 for one leaf. -/
theorem treeOfLeaves_length (leaves : List NodeRec) :
    (treeOfLeaves leaves).length =
      if leaves.length = 0 then 0 else if leaves.length = 1 then 2 else 2 * leaves.length - 1 := by
  match leaves with
  | [] => rfl
  | [_] => rfl
  | a :: b :: rest =>
    rw [show treeOfLeaves (a :: b :: rest) =
      mergeLoop (a :: b :: rest).length (a :: b :: rest) (List.range (a :: b :: rest).length) from rfl,
      mergeLoop_length _ _ _ (by simp)]
    simp
    omega

/-- A tree built from FT fits TM. -/
theorem treeOfLeaves_length_le (s : State) : (treeOfLeaves s.leaves).length ≤ Config.nnode := by
  have := s.present_length_le
  rw [treeOfLeaves_length, State.leaves_length]
  simp only [Config.nsym, Config.nnode] at *
  split_ifs <;> omega

end Sys2Proof.Machine
end

