-- ==== Sys2Proof/Machine/Assembler.lean ====
section
/-! DEFINITION. The assembler notation of rule R100 and the pseudo-commands of rule R101: one line of text to the commands it
stands for. It is the host's notation for command words; no step uses it. -/

namespace Sys2Proof.Machine

/-! ### Pseudo-commands -/

/-- The pseudo-commands of R101. -/
inductive Pseudo where
  | fcStr (text : List Byte)
  | encStr (text : List Byte)
  | decBytes (bytes : List Byte)
  | prepare
deriving DecidableEq, Repr

/-- The commands a pseudo-command expands to (R101). -/
def expandPseudo : Pseudo → List Instr
  | .fcStr text => text.map .fcByte
  | .encStr text => text.map .encSym
  | .decBytes bytes => bytes.map .decByte
  | .prepare => [.build, .derive]

/-! ### Reading characters -/

/-- The value of a digit. -/
def digitValue (c : Char) : Option Nat :=
  if '0'.toNat ≤ c.toNat ∧ c.toNat ≤ '9'.toNat then some (c.toNat - '0'.toNat)
  else if 'A'.toNat ≤ c.toNat ∧ c.toNat ≤ 'F'.toNat then some (c.toNat - 'A'.toNat + 10)
  else if 'a'.toNat ≤ c.toNat ∧ c.toNat ≤ 'f'.toNat then some (c.toNat - 'a'.toNat + 10)
  else none

/-- The digits of a number, most significant first, after the value `n` read so far. -/
def readDigits (base : Nat) : List Char → Nat → Option Nat
  | [], n => some n
  | c :: rest, n =>
    match digitValue c with
    | none => none
    | some v => if v < base then readDigits base rest (base * n + v) else none

/-- A number: decimal, or hexadecimal with 0x (R100). -/
def readNumber : List Char → Option Nat
  | [] => none
  | ['0', 'x'] => none
  | '0' :: 'x' :: digits => readDigits 16 digits 0
  | digits => readDigits 10 digits 0

/-- A `d` operand: a number, or a character in single quotes meaning its ASCII code (R100). -/
def readByteOperand : List Char → Option Nat
  | ['\'', c, '\''] => if c.toNat < 128 then some c.toNat else none
  | cs => readNumber cs

/-- A `sym` operand: as a `d` operand, or EOD (R100). -/
def readSymOperand : List Char → Option Nat
  | ['E', 'O', 'D'] => some 0x100
  | cs => readByteOperand cs

/-- A field value that fits its width. -/
def toField (n : Nat) (v : Option Nat) : Option (BitVec n) :=
  match v with
  | none => none
  | some v => if v < 2 ^ n then some (BitVec.ofNat n v) else none

/-! ### Splitting a line

A character between single quotes and a text between double quotes hold no comment sign, comma or quote of their own (log
entry 9). -/

/-- The line up to its comment (R100). -/
def cutComment (inText : Bool) : List Char → List Char
  | [] => []
  | '\'' :: c :: '\'' :: rest => '\'' :: c :: '\'' :: cutComment inText rest
  | '"' :: rest => '"' :: cutComment (!inText) rest
  | '#' :: rest => if inText then '#' :: cutComment inText rest else []
  | c :: rest => c :: cutComment inText rest

/-- Blank characters. -/
def isBlank (c : Char) : Bool := c == ' ' || c == '\t'

/-- Without blanks before and after. -/
def trimBlanks (cs : List Char) : List Char := ((cs.dropWhile isBlank).reverse.dropWhile isBlank).reverse

/-- The operands between commas; `cur` holds the characters of the current one, last first. -/
def splitOperands : List Char → List Char → List (List Char)
  | [], cur => [trimBlanks cur.reverse]
  | '\'' :: c :: '\'' :: rest, cur => splitOperands rest ('\'' :: c :: '\'' :: cur)
  | ',' :: rest, cur => trimBlanks cur.reverse :: splitOperands rest []
  | c :: rest, cur => splitOperands rest (c :: cur)

/-- The operands of a line; a line with nothing after its mnemonic has none. -/
def operandsOf (cs : List Char) : List (List Char) :=
  if trimBlanks cs = [] then [] else splitOperands (trimBlanks cs) []

/-- The bytes of a text in double quotes, each its ASCII code. -/
def readText (cs : List Char) : Option (List Byte) :=
  match trimBlanks cs with
  | '"' :: rest =>
    match rest.reverse with
    | '"' :: text =>
      if text.all (fun c => c != '"' && decide (c.toNat < 128)) then
        some (text.reverse.map (fun c => BitVec.ofNat 8 c.toNat))
      else none
    | _ => none
  | _ => none

/-! ### One line -/

/-- A list of operands, each read as a byte. -/
def readBytes : List (List Char) → Option (List Byte)
  | [] => some []
  | cs :: rest =>
    match toField 8 (readByteOperand cs), readBytes rest with
    | some b, some bs => some (b :: bs)
    | _, _ => none

/-- A command without operands. -/
def noOperands (i : Instr) (ops : List (List Char)) : Option Instr := if ops = [] then some i else none

/-- A command with one operand. -/
def oneOperand {n : Nat} (make : BitVec n → Instr) (read : List Char → Option Nat) (ops : List (List Char)) : Option Instr :=
  match ops with
  | [cs] => (toField n (read cs)).map make
  | _ => none

/-- A command with two operands. -/
def twoOperands {n m : Nat} (make : BitVec n → BitVec m → Instr) (read read' : List Char → Option Nat)
    (ops : List (List Char)) : Option Instr :=
  match ops with
  | [cs, cs'] =>
    match toField n (read cs), toField m (read' cs') with
    | some a, some b => some (make a b)
    | _, _ => none
  | _ => none

/-- The command of a mnemonic of R94 with its operands in the order of the table. -/
def assembleCommand (mnemonic : List Char) (ops : List (List Char)) : Option Instr :=
  if mnemonic = ['N', 'O', 'P'] then noOperands .nop ops
  else if mnemonic = ['C', 'L', 'E', 'A', 'R'] then noOperands .clear ops
  else if mnemonic = ['R', 'D', '_', 'R', 'E', 'G'] then oneOperand .rdReg readNumber ops
  else if mnemonic = ['F', 'T', '_', 'S', 'E', 'T'] then twoOperands .ftSet readSymOperand readNumber ops
  else if mnemonic = ['F', 'T', '_', 'R', 'E', 'A', 'D'] then oneOperand .ftRead readSymOperand ops
  else if mnemonic = ['F', 'C', '_', 'B', 'Y', 'T', 'E'] then oneOperand .fcByte readByteOperand ops
  else if mnemonic = ['F', 'C', '_', 'E', 'N', 'D'] then noOperands .fcEnd ops
  else if mnemonic = ['B', 'U', 'I', 'L', 'D'] then noOperands .build ops
  else if mnemonic = ['T', 'M', '_', 'R', 'E', 'A', 'D'] then twoOperands .tmRead readNumber readNumber ops
  else if mnemonic = ['D', 'E', 'R', 'I', 'V', 'E'] then noOperands .derive ops
  else if mnemonic = ['C', 'T', '_', 'R', 'E', 'A', 'D'] then twoOperands .ctRead readSymOperand readNumber ops
  else if mnemonic = ['E', 'N', 'C', '_', 'S', 'T', 'A', 'R', 'T'] then noOperands .encStart ops
  else if mnemonic = ['E', 'N', 'C', '_', 'S', 'Y', 'M'] then oneOperand .encSym readByteOperand ops
  else if mnemonic = ['E', 'N', 'C', '_', 'E', 'N', 'D'] then noOperands .encEnd ops
  else if mnemonic = ['D', 'E', 'C', '_', 'S', 'T', 'A', 'R', 'T'] then noOperands .decStart ops
  else if mnemonic = ['D', 'E', 'C', '_', 'B', 'I', 'T'] then
    oneOperand (n := 1) (fun b => .decBit (b.getLsbD 0)) readNumber ops
  else if mnemonic = ['D', 'E', 'C', '_', 'B', 'Y', 'T', 'E'] then oneOperand .decByte readByteOperand ops
  else if mnemonic = ['D', 'E', 'C', '_', 'E', 'N', 'D'] then noOperands .decEnd ops
  else none

/-- The pseudo-command of a mnemonic of R101, `rest` being the line after it. -/
def assemblePseudo (mnemonic : List Char) (rest : List Char) : Option Pseudo :=
  if mnemonic = ['F', 'C', '_', 'S', 'T', 'R'] then (readText rest).map .fcStr
  else if mnemonic = ['E', 'N', 'C', '_', 'S', 'T', 'R'] then (readText rest).map .encStr
  else if mnemonic = ['D', 'E', 'C', '_', 'B', 'Y', 'T', 'E', 'S'] then (readBytes (operandsOf rest)).map .decBytes
  else if mnemonic = ['P', 'R', 'E', 'P', 'A', 'R', 'E'] then (if operandsOf rest = [] then some .prepare else none)
  else none

/-- The commands one line stands for: none for an empty line or a comment, one for a command, its expansion for a
pseudo-command; no answer for a line of another form (R100, R101). -/
def assembleLine (line : List Char) : Option (List Instr) :=
  let text := trimBlanks (cutComment false line)
  if text = [] then some []
  else
    let mnemonic := text.takeWhile (fun c => !isBlank c)
    let rest := text.dropWhile (fun c => !isBlank c)
    match assembleCommand mnemonic (operandsOf rest) with
    | some i => some [i]
    | none => (assemblePseudo mnemonic rest).map expandPseudo

end Sys2Proof.Machine
end

