-- ==== Sys2Proof/Tests/Slice0.lean ====
section
/-! SUPPORT. Tests of single steps on small states, with the expected results of spec/95_test_vectors.md and the worked
examples of the rules; the WellFormed smoke; and for every statement with hypotheses a state that meets them. -/

namespace Sys2Proof.Tests

open Sys2Proof.Machine

/-! ### States of the test vectors -/

/-- An internal record. -/
def node (weight : Weight) (left right : Option NodeIdx) : NodeRec := ⟨.internal, weight, left, right⟩

/-- A leaf record. -/
def leaf (sym : Symbol) (weight : Weight) : NodeRec := ⟨sym, weight, none, none⟩

/-- FT of V4: A 3, B 2, C 1, END_OF_DATA 1. -/
def counted : State := { State.reset with ft := [(0x41, 3), (0x42, 2), (0x43, 1), (0x100, 1)] }

/-- TM, NN, ROOT, NLEAF of V6. -/
def built : State :=
  { counted with
    tm := [(0, leaf (.byte 0x41) 3), (1, leaf (.byte 0x42) 2), (2, leaf (.byte 0x43) 1), (3, leaf .endOfData 1),
      (4, node 2 (some 2) (some 3)), (5, node 4 (some 1) (some 4)), (6, node 7 (some 0) (some 5))]
    nn := 7, root := 6, nleaf := 4 }

/-- CT of V7: A 0, B 10, C 110, END_OF_DATA 111. -/
def derived : State :=
  { built with ct := [(0x41, [false]), (0x42, [true, false]), (0x43, [true, true, false]), (0x100, [true, true, true])] }

/-- V8 after two B: ENC_ACC 0x14, ENC_CNT 7. -/
def encoding : State := { derived with encSt := .run, encAcc := 0x14, encCnt := 7 }

/-- V8 after DEC_START. -/
def decoding : State := { derived with decSt := .run, decCur := 6 }

/-- V8 after the first DEC_BYTE: the walk stands at node 5. -/
def decodingAt5 : State := { derived with decSt := .run, decCur := 5 }

/-- V9: the tree of the empty input. -/
def emptyInput : State :=
  { State.reset with
    ft := [(0x100, 1)], tm := [(0, leaf .endOfData 1), (1, node 1 (some 0) none)], nn := 2, root := 1, nleaf := 1 }

/-- V15 after DEC_START: the one-entry tree over the byte A. -/
def soleDecoding : State :=
  { State.reset with
    ft := [(0x41, 5)], tm := [(0, leaf (.byte 0x41) 5), (1, node 5 (some 0) none)], nn := 2, root := 1, nleaf := 1
    decSt := .run, decCur := 1 }

/-- The tree of the empty input, whose one leaf is END_OF_DATA, after DEC_START. -/
def soleEodDecoding : State :=
  { State.reset with
    ft := [(0x100, 1)], tm := [(0, leaf .endOfData 1), (1, node 1 (some 0) none)], nn := 2, root := 1, nleaf := 1
    decSt := .run, decCur := 1 }

/-- V20: a latched fault. -/
def faulted : State := { State.reset with errCode := .eOperand, errCmd := 0x0300000000000007 }

/-- The state an answer ends in. -/
def stateOf (a : Answer) : Option State :=
  match a with
  | .next t => some t
  | .fault _ => none
  | .refused _ => none

/-- One step on the word `w` presented to `s`, seen through `view`. -/
def after {α : Type} (s : State) (w : Nat) (view : State → α) : Option α :=
  (stateOf (step (s.withFetchWord 64 w))).map view

/-- What left on the ports, from a state whose trace is empty. -/
def ports (s : State) : List PortEvent := s.out

/-- The response of a command that completes. -/
def ok (d : Data64) : PortEvent := .rsp ⟨.ok, d⟩

/-- The response of a command that faults. -/
def bad (k : Rstat) : PortEvent := .rsp ⟨k, 0⟩

/-! ### Well-formedness: each check refuses a term -/

theorem test_wf_reg : (Instr.rdReg 7).wellFormed = false ∧ (Instr.rdReg 6).wellFormed = true := by decide
theorem test_wf_ftSet_sym : (Instr.ftSet 0x101 1).wellFormed = false ∧ (Instr.ftSet 0x100 1).wellFormed = true := by decide
theorem test_wf_ftRead_sym : (Instr.ftRead 0x1FF).wellFormed = false := by decide
theorem test_wf_ctRead_sym : (Instr.ctRead 0x101 0).wellFormed = false := by decide
theorem test_wf_ctRead_sel4 : (Instr.ctRead 0x41 9).wellFormed = false ∧ (Instr.ctRead 0x41 8).wellFormed = true := by decide
theorem test_wf_tmRead_sel2 : (Instr.tmRead 0 3).wellFormed = false ∧ (Instr.tmRead 0 2).wellFormed = true := by decide

/-! ### Decoding: words written out from R91, R92 and R94 (V1, V2) -/

theorem test_decode_control :
    decode 0x0100000000000000 = .instr .nop ∧ decode 0x0200000000000000 = .instr .clear ∧
      decode 0x0300000000000006 = .instr (.rdReg 6) := by decide

theorem test_decode_frequency :
    decode 0x10000041FFFFFFFE = .instr (.ftSet 0x41 0xFFFFFFFE) ∧ decode 0x1100010000000000 = .instr (.ftRead 0x100) ∧
      decode 0x1200000000000041 = .instr (.fcByte 0x41) ∧ decode 0x1300000000000000 = .instr .fcEnd := by decide

theorem test_decode_tree :
    decode 0x2000000000000000 = .instr .build ∧ decode 0x2100020000000002 = .instr (.tmRead 512 2) := by decide

theorem test_decode_code_table :
    decode 0x3000000000000000 = .instr .derive ∧ decode 0x3100004100000008 = .instr (.ctRead 0x41 8) := by decide

theorem test_decode_encoder :
    decode 0x4000000000000000 = .instr .encStart ∧ decode 0x4100000000000043 = .instr (.encSym 0x43) ∧
      decode 0x4200000000000000 = .instr .encEnd := by decide

theorem test_decode_decoder :
    decode 0x5000000000000000 = .instr .decStart ∧ decode 0x5100000000000001 = .instr (.decBit true) ∧
      decode 0x52000000000000B8 = .instr (.decByte 0xB8) ∧ decode 0x5300000000000000 = .instr .decEnd := by decide

theorem test_decode_illegal :
    decode 0 = .rejected (.unknownOpcode 0) ∧ decode 0xFFFFFFFFFFFFFFFF = .rejected (.unknownOpcode 0xFF) ∧
      decode 0x0100000000000001 = .rejected (.mustBeZero 0x01) ∧ decode 0x1000020000000000 = .rejected (.mustBeZero 0x10) ∧
      decode 0x2100040000000000 = .rejected (.mustBeZero 0x21) := by decide

/-- R100's examples. -/
theorem test_encode_examples :
    encode (.ftSet 0x41 3) = 0x1000004100000003 ∧ encode (.tmRead 6 2) = 0x2100000600000002 ∧
      encode (.decBit true) = 0x5100000000000001 := by decide

/-! ### Assembler lines (R100, R101; V1) -/

/-- FT_SET 'A', 3 -/
theorem test_assemble_ftSet :
    assembleLine ['F', 'T', '_', 'S', 'E', 'T', ' ', '\'', 'A', '\'', ',', ' ', '3'] = some [.ftSet 0x41 3] := by decide +kernel

/-- CT_READ EOD, 0   # comment -/
theorem test_assemble_eod_comment :
    assembleLine ['C', 'T', '_', 'R', 'E', 'A', 'D', ' ', 'E', 'O', 'D', ',', ' ', '0', ' ', '#', ' ', 'x'] =
      some [.ctRead 0x100 0] := by decide +kernel

/-- DEC_BYTE 0xB8 -/
theorem test_assemble_hex :
    assembleLine ['D', 'E', 'C', '_', 'B', 'Y', 'T', 'E', ' ', '0', 'x', 'B', '8'] = some [.decByte 0xB8] := by decide +kernel

/-- FC_STR "AB" -/
theorem test_assemble_text :
    assembleLine ['F', 'C', '_', 'S', 'T', 'R', ' ', '"', 'A', 'B', '"'] = some [.fcByte 0x41, .fcByte 0x42] := by decide +kernel

/-- PREPARE, a comment line, and an operand that does not fit its field (RD_REG 16). -/
theorem test_assemble_others :
    assembleLine ['P', 'R', 'E', 'P', 'A', 'R', 'E'] = some [.build, .derive] ∧ assembleLine ['#', 'x'] = some [] ∧
      assembleLine ['R', 'D', '_', 'R', 'E', 'G', ' ', '1', '6'] = none := by decide +kernel

/-! ### Single steps -/

/-- V2: an illegal word is latched. -/
theorem test_illegal : after State.reset 0x0400000000000000 (fun t => (t.errCode, t.errCmd, ports t)) =
    some (.eIllegal, 0x0400000000000000, [bad .eIllegal]) := by decide

/-- V20: an illegal word while FAULTED keeps the latch. -/
theorem test_illegal_faulted : after faulted 0xFFFFFFFFFFFFFFFF (fun t => (t.errCode, t.errCmd, ports t)) =
    some (.eOperand, 0x0300000000000007, [bad .eIllegal]) := by decide

theorem test_nop : after faulted 0x0100000000000000 (fun t => t) = some { faulted with out := [ok 0] } := by decide

theorem test_clear : after encoding 0x0200000000000000 (fun t => t) = some { State.reset with out := [ok 0] } := by decide

/-- R243's example, here with one more pending byte: STATUS 0x07. -/
theorem test_rdReg_status : after encoding 0x0300000000000000 ports = some [ok 0x07] := by decide +kernel

/-- V6 and V3: TREEINFO, and a register that does not exist. -/
theorem test_rdReg_treeInfo : after built 0x0300000000000003 ports = some [ok 0x0000000400060007] ∧
    after built 0x0300000000000007 ports = some [bad .eOperand] := by decide

theorem test_ftSet : after State.reset 0x1000004200000002 (fun t => (t.ft, ports t)) = some ([(0x42, 2)], [ok 0]) := by decide

/-- R121: count 0 removes the entry. -/
theorem test_ftSet_zero : after counted 0x1000004200000000 (fun t => (t.ft, ports t)) =
    some ([(0x41, 3), (0x43, 1), (0x100, 1)], [ok 0]) := by decide

theorem test_ftRead : after counted 0x1100010000000000 ports = some [ok 1] ∧
    after counted 0x110001FF00000000 ports = some [bad .eOperand] := by decide

/-- V4 and V5. -/
theorem test_fcByte : after counted 0x1200000000000041 (fun t => (t.ftAt 0x41, ports t)) = some (4, [ok 4]) := by decide

theorem test_fcByte_overflow : after { State.reset with ft := [(0x41, 0xFFFFFFFF)] } 0x1200000000000041
    (fun t => (t.ft, t.errCode, ports t)) = some ([(0x41, 0xFFFFFFFF)], .eCountOvf, [bad .eCountOvf]) := by decide

/-- V4: FC_END overwrites a count of 7. -/
theorem test_fcEnd : after { State.reset with ft := [(0x100, 7)] } 0x1300000000000000 (fun t => (t.ft, ports t)) =
    some ([(0x100, 1)], [ok 0]) := by decide

/-- V6. -/
theorem test_build : after counted 0x2000000000000000 (fun t => t) =
    some { built with out := [ok 0x0000000400060007] } := by decide +kernel

/-- V9. -/
theorem test_build_one_entry : after { State.reset with ft := [(0x100, 1)] } 0x2000000000000000 (fun t => t) =
    some { emptyInput with out := [ok 0x0000000100010002] } := by decide +kernel

/-- V6. -/
theorem test_tmRead : after built 0x2100000600000002 ports = some [ok 0x80058000] ∧
    after built 0x2100000300000000 ports = some [ok 0x10100] := by decide

theorem test_tmRead_absent : after built 0x2100000700000000 ports = some [bad .eOperand] := by decide

/-- V7. -/
theorem test_derive : after built 0x3000000000000000 (fun t => t) = some { derived with out := [ok 4] } := by decide +kernel

/-- V18: no tree is no fault. -/
theorem test_derive_no_tree : after State.reset 0x3000000000000000 ports = some [ok 0] := by decide

/-- V7. -/
theorem test_ctRead : after derived 0x3100010000000000 ports = some [ok 0xE0000000] ∧
    after derived 0x3100010000000008 ports = some [ok 3] := by decide +kernel

theorem test_ctRead_range : after derived 0x3100004100000009 ports = some [bad .eOperand] := by decide

theorem test_encStart : after derived 0x4000000000000000 (fun t => (t.encSt, ports t)) = some (.run, [ok 0]) ∧
    after encoding 0x4000000000000000 ports = some [bad .eState] := by decide

/-- V8: the sixth ENC_SYM. -/
theorem test_encSym : after encoding 0x4100000000000043 (fun t => (t.encAcc, t.encCnt, ports t)) =
    some (0x80, 2, [.eout 0x15, ok 0x201]) := by decide

/-- V19 (b). -/
theorem test_encSym_missing : after encoding 0x410000000000005A (fun t => (t.encAcc, t.encCnt, ports t)) =
    some (0x14, 7, [bad .eMissingCode]) := by decide

/-- V8. -/
theorem test_encEnd : after { encoding with encAcc := 0x80, encCnt := 2 } 0x4200000000000000
    (fun t => (t.encSt, t.encAcc, t.encCnt, ports t)) = some (.done, 0, 0, [.eout 0xB8, ok 1]) := by decide

theorem test_encEnd_idle : after derived 0x4200000000000000 ports = some [bad .eState] := by decide

/-- V8 and V18. -/
theorem test_decStart : after derived 0x5000000000000000 (fun t => (t.decSt, t.decCur, ports t)) =
    some (.run, 6, [ok 0]) ∧ after State.reset 0x5000000000000000 ports = some [bad .eNoTree] := by decide

/-- R213's examples. -/
theorem test_decBit : after decoding 0x5100000000000000 (fun t => (t.decCur, ports t)) =
    some (6, [.dout 0x41, ok 0x111]) ∧ after decoding 0x5100000000000001 (fun t => (t.decCur, ports t)) =
    some (5, [ok 0x011]) := by decide

/-- V15: bit 1 in the degenerate tree. -/
theorem test_decBit_noChild : after soleDecoding 0x5100000000000001 (fun t => (t.decCur, t.errCode, ports t)) =
    some (1, .eNoChild, [bad .eNoChild]) := by decide

/-- R219. -/
theorem test_decByte : after decodingAt5 0x52000000000000B8 (fun t => (t.decSt, t.decCur, ports t)) =
    some (.doneEod, 6, [.dout 0x43, ok 0x152]) := by decide

/-- V15: the two bytes before the faulting bit stand. -/
theorem test_decByte_partial : after soleDecoding 0x5200000000000020 (fun t => (t.decSt, t.errCmd, ports t)) =
    some (.run, 0x5200000000000020, [.dout 0x41, .dout 0x41, bad .eNoChild]) := by decide

/-- V23. -/
theorem test_decEnd : after decodingAt5 0x5300000000000000 (fun t => (t.decSt, t.decCur, ports t)) =
    some (.doneTrunc, 6, [ok 3]) ∧ after derived 0x5300000000000000 ports = some [bad .eState] := by decide

/-- R300: RST is no command and has no response. -/
theorem test_reset_event : stateOf (step { encoding with host := [.reset], out := [ok 0] }) =
    some { State.reset with out := [ok 0] } := by decide

/-- The host's question about a table row. -/
theorem test_decodeTableWord : decodeTableWord 64 0x1000000000000000 = some (.ftSet 0 0) ∧
    decodeTableWord 64 0x1000020000000000 = none := by decide

/-! ### Witnesses: a state for the hypotheses of each statement, and for each of its clauses -/

theorem built_treeInv : TreeInv built where
  leafCount := by decide
  nodeCount := by decide
  rootLast := by decide
  leaves := by decide
  ascending := fun k hk =>
    (by decide : ∀ k, k < 3 → (symCode (built.tmAt k).sym).toNat < (symCode (built.tmAt (k + 1)).sym).toNat) k
      (Nat.lt_of_succ_lt_succ hk)
  internals := by decide
  childBelow := by decide
  weights := by decide
  oneParent := by decide
  unused := by decide +kernel

theorem sole_treeInv : TreeInv soleDecoding where
  leafCount := by decide
  nodeCount := by decide
  rootLast := by decide
  leaves := by decide
  ascending := fun k hk => absurd (Nat.lt_of_succ_lt_succ hk) (Nat.not_lt_zero k)
  internals := by decide
  childBelow := by decide
  weights := by decide
  oneParent := by decide
  unused := by decide +kernel

theorem soleEod_treeInv : TreeInv soleEodDecoding where
  leafCount := by decide
  nodeCount := by decide
  rootLast := by decide
  leaves := by decide
  ascending := fun k hk => absurd (Nat.lt_of_succ_lt_succ hk) (Nat.not_lt_zero k)
  internals := by decide
  childBelow := by decide
  weights := by decide
  oneParent := by decide
  unused := by decide +kernel

/-- The tree fields decide the tree invariant, so it holds of every state with the tree of V6. -/
theorem treeInv_of_built (s : State) (htm : s.tm = built.tm) (hnn : s.nn = built.nn) (hroot : s.root = built.root)
    (hnleaf : s.nleaf = built.nleaf) : TreeInv s := by
  have htmAt : s.tmAt = built.tmAt := by
    funext k
    simp only [State.tmAt, htm]
  have htimes : s.timesChildBelow = built.timesChildBelow := by
    funext k j
    simp only [State.timesChildBelow, htmAt]
  obtain ⟨h1, h2, h3, h4, h5, h6, h7, h8, h9, h10⟩ := built_treeInv
  constructor <;> simp only [htmAt, htimes, hnn, hroot, hnleaf] <;> assumption

theorem decoding_inv : Inv decoding where
  memory := by decide
  tree := .inr ⟨by decide, treeInv_of_built _ rfl rfl rfl rfl⟩
  codes := ⟨.inr ⟨[(0x41, [false]), (0x42, [true, false]), (0x43, [true, true, false]), (0x100, [true, true, true])],
    by decide, by decide⟩, by decide +kernel⟩
  encoder := ⟨by decide, by decide⟩
  decoder := ⟨by decide, by decide, by decide⟩
  latch := ⟨by decide, by decide⟩

theorem derived_inv : Inv derived where
  memory := by decide
  tree := .inr ⟨by decide, treeInv_of_built _ rfl rfl rfl rfl⟩
  codes := ⟨.inr ⟨[(0x41, [false]), (0x42, [true, false]), (0x43, [true, true, false]), (0x100, [true, true, true])],
    by decide, by decide⟩, by decide +kernel⟩
  encoder := ⟨by decide, by decide⟩
  decoder := ⟨by decide, by decide, by decide⟩
  latch := ⟨by decide, by decide⟩

theorem soleDecoding_inv : Inv soleDecoding where
  memory := by decide
  tree := .inr ⟨by decide, sole_treeInv⟩
  codes := ⟨.inl rfl, by decide +kernel⟩
  encoder := ⟨by decide, by decide⟩
  decoder := ⟨by decide, by decide, by decide⟩
  latch := ⟨by decide, by decide⟩

theorem soleEodDecoding_inv : Inv soleEodDecoding where
  memory := by decide
  tree := .inr ⟨by decide, soleEod_treeInv⟩
  codes := ⟨.inl rfl, by decide +kernel⟩
  encoder := ⟨by decide, by decide⟩
  decoder := ⟨by decide, by decide, by decide⟩
  latch := ⟨by decide, by decide⟩

/-- What BUILD leaves on `counted` (V6). -/
theorem build_counted : exec .build counted = .next { built with out := [ok 0x0000000400060007] } := by
  have h : stateOf (exec .build counted) = some { built with out := [ok 0x0000000400060007] } := by decide +kernel
  cases he : exec .build counted <;> simp_all [stateOf]

/-- What DERIVE leaves on `built` (V7). -/
theorem derive_built : exec .derive built = .next { derived with out := [ok 4] } := by
  have h : stateOf (exec .derive built) = some { derived with out := [ok 4] } := by decide +kernel
  cases he : exec .derive built <;> simp_all [stateOf]

theorem witness_EncodeOfDecode : decode 0x0100000000000000 = .instr .nop := by decide

theorem witness_IllegalWords :
    (∀ p ∈ printedOpcodeMap, (0 : Cmd64) &&& p.1 ≠ p.2) ∧ State.reset.errCode = .ok ∧
      (Instr.ftSet 0x101 0).wellFormed = false ∧ (Instr.tmRead 0 3).wellFormed = false ∧
      State.reset.nn.toNat ≤ (0 : NodeIdx).toNat := by
  refine ⟨?_, by decide, by decide, by decide, by decide⟩
  simp [printedOpcodeMap]

theorem witness_StepRunsDecoded :
    ({ State.reset with host := [.command 0x0100000000000000] } : State).host = .command 0x0100000000000000 :: [] ∧
      decode (BitVec.ofNat 64 0x0100000000000000) = .instr .nop := by decide

theorem witness_IdleHoldsState : counted.host = [] := rfl

theorem witness_ResetAndClearAgree : ({ encoding with host := [.reset] } : State).host = .reset :: [] := rfl

theorem witness_CommandCutByReset :
    present 0x4100000000000043 encoding =
        .next { encoding with encAcc := 0x80, encCnt := 2, out := [] ++ [.eout 0x15] ++ [ok 0x201] } ∧
      ∀ e ∈ [PortEvent.eout 0x15], e.onRsp = none := ⟨rfl, by decide⟩

theorem witness_FaultedRefusal : faulted.errCode ≠ .ok := by decide

/-- The smallest operands out of range: sym 0x101, sel4 9, idx NN, sel2 3, r 7. -/
theorem witness_OperandOutOfRange :
    0x100 < (0x101 : SymCode).toNat ∧ built.errCode = .ok ∧ 8 < (9 : BitVec 4).toNat ∧
      built.nn.toNat ≤ (7 : NodeIdx).toNat ∧ 6 < (7 : BitVec 4).toNat := by decide

theorem witness_StatePreconditions :
    (encoding.errCode = .ok ∧ encoding.encSt = .run ∧ encoding.ctAt 0x5A = []) ∧
      (State.reset.errCode = .ok ∧ State.reset.encSt ≠ .run ∧ State.reset.decSt ≠ .run ∧ State.reset.nn = 0 ∧
        State.reset.decSt = .idle ∧ ∀ k, k < 257 → State.reset.ftAt k = 0) ∧
      (decoding.errCode = .ok ∧ decoding.decSt = .run) ∧
      ({ built with encSt := .run } : State).ctAt 0x100 = [] := by decide +kernel

theorem witness_LatchHoldsFirstFault :
    ({ faulted with host := [.command 0x0100000000000000] } : State).errCode ≠ .ok ∧
      step { faulted with host := [.command 0x0100000000000000] } = .next { faulted with out := [ok 0] } ∧
      (∀ rest, [HostEvent.command 0x0100000000000000] ≠ .command 0x0200000000000000 :: rest) ∧
      (∀ rest, [HostEvent.command 0x0100000000000000] ≠ .reset :: rest) ∧
      (∀ w rest, [HostEvent.command 0x0100000000000000] ≠ .commandCutByReset w :: rest) := by
  refine ⟨by decide, rfl, ?_, ?_, ?_⟩ <;> simp

theorem witness_OneResponsePerCommand :
    present 0x0300000000000007 State.reset =
      .next { State.reset with errCode := .eOperand, errCmd := 0x0300000000000007, out := [bad .eOperand] } := rfl

theorem witness_FaultLineFollowsLatch :
    exec (.rdReg 7) State.reset =
        .next { State.reset with errCode := .eOperand, errCmd := 0x0300000000000007, out := [bad .eOperand] } ∧
      ({ State.reset with out := [bad .eOperand] } : State).responses = State.reset.responses ++ [⟨.eOperand, 0⟩] :=
  ⟨rfl, by decide⟩

theorem witness_SafeRunExtends :
    State.reset.safeRun = true ∧ exec .nop State.reset = .next { State.reset with out := [ok 0] } ∧
      ({ State.reset with out := [ok 0] } : State).responses = State.reset.responses ++ [⟨.ok, 0⟩] :=
  ⟨by decide, rfl, by decide⟩

/-- FT_SET changes FT, BUILD the tree, DERIVE the code table, ENC_START ENC_ST, ENC_SYM the accumulator, DEC_START the
decoder registers. -/
theorem witness_WritersOfState :
    exec (.ftSet 0x41 1) State.reset = .next { State.reset with ft := [(0x41, 1)], out := [ok 0] } ∧
      exec .build counted = .next { built with out := [ok 0x0000000400060007] } ∧
      exec .derive built = .next { derived with out := [ok 4] } ∧
      exec .encStart derived = .next { derived with encSt := .run, out := [ok 0] } ∧
      exec (.encSym 0x43) encoding =
        .next { encoding with encAcc := 0x80, encCnt := 2, out := [.eout 0x15, ok 0x201] } ∧
      exec .decStart derived = .next { derived with decSt := .run, decCur := 6, out := [ok 0] } :=
  ⟨rfl, build_counted, derive_built, rfl, rfl, rfl⟩

theorem witness_RegisterReads : (0 : BitVec 4).toNat ≤ 6 ∧ (6 : BitVec 4).toNat ≤ 6 := by decide

/-- sym 0x100 and 0x101; a canonical table that already holds the count. -/
theorem witness_FtSetWritesOneCount :
    counted.errCode = .ok ∧ (0x100 : SymCode).toNat ≤ 0x100 ∧ 0x100 < (0x101 : SymCode).toNat ∧
      Memory.wf counted = true ∧ counted.ftAt (0x100 : SymCode).toNat = 1 := by decide

theorem witness_FtReadReadsCount : (0x100 : SymCode).toNat ≤ 0x100 ∧ 0x100 < (0x101 : SymCode).toNat := by decide

/-- The counts 2^32 - 2 and 2^32 - 1. -/
theorem witness_FcByteCountsOne :
    (({ State.reset with ft := [(0x41, 0xFFFFFFFE)] } : State).ftAt (0x41 : Byte).toNat).toNat ≠ 2 ^ 32 - 1 ∧
      (({ State.reset with ft := [(0x41, 0xFFFFFFFF)] } : State).ftAt (0x41 : Byte).toNat).toNat = 2 ^ 32 - 1 := by decide

theorem witness_FcEndSetsEndOfData : counted.errCode = .ok := rfl

theorem witness_CountingRun : State.reset.errCode = .ok ∧ (∀ k, State.reset.ftAt k = 0) ∧
    ∀ v : Byte, [0x41, 0x41, 0x41, 0x42, 0x42, 0x43].count v < 2 ^ 32 :=
  ⟨rfl, fun _ => rfl, fun _ => Nat.lt_of_le_of_lt List.count_le_length (by decide)⟩

theorem witness_BuildCompletes : counted.errCode = .ok ∧ counted.encSt ≠ .run ∧ counted.decSt ≠ .run ∧
    ∃ k, k < 257 ∧ counted.ftAt k ≠ 0 := ⟨by decide, by decide, by decide, 0x100, by decide, by decide⟩

/-- The hypotheses of BuildMakesTree, BuildLeaves, BuildRootWeight and BuildMergesTwoFirst, the last at its first and its
last internal node. -/
theorem witness_Build : counted.errCode = .ok ∧
    exec .build counted = .next { built with out := [ok 0x0000000400060007] } ∧ built.errCode = .ok ∧
    2 ≤ built.nleaf.toNat ∧ built.nleaf.toNat ≤ 4 ∧ 6 < built.nn.toNat :=
  ⟨rfl, build_counted, rfl, by decide, by decide, by decide⟩

theorem witness_BuildDegenerate : emptyInput.errCode = .ok ∧ emptyInput.encSt ≠ .run ∧ emptyInput.decSt ≠ .run ∧
    emptyInput.ftAt 0x100 ≠ 0 ∧ ∀ k, k < 257 → k ≠ 0x100 → emptyInput.ftAt k = 0 := by decide +kernel

theorem witness_BuildIsFunctionOfTable : counted.errCode = .ok ∧
    (∀ k, k < 257 → counted.ftAt k = counted.ftAt k) ∧
    exec .build counted = .next { built with out := [ok 0x0000000400060007] } ∧
    exec .derive built = .next { derived with out := [ok 4] } := ⟨rfl, fun _ _ => rfl, build_counted, derive_built⟩

theorem witness_TmReadFieldGroups : (6 : NodeIdx).toNat < built.nn.toNat ∧ (6 : NodeIdx).toNat < 513 := by decide

theorem witness_DeriveRecordsPaths :
    State.reset.errCode = .ok ∧ State.reset.nn = 0 ∧ built.errCode = .ok ∧ built.nn ≠ 0 ∧ TreeInv built :=
  ⟨rfl, rfl, rfl, by decide, built_treeInv⟩

/-- The hypotheses of DerivedCodesPrefixFree and DerivedCodesKraftSum. -/
theorem witness_DerivedCodes : built.errCode = .ok ∧ built.nn ≠ 0 ∧ TreeInv built ∧
    exec .derive built = .next { derived with out := [ok 4] } ∧ derived.ctAt 0x41 ≠ [] ∧ derived.ctAt 0x100 ≠ [] :=
  ⟨rfl, by decide, built_treeInv, derive_built, by decide, by decide⟩

/-- sel4 8, and the last chunk 7. -/
theorem witness_CtReadChunks : (0x100 : SymCode).toNat ≤ 0x100 ∧ (derived.ctAt (0x100 : SymCode).toNat).length ≤ 256 ∧
    (8 : BitVec 4).toNat = 8 ∧ (7 : BitVec 4).toNat < 8 := by decide

theorem witness_EncStartBeginsPayload :
    derived.errCode = .ok ∧ derived.encSt ≠ .run ∧ encoding.errCode = .ok ∧ encoding.encSt = .run := by decide

theorem witness_EncSymAppendsCode : encoding.errCode = .ok ∧ EncInv encoding ∧ encoding.encSt = .run ∧
    encoding.ctAt (0x43 : Byte).toNat ≠ [] ∧ (encoding.ctAt (0x43 : Byte).toNat).length ≤ 256 :=
  ⟨rfl, ⟨by decide, by decide⟩, rfl, by decide, by decide⟩

theorem witness_EncEndTerminatesPayload :
    encoding.errCode = .ok ∧ EncInv encoding ∧ encoding.encSt = .run ∧ encoding.ctAt 0x100 ≠ [] :=
  ⟨rfl, ⟨by decide, by decide⟩, rfl, by decide⟩

theorem witness_PayloadLaw : derived.errCode = .ok ∧ derived.encSt ≠ .run ∧
    (∀ d ∈ [(0x41 : Byte), 0x43], derived.ctAt d.toNat ≠ []) ∧ derived.ctAt 0x100 ≠ [] := by decide

theorem witness_DecStartStandsAtRoot :
    (derived.errCode = .ok ∧ derived.decSt ≠ .run ∧ derived.nn ≠ 0) ∧
      (State.reset.decSt ≠ .run ∧ State.reset.nn = 0) ∧ decoding.decSt = .run := by decide

/-- A byte leaf, an internal child, the END_OF_DATA leaf, an absent child, and the two stops. -/
theorem witness_DecBitWalksOneEdge :
    (decoding.decSt = .run ∧ decoding.decCur.toNat < 513 ∧ (decoding.tmAt 6).left = some 0 ∧
      (decoding.tmAt 0).isLeaf = true ∧ (decoding.tmAt 0).sym = .byte 0x41) ∧
    ((decoding.tmAt 6).right = some 5 ∧ (decoding.tmAt 5).isLeaf = false) ∧
    ((decoding.tmAt 4).right = some 3 ∧ (decoding.tmAt 3).isLeaf = true ∧ (decoding.tmAt 3).sym = .endOfData) ∧
    (soleDecoding.decSt = .run ∧ (soleDecoding.tmAt soleDecoding.decCur.toNat).right = none) ∧
    ({ derived with decSt := .doneEod, decCur := 6 } : State).decSt = .doneEod ∧
    ({ derived with decSt := .doneTrunc, decCur := 6 } : State).decSt = .doneTrunc := by decide

theorem witness_DecByteIsItsBits :
    decoding.errCode = .ok ∧ Inv decoding ∧ decoding.nleaf ≠ 1 ∧ decoding.decSt = .run ∧
      Inv soleDecoding ∧ soleDecoding.errCode = .ok ∧ soleDecoding.decSt = .run ∧
      ({ derived with decSt := .doneEod, decCur := 6 } : State).decSt = .doneEod ∧
      ({ derived with decSt := .doneTrunc, decCur := 6 } : State).decSt = .doneTrunc :=
  ⟨rfl, decoding_inv, by decide, rfl, soleDecoding_inv, rfl, rfl, rfl, rfl⟩

/-- The tree of one leaf over END_OF_DATA (empty input), with the decoder in RUN. -/
theorem witness_DecByteOverEndOfData :
    soleEodDecoding.errCode = .ok ∧ Inv soleEodDecoding ∧ soleEodDecoding.decSt = .run ∧ soleEodDecoding.nleaf = 1 ∧
      (soleEodDecoding.tmAt 0).sym = .endOfData ∧ (0x7F : Byte).getLsbD 7 = false ∧
      (byteBits 0x80).getD 0 false = true := ⟨rfl, soleEodDecoding_inv, rfl, rfl, rfl, by decide, by decide⟩

/-- The 1 bit first, third and last. -/
theorem witness_DecByteKeepsEarlierBits :
    soleDecoding.errCode = .ok ∧ Inv soleDecoding ∧ soleDecoding.nleaf = 1 ∧ soleDecoding.decSt = .run ∧
      (soleDecoding.tmAt 0).sym = .byte 0x41 ∧ (byteBits 0x80).getD 0 false = true ∧
      ((∀ j, j < 2 → (byteBits 0x20).getD j false = false) ∧ (byteBits 0x20).getD 2 false = true) ∧
      ((∀ j, j < 7 → (byteBits 0x01).getD j false = false) ∧ (byteBits 0x01).getD 7 false = true) :=
  ⟨rfl, soleDecoding_inv, rfl, rfl, rfl, by decide, by decide, by decide⟩

theorem witness_DecEndStops :
    decoding.errCode = .ok ∧ decoding.decSt = .run ∧ derived.decSt = .idle ∧
      ({ derived with decSt := .doneEod, decCur := 6 } : State).decSt = .doneEod ∧
      ({ derived with decSt := .doneTrunc, decCur := 6 } : State).decSt = .doneTrunc := by decide

theorem witness_DecoderReadsDerivedCode : decoding.errCode = .ok ∧ Inv decoding ∧ decoding.decSt = .run ∧
    decoding.decCur = decoding.root ∧ decoding.ctAt (0x42 : Byte).toNat ≠ [] :=
  ⟨rfl, decoding_inv, rfl, rfl, by decide⟩

theorem witness_RoundTrip : derived.errCode = .ok ∧ Inv derived ∧ derived.encSt ≠ .run ∧ derived.decSt ≠ .run ∧
    (∀ d ∈ [(0x41 : Byte), 0x41, 0x43], derived.ctAt d.toNat ≠ []) ∧ derived.ctAt 0x100 ≠ [] :=
  ⟨rfl, derived_inv, by decide, by decide, by decide, by decide⟩

theorem witness_CompressThenDecompress : ∀ v : Byte, [0x41, 0x41, 0x43].count v < 2 ^ 32 :=
  fun _ => Nat.lt_of_le_of_lt List.count_le_length (by decide)

/-- The hypotheses of StepKeepsMemoryWf, StepKeepsEncoderAndLatch, StepKeepsInv and EveryWordAnswers. -/
theorem witness_Invariants : Memory.wf derived = true ∧ EncInv derived ∧ LatchInv derived ∧ Inv derived ∧
    step derived = .next derived :=
  ⟨derived_inv.memory, derived_inv.encoder, derived_inv.latch, derived_inv, rfl⟩

end Sys2Proof.Tests
end

section
/-! A step of a presented command word (R7, R42). -/

namespace Sys2Proof.Machine

/-- One step takes the host's next action on the state without it. -/
theorem step_of_host_cons {s : State} {e : HostEvent} {rest : List HostEvent} (h : s.host = e :: rest) :
    step s = hostAct e (s.setHost rest) := by
  simp only [step, h]

/-- A presented word that decodes runs its command, with nothing added around it. -/
theorem step_of_host_command {s : State} {w : Cmd64} {rest : List HostEvent} {i : Instr}
    (hhost : s.host = .command w :: rest) (hdec : decode w = .instr i) : step s = exec i (s.setHost rest) :=
  calc step s = present w (s.setHost rest) := step_of_host_cons hhost
    _ = exec i (s.setHost rest) := present_of_decode hdec _

/-- The word `withCommand` places is the one the step takes away again. -/
theorem step_withCommand {s : State} {w : Cmd64} {i : Instr} (hdec : decode w = .instr i) :
    step (s.withCommand w) = exec i s :=
  step_of_host_command (s := s.withCommand w) rfl hdec

/-- Settles O5: the host's word is presented on the state without it, and the host's second form is that word in front
of the list. -/
theorem stepRunsDecoded : Obligations.StepRunsDecoded := by
  unfold Obligations.StepRunsDecoded
  constructor
  · intro s w rest i hhost hdec
    exact step_of_host_command hhost hdec
  · intro s nbits w i hdec
    exact step_withCommand hdec

end Sys2Proof.Machine
end

section
/-! What a command can do (R102), said once: the state whose effects stand, and how the command ends on it. What every
step keeps follows from it. -/

namespace Sys2Proof.Machine

/-- Fed `bits` from its registers, the decoder ends as `w`: all bits taken as far as the walk goes, or those before the
first absent child (R214). -/
def FedTo (s : State) (bits : List Bool) (w : Walker) : Prop :=
  (∃ used, feedBits s bits s.walker 0 = .finished w used) ∨ feedBits s bits s.walker 0 = .noChild w

/-- `CommandEffect i s u`: in state `s` the command `i` can leave the effects of `u`, before its response and the latch
are seen to. A constructor is one branch of a command's meaning, with those of its checks that later proofs need. -/
inductive CommandEffect : Instr → State → State → Prop
  /-- a read, a refusal or a fault: no effect -/
  | unchanged (i : Instr) (s : State) : CommandEffect i s s
  /-- R242 -/
  | clear (s : State) : CommandEffect .clear s s.cleared
  /-- R121 -/
  | ftSet (s : State) (sym : SymCode) (count : Count) (hsym : symInRange sym = true) :
      CommandEffect (.ftSet sym count) s (s.ftPut sym.toNat count)
  /-- R123 -/
  | fcByte (s : State) (d : Byte) : CommandEffect (.fcByte d) s (s.ftPut d.toNat (s.ftAt d.toNat + 1))
  /-- R124 -/
  | fcEnd (s : State) : CommandEffect .fcEnd s (s.ftPut eodIndex 1)
  /-- R141 -/
  | build (s : State) (hpresent : s.present ≠ []) : CommandEffect .build s s.withBuiltTree
  /-- R171 -/
  | derive (s : State) (found : List (Nat × List Bool)) (hwalk : s.rootWalk = .codes found) :
      CommandEffect .derive s (s.setCt (codeTable found))
  /-- R192 -/
  | encStart (s : State) : CommandEffect .encStart s (s.setEnc .run 0 0)
  /-- R193 -/
  | encSym (s : State) (d : Byte) (hrun : s.encSt = .run) :
      CommandEffect (.encSym d) s (s.packed .run (pushCode s.packer (s.ctAt d.toNat)))
  /-- R194 -/
  | encEnd (s : State) (hrun : s.encSt = .run) :
      CommandEffect .encEnd s (s.packed .done (flush (pushCode s.packer (s.ctAt eodIndex))))
  /-- R212 -/
  | decStart (s : State) (htree : s.nn ≠ 0) : CommandEffect .decStart s (s.setDec .run s.root)
  /-- R213 -/
  | decBit (s : State) (b : Bool) (w : Walker) (hfeed : FedTo s [b] w) : CommandEffect (.decBit b) s (s.walked w)
  /-- R214 -/
  | decByte (s : State) (d : Byte) (w : Walker) (hfeed : FedTo s (byteBits d) w) :
      CommandEffect (.decByte d) s (s.walked w)
  /-- R215 -/
  | decEnd (s : State) (hrun : s.decSt = .run) : CommandEffect .decEnd s (s.setDec .doneTrunc s.root)

/-- The command `i`, whose effects are those of `u`, ends in `t`: it completes (R97), or it faults with `k`, where
E_FAULTED is raised only while a fault is latched (R262, R264). -/
def EndsOn (i : Instr) (u t : State) : Prop :=
  (∃ d, t = u.completed [] d) ∨
    ∃ k, k ≠ .ok ∧ (k = .eFaulted → u.errCode ≠ .ok) ∧ t = u.afterFault k (encode i)

/-- Every next state that `a` answers is an effect of `i` and a way to end. -/
def Explained (i : Instr) (s : State) (a : Answer) : Prop :=
  ∀ t, a = .next t → ∃ u, CommandEffect i s u ∧ EndsOn i u t

section
variable {i : Instr} {s u : State} {a b : Answer}

theorem Explained.respond (d : Data64) (h : CommandEffect i s u) : Explained i s (Machine.respond d u) :=
  fun _ ht => ⟨u, h, .inl ⟨d, respond_next.1 ht⟩⟩

theorem Explained.raise {k : Rstat} (h : CommandEffect i s u) (hk : k ≠ .ok ∧ k ≠ .eFaulted := by decide) :
    Explained i s (Machine.raise k (encode i) u) :=
  fun _ ht => ⟨u, h, .inr ⟨k, hk.1, fun hf => absurd hf hk.2, raise_next.1 ht⟩⟩

theorem Explained.fault (why : Fault) : Explained i s (.fault why) := by
  intro t ht
  cases ht

theorem Explained.unlessFaulted (h : Explained i s a) : Explained i s (Machine.unlessFaulted i s a) := by
  intro t ht
  rcases unlessFaulted_next ht with ⟨_, ha⟩ | ⟨hfault, rfl⟩
  · exact h t ha
  · exact ⟨s, .unchanged i s, .inr ⟨.eFaulted, by decide, fun _ => hfault, rfl⟩⟩

theorem Explained.ite {c : Prop} [Decidable c] (ha : c → Explained i s a) (hb : ¬ c → Explained i s b) :
    Explained i s (if c then a else b) := by
  split
  · next h => exact ha h
  · next h => exact hb h

/-- A fault that leaves no effect. -/
theorem Explained.raiseUnchanged {k : Rstat} (hk : k ≠ .ok ∧ k ≠ .eFaulted := by decide) :
    Explained i s (Machine.raise k (encode i) s) :=
  .raise (.unchanged i s) hk

/-- A read. -/
theorem Explained.respondUnchanged (d : Data64) : Explained i s (Machine.respond d s) :=
  .respond d (.unchanged i s)

end

theorem decodeBits_explained {i : Instr} {bits : List Bool} {s : State}
    (heffect : ∀ w, FedTo s bits w → CommandEffect i s (s.walked w)) : Explained i s (decodeBits i bits s) := by
  refine .unlessFaulted (.ite (fun _ => .raiseUnchanged) (fun _ => ?_))
  cases hfeed : feedBits s bits s.walker 0 with
  | finished w used => exact .respond _ (heffect w (.inl ⟨used, hfeed⟩))
  | noChild w => exact .raise (heffect w (.inr hfeed))
  | absent index => exact .fault _

theorem execDerive_explained (s : State) : Explained .derive s (execDerive s) := by
  refine .unlessFaulted ?_
  cases hwalk : s.rootWalk with
  | stopped why => exact .fault why
  | codes found => exact .respond _ (.derive s found hwalk)

theorem execTmRead_explained (idx : NodeIdx) (sel2 : BitVec 2) (s : State) :
    Explained (.tmRead idx sel2) s (execTmRead idx sel2 s) := by
  refine .ite (fun _ => ?_) (fun _ => .raiseUnchanged)
  cases s.tmGet idx with
  | none => exact .fault _
  | some n => exact .respondUnchanged _

/-- What a command can do: one of its effects, and then it completes or faults. -/
theorem exec_explained (i : Instr) (s : State) : Explained i s (exec i s) := by
  cases i with
  | nop => exact .respondUnchanged _
  | clear => exact .respond _ (.clear s)
  | rdReg r => exact .ite (fun _ => .respondUnchanged _) (fun _ => .raiseUnchanged)
  | ftSet sym count =>
    exact .unlessFaulted (.ite (fun hsym => .respond _ (.ftSet s sym count hsym)) (fun _ => .raiseUnchanged))
  | ftRead sym => exact .ite (fun _ => .respondUnchanged _) (fun _ => .raiseUnchanged)
  | fcByte d =>
    exact .unlessFaulted (.ite (fun _ => .raiseUnchanged) (fun _ => .respond _ (.fcByte s d)))
  | fcEnd => exact .unlessFaulted (.respond _ (.fcEnd s))
  | build =>
    exact .unlessFaulted (.ite (fun _ => .raiseUnchanged) (fun _ =>
      .ite (fun _ => .raiseUnchanged) (fun hpresent => .respond _ (.build s hpresent))))
  | tmRead idx sel2 => exact execTmRead_explained idx sel2 s
  | derive => exact execDerive_explained s
  | ctRead sym sel4 =>
    exact .ite (fun _ => .ite (fun _ => .respondUnchanged _) (fun _ => .respondUnchanged _))
      (fun _ => .raiseUnchanged)
  | encStart =>
    exact .unlessFaulted (.ite (fun _ => .raiseUnchanged) (fun _ => .respond _ (.encStart s)))
  | encSym d =>
    exact .unlessFaulted (.ite (fun _ => .raiseUnchanged) (fun hrun =>
      .ite (fun _ => .raiseUnchanged) (fun _ => .respond _ (.encSym s d (not_not.1 hrun)))))
  | encEnd =>
    exact .unlessFaulted (.ite (fun _ => .raiseUnchanged) (fun hrun =>
      .ite (fun _ => .raiseUnchanged) (fun _ => .respond _ (.encEnd s (not_not.1 hrun)))))
  | decStart =>
    exact .unlessFaulted (.ite (fun _ => .raiseUnchanged) (fun _ =>
      .ite (fun _ => .raiseUnchanged) (fun htree => .respond _ (.decStart s htree))))
  | decBit b => exact decodeBits_explained (.decBit s b)
  | decByte d => exact decodeBits_explained (.decByte s d)
  | decEnd =>
    exact .unlessFaulted (.ite (fun _ => .raiseUnchanged) (fun _ =>
      .ite (fun hrun => .respond _ (.decEnd s hrun)) (fun _ => .respondUnchanged _)))

/-- A command changes nothing but its effects, the latch and the responses. -/
theorem EndsOn.frame {i : Instr} {u t : State} (h : EndsOn i u t) :
    t = { u with errCode := t.errCode, errCmd := t.errCmd, out := t.out } := by
  rcases h with ⟨d, rfl⟩ | ⟨k, -, -, rfl⟩ <;> rfl

/-- A latched fault stands however the command ends (R33). -/
theorem EndsOn.keeps_latched {i : Instr} {u t : State} (h : EndsOn i u t) (hfault : u.errCode ≠ .ok) :
    t.errCode = u.errCode ∧ t.errCmd = u.errCmd := by
  rcases h with ⟨d, rfl⟩ | ⟨k, -, -, rfl⟩
  · exact ⟨rfl, rfl⟩
  · simp [hfault]

/-! ### What every step keeps -/

/-- The induction step for an invariant that says nothing of the ports, the host and the draws: it is kept by every step
when it holds at reset and is kept by every effect of a command and by fault entry. -/
theorem step_keeps {P : State → Prop}
    (hports : ∀ s host out draws, P s → P { s with host := host, out := out, draws := draws })
    (hreset : P State.reset)
    (hfault : ∀ s k w, k ≠ .ok → (k = .eFaulted → s.errCode ≠ .ok) → P s → P (s.afterFault k w))
    (heffect : ∀ i s u, CommandEffect i s u → P s → P u)
    {s t : State} (hs : P s) (hstep : step s = .next t) : P t := by
  have hpresent : ∀ w s t, P s → present w s = .next t → P t := by
    intro w s t hs h
    cases hdec : decode w with
    | instr i =>
      rw [present_of_decode hdec] at h
      obtain ⟨u, hu, hend⟩ := exec_explained i s t h
      have hPu := heffect i s u hu hs
      rcases hend with ⟨d, rfl⟩ | ⟨k, hk, hfaulted, rfl⟩
      · exact hports u _ _ _ hPu
      · exact hfault u k _ hk hfaulted hPu
    | rejected r =>
      rw [present_of_rejected hdec, Host.Outcome.next.injEq] at h
      exact h ▸ hfault s .eIllegal w (by decide) (fun hk => nomatch hk) hs
  rcases step_cases s with ⟨-, h⟩ | ⟨e, rest, -, h⟩ <;> rw [h] at hstep
  · cases hstep
    exact hs
  · cases e with
    | command w => exact hpresent w _ t (hports s rest _ _ hs) hstep
    | reset =>
      cases hstep
      exact hports State.reset _ _ _ hreset
    | commandCutByReset w =>
      obtain ⟨u, -, rfl⟩ := presentCutByReset_next hstep
      exact hports State.reset _ _ _ hreset

end Sys2Proof.Machine
end

section
/-! Who writes what (R20), and how long a fault stays latched (R33). -/

namespace Sys2Proof.Machine

@[simp] theorem State.withBuiltTree_ft (s : State) : s.withBuiltTree.ft = s.ft := rfl
@[simp] theorem State.withBuiltTree_ct (s : State) : s.withBuiltTree.ct = [] := rfl
@[simp] theorem State.withBuiltTree_encSt (s : State) : s.withBuiltTree.encSt = .idle := rfl
@[simp] theorem State.withBuiltTree_encAcc (s : State) : s.withBuiltTree.encAcc = 0 := rfl
@[simp] theorem State.withBuiltTree_encCnt (s : State) : s.withBuiltTree.encCnt = 0 := rfl
@[simp] theorem State.withBuiltTree_decSt (s : State) : s.withBuiltTree.decSt = .idle := rfl
@[simp] theorem State.withBuiltTree_decCur (s : State) : s.withBuiltTree.decCur = 0 := rfl
@[simp] theorem State.withBuiltTree_errCode (s : State) : s.withBuiltTree.errCode = s.errCode := rfl
@[simp] theorem State.withBuiltTree_errCmd (s : State) : s.withBuiltTree.errCmd = s.errCmd := rfl
@[simp] theorem State.withBuiltTree_host (s : State) : s.withBuiltTree.host = s.host := rfl
@[simp] theorem State.withBuiltTree_draws (s : State) : s.withBuiltTree.draws = s.draws := rfl

/-- The table of R20 for the effects of a command: the fields a command's effects may change. -/
theorem CommandEffect.writers {i : Instr} {s u : State} (h : CommandEffect i s u) :
    (u.ft ≠ s.ft → i = .clear ∨ (∃ sym count, i = .ftSet sym count) ∨ (∃ d, i = .fcByte d) ∨ i = .fcEnd) ∧
    (u.tm ≠ s.tm ∨ u.nn ≠ s.nn ∨ u.root ≠ s.root ∨ u.nleaf ≠ s.nleaf → i = .clear ∨ i = .build) ∧
    (u.ct ≠ s.ct → i = .clear ∨ i = .build ∨ i = .derive) ∧
    (u.encSt ≠ s.encSt → i = .clear ∨ i = .build ∨ i = .encStart ∨ i = .encEnd) ∧
    (u.encAcc ≠ s.encAcc ∨ u.encCnt ≠ s.encCnt →
      i = .clear ∨ i = .build ∨ i = .encStart ∨ (∃ d, i = .encSym d) ∨ i = .encEnd) ∧
    (u.decSt ≠ s.decSt ∨ u.decCur ≠ s.decCur →
      i = .clear ∨ i = .build ∨ i = .decStart ∨ (∃ b, i = .decBit b) ∨ (∃ d, i = .decByte d) ∨ i = .decEnd) ∧
    u.host = s.host ∧ u.draws = s.draws := by
  cases h with
  | encSym _ _ hrun => simp [State.packed, hrun]
  | encEnd => simp [State.packed]
  | decBit => simp [State.walked]
  | decByte => simp [State.walked]
  | _ => simp

/-- Settles O17: what a command writes beside the latch and the responses is its effect. -/
theorem writersOfState : Obligations.WritersOfState := by
  unfold Obligations.WritersOfState
  intro i s t h
  obtain ⟨u, heffect, hend⟩ := exec_explained i s t h
  rw [hend.frame]
  exact heffect.writers

/-- A word that decodes to a command is selected by a row of the opcode map that makes this command (R92, R94). -/
theorem exists_row_of_decode {w : Cmd64} {i : Instr} (h : decode w = .instr i) :
    ∃ row ∈ rows, row.selects w = true ∧ row.make w = i := by
  unfold decode at h
  cases hfind : rows.find? (fun row => row.selects w) with
  | some row =>
    rw [hfind] at h
    exact ⟨row, List.mem_of_find?_eq_some hfind, by simpa using List.find?_some hfind, by simpa using h⟩
  | none =>
    rw [hfind] at h
    dsimp only at h
    split at h <;> cases h

/-- A row of the opcode map makes a command of its own opcode. -/
theorem opcode_make {row : Row} (hrow : row ∈ rows) (w : Cmd64) : (row.make w).opcode = row.op := by
  revert row
  simp [rows, Instr.opcode]

/-- CLEAR is one word: its row of the opcode map fixes every bit (R92, R94). -/
theorem decode_eq_clear {w : Cmd64} (h : decode w = .instr .clear) : w = 0x0200000000000000 := by
  obtain ⟨row, hrow, hselects, hmake⟩ := exists_row_of_decode h
  have hop : row.op = 0x02 := by rw [← opcode_make hrow w, hmake, Instr.opcode]
  have hfmt : row.fmt = .z := (by decide : ∀ row ∈ rows, row.op = 0x02 → row.fmt = .z) row hrow hop
  have hw : w &&& BitVec.allOnes 64 = 0x0200000000000000 := by
    simpa [Row.selects, Row.pattern, hop, hfmt, Format.mask] using hselects
  rwa [BitVec.and_allOnes] at hw

/-- No effect but CLEAR's touches the latch (R33, R242). -/
theorem CommandEffect.keeps_latch {i : Instr} {s u : State} (h : CommandEffect i s u) (hi : i ≠ .clear) :
    u.errCode = s.errCode ∧ u.errCmd = s.errCmd := by
  cases h with
  | clear => exact absurd rfl hi
  | _ => exact ⟨rfl, rfl⟩

/-- While a fault is latched, every word but CLEAR's leaves the latch alone (R33, R266). -/
theorem present_keeps_latched {w : Cmd64} {s t : State} (hfault : s.errCode ≠ .ok) (hw : w ≠ 0x0200000000000000)
    (h : present w s = .next t) : t.errCode = s.errCode ∧ t.errCmd = s.errCmd := by
  cases hdec : decode w with
  | instr i =>
    have hi : i ≠ .clear := fun hi => hw (decode_eq_clear (hi ▸ hdec))
    rw [present_of_decode hdec] at h
    obtain ⟨u, heffect, hend⟩ := exec_explained i s t h
    obtain ⟨hcode, hcmd⟩ := heffect.keeps_latch hi
    rw [← hcode, ← hcmd]
    exact hend.keeps_latched (hcode ▸ hfault)
  | rejected r =>
    rw [present_of_rejected hdec, Host.Outcome.next.injEq] at h
    subst h
    simp [hfault]

/-- Settles O13: the one action of the host left is a word that is not CLEAR's. -/
theorem latchHoldsFirstFault : Obligations.LatchHoldsFirstFault := by
  unfold Obligations.LatchHoldsFirstFault
  intro s t hfault hstep hclear hreset hcut
  rcases step_cases s with ⟨-, h⟩ | ⟨e, rest, hhost, h⟩ <;> rw [h] at hstep
  · cases hstep
    exact ⟨rfl, rfl⟩
  · cases e with
    | command w => exact present_keeps_latched (s := s.setHost rest) hfault (fun hw => hclear rest (hw ▸ hhost)) hstep
    | reset => exact absurd hhost (hreset rest)
    | commandCutByReset w => exact absurd hhost (hcut w rest)

end Sys2Proof.Machine
end

section
/-! What RD_REG reads (R34 to R40), and the registers at reset (R47). -/

namespace Sys2Proof.Machine

/-! ### The registers as fields placed in a word -/

theorem State.statusReg_eq_fields (s : State) : s.statusReg =
    placeField (BitVec.ofBool s.treeValid) 0 ||| placeField (BitVec.ofBool s.ctNonempty) 1 |||
      placeField s.encSt.code 2 ||| placeField s.decSt.code 4 ||| placeField (BitVec.ofBool s.faulted) 6 := by
  simp [State.statusReg, bit64, placeField]

theorem State.errReg_eq_field (s : State) : s.errReg = placeField s.errCode.code 0 := by
  simp [State.errReg, placeField]

theorem State.treeInfoReg_eq_fields (s : State) :
    s.treeInfoReg = placeField s.nleaf 32 ||| placeField s.root 16 ||| placeField s.nn 0 := by
  simp [State.treeInfoReg, placeField]

theorem State.encStateReg_eq_fields (s : State) :
    s.encStateReg = placeField s.encCnt 8 ||| placeField s.encAcc 0 := by
  simp [State.encStateReg, placeField]

theorem State.decStateReg_eq_field (s : State) : s.decStateReg = placeField s.decCur 0 := by
  simp [State.decStateReg, placeField]

/-! ### Each register, field by field -/

theorem State.ctNonempty_iff (s : State) : s.ctNonempty = true ↔ ∃ k, k < 257 ∧ s.ctAt k ≠ [] := by
  simp [State.ctNonempty]

theorem State.statusReg_bits (s : State) : s.statusReg.getLsbD 0 = s.treeValid ∧
    s.statusReg.getLsbD 1 = s.ctNonempty ∧ s.statusReg.getLsbD 6 = s.faulted := by
  simp only [State.statusReg_eq_fields, BitVec.getLsbD_or, getLsbD_placeField]
  simp

theorem State.statusReg_fields (s : State) : s.statusReg.extractLsb' 2 2 = s.encSt.code ∧
    s.statusReg.extractLsb' 4 2 = s.decSt.code ∧ s.statusReg.extractLsb' 7 57 = 0 := by
  simp [State.statusReg_eq_fields, BitVec.extractLsb'_or, extract_placeField_same, extract_placeField_other]

theorem State.errReg_fields (s : State) :
    s.errReg.extractLsb' 0 4 = s.errCode.code ∧ s.errReg.extractLsb' 4 60 = 0 := by
  simp [State.errReg_eq_field, extract_placeField_same, extract_placeField_other]

theorem State.treeInfoReg_fields (s : State) :
    s.treeInfoReg.extractLsb' 0 10 = s.nn ∧ s.treeInfoReg.extractLsb' 10 6 = 0 ∧
      s.treeInfoReg.extractLsb' 16 10 = s.root ∧ s.treeInfoReg.extractLsb' 26 6 = 0 ∧
      s.treeInfoReg.extractLsb' 32 9 = s.nleaf ∧ s.treeInfoReg.extractLsb' 41 23 = 0 := by
  simp [State.treeInfoReg_eq_fields, BitVec.extractLsb'_or, extract_placeField_same, extract_placeField_other]

theorem State.encStateReg_fields (s : State) : s.encStateReg.extractLsb' 0 8 = s.encAcc ∧
    s.encStateReg.extractLsb' 8 3 = s.encCnt ∧ s.encStateReg.extractLsb' 11 53 = 0 := by
  simp [State.encStateReg_eq_fields, BitVec.extractLsb'_or, extract_placeField_same, extract_placeField_other]

theorem State.decStateReg_fields (s : State) :
    s.decStateReg.extractLsb' 0 10 = s.decCur ∧ s.decStateReg.extractLsb' 10 54 = 0 := by
  simp [State.decStateReg_eq_field, extract_placeField_same, extract_placeField_other]

theorem State.ftInfoReg_toNat (s : State) :
    s.ftInfoReg.toNat = s.present.length ∧ s.ftInfoReg.toNat ≤ 257 := by
  have hle : s.present.length ≤ 257 := s.present_length_le
  have heq : s.ftInfoReg.toNat = s.present.length := by
    rw [State.ftInfoReg, BitVec.toNat_ofNat, Nat.mod_eq_of_lt (by omega)]
  exact ⟨heq, heq ▸ hle⟩

theorem exec_rdReg {s : State} {r : BitVec 4} (hr : r.toNat ≤ 6) :
    exec (.rdReg r) s = .next (s.completed [] (s.readReg r)) := by
  simp [exec, execRdReg, regInRange, hr, respond_eq]

/-- Settles O19: RD_REG completes with the register, whose fields are read one by one. -/
theorem registerReads : Obligations.RegisterReads := by
  unfold Obligations.RegisterReads
  intro s r hr
  refine ⟨s.readReg r, ?_, ?_, ?_, ?_, ?_, ?_, ?_, ?_⟩
  · simpa [State.completed] using exec_rdReg hr
  all_goals intro h; simp only [State.readReg, h]
  · obtain ⟨htree, hct, hfault⟩ := s.statusReg_bits
    obtain ⟨henc, hdec, hzero⟩ := s.statusReg_fields
    exact ⟨htree, hct ▸ s.ctNonempty_iff, henc, hdec, hfault, hzero⟩
  · exact s.errReg_fields
  · rfl
  · exact s.treeInfoReg_fields
  · exact s.encStateReg_fields
  · exact s.decStateReg_fields
  · exact s.ftInfoReg_toNat

/-! ### At reset -/

theorem State.reset_present : State.reset.present = [] := by
  simp [State.present, State.ftAt, tableRead]

theorem State.reset_ctNonempty : State.reset.ctNonempty = false := by
  simp [State.ctNonempty, State.ctAt, tableRead]

/-- R47: all seven registers read 0 at reset. -/
theorem State.reset_readReg (r : BitVec 4) (hr : r.toNat ≤ 6) : State.reset.readReg r = 0 := by
  unfold State.readReg
  generalize r.toNat = n at hr
  interval_cases n
  · simp only [State.statusReg, State.reset_ctNonempty]
    rfl
  · rfl
  · rfl
  · rfl
  · rfl
  · rfl
  · simp only [State.ftInfoReg, State.reset_present]
    rfl

/-- Settles O8: every field of the reset state is written out in its definition (R47). -/
theorem resetValues : Obligations.ResetValues := by
  unfold Obligations.ResetValues
  exact ⟨fun _ => ⟨rfl, rfl, rfl⟩, rfl, rfl, rfl, rfl, rfl, rfl, rfl, rfl, rfl, rfl, rfl, State.reset_readReg⟩

end Sys2Proof.Machine
end

section
/-! The invariants of the encoder registers and of the latch (R31, R33): on which fields they rest, and that every step
keeps them. -/

namespace Sys2Proof.Machine

theorem EncInv.congr {s t : State} (h : EncInv s) (hst : t.encSt = s.encSt) (hacc : t.encAcc = s.encAcc)
    (hcnt : t.encCnt = s.encCnt) : EncInv t where
  lowBits := by simpa only [hacc, hcnt] using h.lowBits
  idle := by simpa only [hst, hacc, hcnt] using h.idle

theorem LatchInv.congr {s t : State} (h : LatchInv s) (hcode : t.errCode = s.errCode) (hcmd : t.errCmd = s.errCmd) :
    LatchInv t where
  clear := by simpa only [hcode, hcmd] using h.clear
  notRefusal := by simpa only [hcode] using h.notRefusal

/-! ### The encoder -/

/-- An empty accumulator is fit for every ENC_ST. -/
theorem EncInv.of_empty {s : State} (hacc : s.encAcc = 0) (hcnt : s.encCnt = 0) : EncInv s where
  lowBits := by simp [hacc]
  idle := fun _ => ⟨hacc, hcnt⟩

/-- While packing, a packer whose unused bits are 0 is all R31 asks for. -/
theorem EncInv.packed_run (s : State) {p : Packer} (h : p.clean) : EncInv (s.packed .run p) where
  lowBits := h
  idle := fun hne => absurd rfl hne

theorem EncInv.packer_clean {s : State} (h : EncInv s) : s.packer.clean := h.lowBits

/-- A flush empties the accumulator: there was nothing in it, or its byte has left (R194). -/
theorem flush_empty {p : Packer} (h : p.clean) : (flush p).acc = 0 ∧ (flush p).cnt = 0 := by
  obtain ⟨-, hcnt, hsame, hzero⟩ := flush_bits p h
  refine ⟨?_, hcnt⟩
  by_cases hc : p.cnt = 0
  · have hbits : ∀ j, j < 8 → p.acc.getLsbD j = false := by simpa [Packer.clean, hc] using h
    rw [hsame hc]
    exact BitVec.eq_of_getLsbD_eq (fun j hj => by simp [hbits j hj])
  · exact hzero hc

theorem CommandEffect.keeps_encInv {i : Instr} {s u : State} (h : CommandEffect i s u) (hs : EncInv s) : EncInv u := by
  cases h with
  | encSym _ d hrun => exact .packed_run s (pushCode_bits _ _ hs.packer_clean).2
  | encEnd =>
    obtain ⟨hacc, hcnt⟩ := flush_empty (pushCode_bits (s.ctAt eodIndex) _ hs.packer_clean).2
    exact .of_empty hacc hcnt
  | clear => exact .of_empty rfl rfl
  | build => exact .of_empty rfl rfl
  | encStart => exact .of_empty rfl rfl
  | _ => exact hs.congr rfl rfl rfl

/-! ### The latch -/

theorem LatchInv.afterFault {s : State} {k : Rstat} {w : Cmd64} (hk : k ≠ .ok)
    (hfaulted : k = .eFaulted → s.errCode ≠ .ok) (hs : LatchInv s) : LatchInv (s.afterFault k w) := by
  by_cases hok : s.errCode = .ok
  · have hcode : (s.afterFault k w).errCode = k := by simp [hok]
    exact ⟨fun h => absurd (hcode.symm.trans h) hk, fun h => hfaulted (hcode.symm.trans h) hok⟩
  · exact hs.congr (by simp [hok]) (by simp [hok])

theorem LatchInv.cleared (s : State) : LatchInv s.cleared := ⟨fun _ => rfl, by simp⟩

theorem CommandEffect.keeps_latchInv {i : Instr} {s u : State} (h : CommandEffect i s u) (hs : LatchInv s) :
    LatchInv u := by
  by_cases hi : i = .clear
  · cases h with
    | clear => exact .cleared s
    | unchanged => exact hs
    | _ => cases hi
  · obtain ⟨hcode, hcmd⟩ := h.keeps_latch hi
    exact hs.congr hcode hcmd

/-! ### Every step -/

theorem EncInv.reset : EncInv State.reset := .of_empty rfl rfl

theorem LatchInv.reset : LatchInv State.reset := ⟨fun _ => rfl, by simp⟩

/-- Settles O50, by the invariant induction step for both at once. -/
theorem stepKeepsEncoderAndLatch : Obligations.StepKeepsEncoderAndLatch := by
  unfold Obligations.StepKeepsEncoderAndLatch
  intro s t henc hlatch hstep
  refine step_keeps (P := fun s => EncInv s ∧ LatchInv s) ?_ ⟨.reset, .reset⟩ ?_ ?_ ⟨henc, hlatch⟩ hstep
  · rintro s host out draws ⟨henc, hlatch⟩
    exact ⟨henc.congr rfl rfl rfl, hlatch.congr rfl rfl⟩
  · rintro s k w hk hfaulted ⟨henc, hlatch⟩
    exact ⟨henc.congr rfl rfl rfl, hlatch.afterFault hk hfaulted⟩
  · rintro i s u heffect ⟨henc, hlatch⟩
    exact ⟨heffect.keeps_encInv henc, heffect.keeps_latchInv hlatch⟩

end Sys2Proof.Machine
end

section
/-! The tree BUILD leaves (R26, R27, R141): what the merge loop keeps, and from it the tree invariants. -/

namespace Sys2Proof.Machine

/-! ### The records of a forest -/

/-- How many times record `j` is named as a child in a list of records. -/
def timesChild (nodes : List NodeRec) (j : Nat) : Nat :=
  (nodes.map (fun n => n.children.countP (fun c => decide (c.toNat = j)))).sum

/-- `n` is fit to be the internal record at index `k` of a tree over `nleaf` leaves (R26, R27). -/
structure IsParent (nleaf : Nat) (nodes : List NodeRec) (k : Nat) (n : NodeRec) : Prop where
  sym : n.sym = .internal
  left : n.left.isSome = true
  right : n.right.isSome = decide (nleaf ≠ 1)
  below : ∀ c ∈ n.children, c.toNat < k
  weight : n.weight.toNat = (n.children.map (fun c => (weightAt nodes c.toNat).toNat)).sum

/-- The records made so far over `leaves`, with the roots `live` that have no parent yet: R26 and R27 for them, and the
whole weight in the roots (R149). -/
structure Forest (leaves nodes : List NodeRec) (live : List Nat) : Prop where
  leavesFirst : leaves <+: nodes
  parents : ∀ k, leaves.length ≤ k → k < nodes.length → IsParent leaves.length nodes k (nodes.getD k NodeRec.zero)
  childOfOne : ∀ j, timesChild nodes j = if j < nodes.length ∧ j ∉ live then 1 else 0
  weight : (live.map (fun j => (weightAt nodes j).toNat)).sum = (leaves.map (fun n => n.weight.toNat)).sum

/-- What the merge loop keeps (R141): the live nodes are different records, the newest record is live, and a merge
trades one live node for one record. -/
structure Merging (leaves nodes : List NodeRec) (live : List Nat) : Prop extends Forest leaves nodes live where
  nodup : live.Nodup
  exist : ∀ j ∈ live, j < nodes.length
  newest : nodes.length - 1 ∈ live
  size : nodes.length + live.length = 2 * leaves.length

/-! ### Reading an extended list of records -/

theorem weightAt_append {nodes more : List NodeRec} {i : Nat} (h : i < nodes.length) :
    weightAt (nodes ++ more) i = weightAt nodes i := by
  rw [weightAt, weightAt, List.getD_append _ _ _ _ h]

theorem timesChild_append (a b : List NodeRec) (j : Nat) : timesChild (a ++ b) j = timesChild a j + timesChild b j := by
  simp [timesChild]

theorem timesChild_eq_zero {nodes : List NodeRec} (h : ∀ n ∈ nodes, n.children = []) (j : Nat) :
    timesChild nodes j = 0 := by
  simp only [timesChild, List.sum_eq_zero_iff, List.forall_mem_map]
  exact fun n hn => by simp [h n hn]

theorem IsParent.append {nleaf k : Nat} {nodes : List NodeRec} {n : NodeRec} (h : IsParent nleaf nodes k n)
    (hk : k ≤ nodes.length) (more : List NodeRec) : IsParent nleaf (nodes ++ more) k n where
  sym := h.sym
  left := h.left
  right := h.right
  below := h.below
  weight := by
    rw [h.weight]
    congr 1
    exact List.map_congr_left (fun c hc => by rw [weightAt_append ((h.below c hc).trans_le hk)])

/-! ### One merge -/

/-- Nothing merged yet: every leaf is live. -/
theorem Merging.leaves {leaves : List NodeRec} (hne : leaves ≠ []) (hleaf : ∀ n ∈ leaves, n.children = []) :
    Merging leaves leaves (List.range leaves.length) where
  leavesFirst := List.prefix_refl _
  parents := fun k hge hlt => absurd hlt (by omega)
  childOfOne := fun j => by simp [timesChild_eq_zero hleaf]
  weight := by
    congr 1
    apply List.ext_getElem (by simp)
    intro i hi hi'
    have : i < leaves.length := by simpa using hi'
    simp [weightAt, this]
  nodup := List.nodup_range
  exist := by simp
  newest := by
    have := List.length_pos_iff.2 hne
    simp only [List.mem_range]
    omega
  size := by rw [List.length_range, two_mul]

theorem children_mergeNode (nodes : List NodeRec) (a b : Nat) :
    (mergeNode nodes a b).children = [BitVec.ofNat 10 a, BitVec.ofNat 10 b] := rfl

section
variable {leaves nodes : List NodeRec} {a b : Nat} {rest : List Nat}

theorem Forest.weight_merge_lt (h : Forest leaves nodes (a :: b :: rest))
    (hsum : (leaves.map (fun n => n.weight.toNat)).sum < 2 ^ 41) :
    (weightAt nodes a).toNat + (weightAt nodes b).toNat < 2 ^ 41 := by
  have := h.weight
  simp only [List.map_cons, List.sum_cons] at this
  omega

/-- R144: the weight of a merge does not wrap. -/
theorem toNat_weight_mergeNode (h : (weightAt nodes a).toNat + (weightAt nodes b).toNat < 2 ^ 41) :
    (mergeNode nodes a b).weight.toNat = (weightAt nodes a).toNat + (weightAt nodes b).toNat := by
  rw [mergeNode, BitVec.toNat_add, Nat.mod_eq_of_lt h]

/-- The parent of two existing records, at the next free index (R141, R144, R145). -/
theorem isParent_mergeNode {nleaf : Nat} (hleaf : nleaf ≠ 1) (ha : a < nodes.length) (hb : b < nodes.length)
    (hlen : nodes.length ≤ 1024) (hlt : (weightAt nodes a).toNat + (weightAt nodes b).toNat < 2 ^ 41) :
    IsParent nleaf nodes nodes.length (mergeNode nodes a b) where
  sym := rfl
  left := rfl
  right := (decide_eq_true hleaf).symm
  below := by
    simp only [children_mergeNode, List.forall_mem_cons, BitVec.toNat_ofNat]
    rw [Nat.mod_eq_of_lt (by omega), Nat.mod_eq_of_lt (by omega)]
    exact ⟨ha, hb, by simp⟩
  weight := by
    simp only [toNat_weight_mergeNode hlt, children_mergeNode, List.map_cons, List.map_nil, List.sum_cons,
      List.sum_nil, BitVec.toNat_ofNat]
    rw [Nat.mod_eq_of_lt (by omega), Nat.mod_eq_of_lt (by omega), Nat.add_zero]

theorem timesChild_mergeNode (ha : a < 1024) (hb : b < 1024) (hab : a ≠ b) (j : Nat) :
    timesChild [mergeNode nodes a b] j = if j = a ∨ j = b then 1 else 0 := by
  simp only [timesChild, List.map_cons, List.map_nil, List.sum_cons, List.sum_nil, children_mergeNode,
    List.countP_cons, List.countP_nil, BitVec.toNat_ofNat, decide_eq_true_eq]
  rw [Nat.mod_eq_of_lt ha, Nat.mod_eq_of_lt hb]
  split_ifs <;> omega

theorem Merging.perm {live live' : List Nat} (h : Merging leaves nodes live) (hperm : live.Perm live') :
    Merging leaves nodes live' where
  leavesFirst := h.leavesFirst
  parents := h.parents
  childOfOne := by simpa only [hperm.mem_iff] using h.childOfOne
  weight := by rw [← h.weight, (hperm.map _).sum_eq]
  nodup := hperm.nodup_iff.1 h.nodup
  exist := fun j hj => h.exist j (hperm.mem_iff.2 hj)
  newest := hperm.mem_iff.1 h.newest
  size := by rw [← hperm.length_eq, h.size]

/-- One merge of two live nodes keeps what the merge loop keeps. -/
theorem Merging.merge (hlen : leaves.length ≤ Config.nsym)
    (hsum : (leaves.map (fun n => n.weight.toNat)).sum < 2 ^ 41) (h : Merging leaves nodes (a :: b :: rest)) :
    Merging leaves (nodes ++ [mergeNode nodes a b]) (rest ++ [nodes.length]) := by
  have ha : a < nodes.length := h.exist a (by simp)
  have hb : b < nodes.length := h.exist b (by simp)
  have hrest : ∀ j ∈ rest, j < nodes.length := fun j hj => h.exist j (by simp [hj])
  obtain ⟨⟨hab, harest⟩, hbrest, hnodup⟩ : (a ≠ b ∧ a ∉ rest) ∧ b ∉ rest ∧ rest.Nodup := by
    simpa only [List.nodup_cons, List.mem_cons, not_or] using h.nodup
  have hsize := h.size
  have hle := h.leavesFirst.length_le
  simp only [List.length_cons, Config.nsym] at hsize hlen
  have hlt := h.weight_merge_lt hsum
  exact {
    leavesFirst := h.leavesFirst.trans (List.prefix_append _ _)
    parents := by
      intro k hge hk
      rcases Nat.lt_or_ge k nodes.length with hk' | hk'
      · rw [List.getD_append _ _ _ _ hk']
        exact (h.parents k hge hk').append hk'.le _
      · obtain rfl : k = nodes.length := by simp only [List.length_append, List.length_singleton] at hk; omega
        rw [List.getD_append_right _ _ _ _ hk', Nat.sub_self]
        exact (isParent_mergeNode (by omega) ha hb (by omega) hlt).append le_rfl _
    childOfOne := by
      intro j
      rw [timesChild_append, h.childOfOne, timesChild_mergeNode (by omega) (by omega) hab]
      simp only [List.length_append, List.length_singleton, List.mem_append, List.mem_cons, List.not_mem_nil, or_false]
      by_cases hj : j = a ∨ j = b
      · have hj' : j < nodes.length ∧ j ∉ rest := by rcases hj with rfl | rfl <;> exact ⟨‹_›, ‹_›⟩
        grind
      · have := hrest j
        grind
    weight := by
      rw [← h.weight]
      simp only [List.map_append, List.sum_append, List.map_cons, List.map_nil, List.sum_cons, List.sum_nil]
      have hold : rest.map (fun j => (weightAt (nodes ++ [mergeNode nodes a b]) j).toNat) =
          rest.map (fun j => (weightAt nodes j).toNat) :=
        List.map_congr_left (fun j hj => by rw [weightAt_append (hrest j hj)])
      have hnew : weightAt (nodes ++ [mergeNode nodes a b]) nodes.length = (mergeNode nodes a b).weight := by
        simp [weightAt]
      rw [hold, hnew, toNat_weight_mergeNode hlt]
      omega
    nodup := by
      rw [List.nodup_append_comm, List.singleton_append, List.nodup_cons]
      exact ⟨fun hmem => (hrest _ hmem).ne rfl, hnodup⟩
    exist := by
      simp only [List.length_append, List.length_singleton, List.mem_append, List.mem_singleton]
      rintro j (hj | rfl)
      · exact (hrest j hj).trans (Nat.lt_succ_self _)
      · exact Nat.lt_succ_self _
    newest := by simp
    size := by
      simp only [List.length_append, List.length_singleton]
      omega }

/-! ### The whole tree -/

/-- The merge loop ends in one tree whose root is the last record (R26, R149). -/
theorem Merging.mergeLoop_forest (hlen : leaves.length ≤ Config.nsym)
    (hsum : (leaves.map (fun n => n.weight.toNat)).sum < 2 ^ 41) {live : List Nat} {fuel : Nat}
    (h : Merging leaves nodes live) (hfuel : live.length ≤ fuel) :
    Forest leaves (mergeLoop fuel nodes live) [(mergeLoop fuel nodes live).length - 1] := by
  induction fuel generalizing nodes live with
  | zero =>
    have hmem := h.newest
    rw [List.length_eq_zero_iff.1 (Nat.le_zero.1 hfuel)] at hmem
    cases hmem
  | succ fuel ih =>
    match live with
    | [] => cases h.newest
    | [j] =>
      rw [show mergeLoop (fuel + 1) nodes [j] = nodes from rfl, List.mem_singleton.1 h.newest]
      exact h.toForest
    | i :: j :: live =>
      obtain ⟨k, rest, herase, hpass, hshorter⟩ := mergeLoop_pass fuel nodes i j live
      have hfirst := List.perm_cons_erase (firstLive_mem nodes i (j :: live))
      rw [herase] at hfirst
      have hsecond := List.perm_cons_erase (firstLive_mem nodes k rest)
      rw [hpass]
      exact ih ((h.perm (hfirst.trans (hsecond.cons _))).merge hlen hsum) (by simp only [hshorter, List.length_cons] at hfuel ⊢; omega)

/-- The tree of one leaf: the internal root at index 1 over the leaf (R143). -/
theorem forest_sole {leaf : NodeRec} (hleaf : leaf.children = []) : Forest [leaf] [leaf, soleRoot leaf] [1] where
  leavesFirst := ⟨[soleRoot leaf], rfl⟩
  parents := by
    intro k hge hlt
    obtain rfl : k = 1 := by simp only [List.length_cons, List.length_nil] at hge hlt; omega
    exact ⟨rfl, rfl, rfl, by simp [soleRoot, NodeRec.children], by simp [soleRoot, NodeRec.children, weightAt]⟩
  childOfOne := by
    intro j
    have hroot : (soleRoot leaf).children = [0] := rfl
    have htimes : timesChild [leaf, soleRoot leaf] j = if j = 0 then 1 else 0 := by
      simp [timesChild, hleaf, hroot, eq_comm]
    have hiff : j = 0 ↔ j < [leaf, soleRoot leaf].length ∧ j ∉ [1] := by
      simp only [List.length_cons, List.length_nil, List.mem_singleton]
      omega
    rw [htimes, if_congr hiff rfl rfl]
  weight := by simp [weightAt, soleRoot]

theorem treeOfLeaves_forest (hne : leaves ≠ []) (hleaf : ∀ n ∈ leaves, n.children = [])
    (hlen : leaves.length ≤ Config.nsym) (hsum : (leaves.map (fun n => n.weight.toNat)).sum < 2 ^ 41) :
    Forest leaves (treeOfLeaves leaves) [(treeOfLeaves leaves).length - 1] := by
  match leaves with
  | [] => exact absurd rfl hne
  | [leaf] => exact forest_sole (hleaf leaf (by simp))
  | a :: b :: rest => exact (Merging.leaves hne hleaf).mergeLoop_forest hlen hsum (by simp)

end

/-! ### The leaves BUILD inserts -/

theorem symCode_symOfIndex {k : Nat} (hk : k < Config.nsym) : (symCode (symOfIndex k)).toNat = k := by
  simp only [Config.nsym] at hk
  unfold symOfIndex
  split
  · simp only [symCode, BitVec.toNat_setWidth, BitVec.toNat_ofNat]
    omega
  · obtain rfl : k = 0x100 := by omega
    rfl

theorem symOfIndex_ne_internal (k : Nat) : symOfIndex k ≠ .internal := by
  unfold symOfIndex
  split <;> simp

theorem toNat_weight_leafNode (sym : Nat) (count : Count) : (leafNode sym count).weight.toNat = count.toNat := by
  have := count.isLt
  simp only [leafNode, BitVec.toNat_setWidth]
  exact Nat.mod_eq_of_lt (by omega)

theorem State.getD_leaves {s : State} {k : Nat} (hk : k < s.present.length) :
    s.leaves.getD k NodeRec.zero = leafNode s.present[k] (s.ftAt s.present[k]) := by
  rw [List.getD_eq_getElem _ _ (by simpa using hk)]
  simp [State.leaves]

theorem State.children_of_mem_leaves {s : State} : ∀ n ∈ s.leaves, n.children = [] := by
  simp only [State.leaves, List.forall_mem_map]
  exact fun _ _ => rfl

/-- R144: the weights of all leaves together fit 41 bits. -/
theorem State.sum_leaves_lt (s : State) : (s.leaves.map (fun n => n.weight.toNat)).sum < 2 ^ 41 := by
  have hle : ∀ w ∈ s.leaves.map (fun n => n.weight.toNat), w ≤ 2 ^ 32 := by
    simp only [State.leaves, List.map_map, List.forall_mem_map, Function.comp_apply, toNat_weight_leafNode]
    exact fun k _ => (s.ftAt k).isLt.le
  have hsum := List.sum_le_card_nsmul _ _ hle
  have hlen := s.present_length_le
  simp only [List.length_map, State.leaves_length, smul_eq_mul, Config.nsym] at hsum hlen
  omega

/-- The records of the tree BUILD makes. -/
theorem State.forest (s : State) (hpresent : s.present ≠ []) :
    Forest s.leaves (treeOfLeaves s.leaves) [(treeOfLeaves s.leaves).length - 1] :=
  treeOfLeaves_forest (by simpa [State.leaves] using hpresent) s.children_of_mem_leaves
    (by simpa using s.present_length_le) s.sum_leaves_lt

end Sys2Proof.Machine
end

section
/-! The tree invariants of the state BUILD leaves (R26, R27, R144). -/

namespace Sys2Proof.Machine

/-! ### TM, NN, ROOT and NLEAF after BUILD -/

theorem State.withBuiltTree_tmAt (s : State) (k : Nat) :
    s.withBuiltTree.tmAt k = (treeOfLeaves s.leaves).getD k NodeRec.zero :=
  tableRead_ofList _ k

theorem State.withBuiltTree_nn (s : State) : s.withBuiltTree.nn.toNat = (treeOfLeaves s.leaves).length := by
  have hle : (treeOfLeaves s.leaves).length ≤ 513 := treeOfLeaves_length_le s
  exact (BitVec.toNat_ofNat ..).trans (Nat.mod_eq_of_lt (by omega))

theorem State.withBuiltTree_root (s : State) : s.withBuiltTree.root.toNat = (treeOfLeaves s.leaves).length - 1 := by
  have hle : (treeOfLeaves s.leaves).length ≤ 513 := treeOfLeaves_length_le s
  exact (BitVec.toNat_ofNat ..).trans (Nat.mod_eq_of_lt (by omega))

theorem State.withBuiltTree_nleaf (s : State) : s.withBuiltTree.nleaf.toNat = s.leaves.length := by
  have hle : s.present.length ≤ 257 := s.present_length_le
  rw [State.leaves_length]
  exact (BitVec.toNat_ofNat ..).trans (Nat.mod_eq_of_lt (by omega))

theorem State.withBuiltTree_weightAt (s : State) (k : Nat) :
    (s.withBuiltTree.tmAt k).weight = weightAt (treeOfLeaves s.leaves) k := by
  rw [State.withBuiltTree_tmAt, weightAt]

/-- Counting the parents in TM is counting them in the list of records that TM holds. -/
theorem timesChildBelow_eq_timesChild {s : State} {nodes : List NodeRec}
    (htm : ∀ k, s.tmAt k = nodes.getD k NodeRec.zero) (j : Nat) :
    s.timesChildBelow nodes.length j = timesChild nodes j := by
  unfold State.timesChildBelow timesChild
  congr 1
  apply List.ext_getElem (by simp)
  intro k hk _
  have : k < nodes.length := by simpa using hk
  simp [htm, this]

/-- The leaf records come first and are those BUILD inserted. -/
theorem State.withBuiltTree_leaf {s : State} (hpresent : s.present ≠ []) {k : Nat} (hk : k < s.present.length) :
    s.withBuiltTree.tmAt k = leafNode s.present[k] (s.ftAt s.present[k]) := by
  obtain ⟨more, hmore⟩ := (s.forest hpresent).leavesFirst
  rw [State.withBuiltTree_tmAt, ← hmore, List.getD_append _ _ _ _ (by simpa using hk), State.getD_leaves hk]

/-- The tree invariants hold of the tree BUILD leaves (R26, R27, R144). -/
theorem State.withBuiltTree_treeInv {s : State} (hpresent : s.present ≠ []) : TreeInv s.withBuiltTree := by
  have hforest := s.forest hpresent
  have hlength := treeOfLeaves_length s.leaves
  have hpos : 0 < s.leaves.length := by simpa using List.length_pos_iff.2 hpresent
  have hle : s.leaves.length ≤ 257 := by simpa using s.present_length_le
  rw [if_neg hpos.ne'] at hlength
  have hparent : ∀ k, k < s.withBuiltTree.nn.toNat → s.withBuiltTree.nleaf.toNat ≤ k →
      IsParent s.leaves.length (treeOfLeaves s.leaves) k (s.withBuiltTree.tmAt k) := by
    intro k hk hge
    rw [State.withBuiltTree_tmAt]
    exact hforest.parents k (s.withBuiltTree_nleaf ▸ hge) (s.withBuiltTree_nn ▸ hk)
  exact {
    leafCount := by rw [State.withBuiltTree_nleaf]; omega
    nodeCount := by rw [State.withBuiltTree_nn, State.withBuiltTree_nleaf, hlength]
    rootLast := by
      rw [State.withBuiltTree_root, State.withBuiltTree_nn]
      split at hlength <;> omega
    leaves := by
      intro k hk
      rw [State.withBuiltTree_nleaf, State.leaves_length] at hk
      rw [State.withBuiltTree_leaf hpresent hk]
      have hcount := ((s.mem_present _).1 (List.getElem_mem hk)).2
      refine ⟨rfl, symOfIndex_ne_internal _, fun hzero => hcount (BitVec.eq_of_toNat_eq ?_)⟩
      rw [← toNat_weight_leafNode, hzero]
      rfl
    ascending := by
      intro k hk
      rw [State.withBuiltTree_nleaf, State.leaves_length] at hk
      rw [State.withBuiltTree_leaf hpresent hk, State.withBuiltTree_leaf hpresent (by omega : k < s.present.length)]
      simp only [leafNode]
      rw [symCode_symOfIndex ((s.mem_present _).1 (List.getElem_mem _)).1,
        symCode_symOfIndex ((s.mem_present _).1 (List.getElem_mem _)).1]
      exact List.pairwise_iff_getElem.1 s.present_sorted _ _ _ _ (Nat.lt_succ_self k)
    internals := by
      intro k hk hge
      have h := hparent k hk hge
      exact ⟨h.sym, h.left, by rw [h.right, State.withBuiltTree_nleaf]⟩
    childBelow := by
      intro k hk c hc
      rcases Nat.lt_or_ge k s.present.length with hleaf | hge
      · rw [State.withBuiltTree_leaf hpresent hleaf] at hc
        cases hc
      · exact (hparent k hk (by rwa [State.withBuiltTree_nleaf, State.leaves_length])).below c hc
    weights := by
      intro k hk hge
      rw [(hparent k hk hge).weight]
      simp only [State.withBuiltTree_weightAt]
    oneParent := by
      intro j hj
      rw [State.withBuiltTree_nn] at hj ⊢
      rw [timesChildBelow_eq_timesChild s.withBuiltTree_tmAt, hforest.childOfOne, State.withBuiltTree_root]
      simp [hj]
    unused := by
      intro k _ hge
      rw [State.withBuiltTree_nn] at hge
      rw [State.withBuiltTree_tmAt, List.getD_eq_default _ _ hge] }

/-- BUILD without a fault leaves the tree of a table that is not empty. -/
theorem exec_build_ok {s t : State} (h : exec .build s = .next t) (hs : s.errCode = .ok) (ht : t.errCode = .ok) :
    s.present ≠ [] ∧ t = s.withBuiltTree.completed [] s.withBuiltTree.treeInfoReg := by
  have hraise : ∀ k, k ≠ .ok → raise k (encode .build) s ≠ .next t := by
    intro k hk hr
    rw [raise_next] at hr
    simp [hr, hs, hk] at ht
  rw [exec, execBuild, unlessFaulted_ok hs] at h
  split at h
  · exact absurd h (hraise _ (by decide))
  · split at h
    · exact absurd h (hraise _ (by decide))
    · next hpresent => exact ⟨hpresent, respond_next.1 h⟩

/-- The tree invariants rest on the four elements of the tree. -/
theorem TreeInv.congr {s t : State} (h : TreeInv s) (htm : t.tm = s.tm) (hnn : t.nn = s.nn) (hroot : t.root = s.root)
    (hnleaf : t.nleaf = s.nleaf) : TreeInv t := by
  have htmAt : t.tmAt = s.tmAt := by
    funext k
    simp only [State.tmAt, htm]
  have htimes : t.timesChildBelow = s.timesChildBelow := by
    funext k j
    simp only [State.timesChildBelow, htmAt]
  constructor <;> simp only [htmAt, htimes, hnn, hroot, hnleaf]
  exacts [h.leafCount, h.nodeCount, h.rootLast, h.leaves, h.ascending, h.internals, h.childBelow, h.weights,
    h.oneParent, h.unused]

/-- Settles O26, from what the merge loop keeps. -/
theorem buildMakesTree : Obligations.BuildMakesTree := by
  unfold Obligations.BuildMakesTree
  intro s t hs h ht
  obtain ⟨hpresent, rfl⟩ := exec_build_ok h hs ht
  exact (State.withBuiltTree_treeInv hpresent).congr rfl rfl rfl rfl

end Sys2Proof.Machine
end

section
/-! What every command keeps of the tables, the tree, the code table and the decoder (R26, R27, R30, R32, R60). -/

namespace Sys2Proof.Machine

/-! ### The tables -/

theorem State.withBuiltTree_wf {s : State} (hs : Memory.wf s = true) : Memory.wf s.withBuiltTree = true := by
  have htree := Memory.wf_setTree s (treeOfLeaves s.leaves) s.withBuiltTree.nn s.withBuiltTree.root
    s.withBuiltTree.nleaf (treeOfLeaves_length_le s) hs
  have h := Memory.wf_setCt _ [] rfl htree
  exact h

theorem CommandEffect.keeps_memoryWf {i : Instr} {s u : State} (h : CommandEffect i s u) (hs : Memory.wf s = true) :
    Memory.wf u = true := by
  cases h with
  | clear => exact Memory.wf_cleared s
  | ftSet _ sym _ hsym =>
    have hlt : sym.toNat ≤ 0x100 := of_decide_eq_true hsym
    exact Memory.wf_ftPut s _ _ (Nat.lt_succ_of_le hlt) hs
  | fcByte _ d => exact Memory.wf_ftPut s _ _ (d.isLt.trans (by decide)) hs
  | fcEnd => exact Memory.wf_ftPut s _ _ (by decide) hs
  | build => exact State.withBuiltTree_wf hs
  | derive _ found hwalk => exact Memory.wf_setCt s _ (tableWf_codeTable found (rootWalk_index_lt s found hwalk)) hs
  | _ => exact hs

/-! ### The tree -/

/-- R26: there is no tree and nothing of one, or a tree with all the tree invariants. -/
def State.treeSound (s : State) : Prop := s.noTree ∨ (s.nn ≠ 0 ∧ TreeInv s)

theorem State.treeSound.congr {s t : State} (h : s.treeSound) (htm : t.tm = s.tm) (hnn : t.nn = s.nn)
    (hroot : t.root = s.root) (hnleaf : t.nleaf = s.nleaf) : t.treeSound := by
  rcases h with h | ⟨hne, h⟩
  · exact .inl (by simpa only [State.noTree, htm, hnn, hroot, hnleaf] using h)
  · exact .inr ⟨hnn ▸ hne, h.congr htm hnn hroot hnleaf⟩

theorem State.treeSound.treeInv {s : State} (h : s.treeSound) (hnn : s.nn ≠ 0) : TreeInv s := by
  rcases h with h | ⟨-, h⟩
  · exact absurd h.1 hnn
  · exact h

theorem State.treeSound_cleared (s : State) : s.cleared.treeSound := .inl ⟨rfl, rfl, rfl, rfl⟩

/-- A tree has at least one leaf, so NN is not 0. -/
theorem TreeInv.nn_ne_zero {s : State} (h : TreeInv s) : s.nn ≠ 0 := by
  have hlast := h.rootLast
  intro hzero
  simp [hzero] at hlast

theorem CommandEffect.keeps_treeSound {i : Instr} {s u : State} (h : CommandEffect i s u) (hs : s.treeSound) :
    u.treeSound := by
  cases h with
  | clear => exact s.treeSound_cleared
  | build _ hpresent =>
    have htree := State.withBuiltTree_treeInv hpresent
    exact .inr ⟨htree.nn_ne_zero, htree⟩
  | _ => exact hs.congr rfl rfl rfl rfl

/-! ### The code table -/

theorem CodeInv.congr {s t : State} (h : CodeInv s) (htm : t.tm = s.tm) (hnn : t.nn = s.nn) (hroot : t.root = s.root)
    (hct : t.ct = s.ct) : CodeInv t where
  derived := by simpa only [hct, rootWalk_congr htm hnn hroot] using h.derived
  lengths := by simpa only [State.ctAt, hct] using h.lengths

theorem CodeInv.of_empty {s : State} (hct : s.ct = []) : CodeInv s where
  derived := .inl hct
  lengths := by simp [State.ctAt, hct, tableRead]

/-- A walk makes its path longer by fewer edges than it has records (R171). -/
theorem walk_code_length (s : State) (fuel : Nat) (i : NodeIdx) (path : List Bool) (found : List (Nat × List Bool))
    (h : walk s fuel i path = .codes found) : ∀ e ∈ found, e.2.length < path.length + fuel := by
  induction fuel generalizing i path found with
  | zero => cases h
  | succ fuel ih =>
    have hchild : ∀ (child : Option NodeIdx) (b : Bool) (l : List (Nat × List Bool)),
        (match child with
          | none => WalkResult.codes []
          | some c => walk s fuel c (path ++ [b])) = .codes l →
        ∀ e ∈ l, e.2.length < path.length + (fuel + 1) := by
      intro child b l hl e he
      cases child with
      | none =>
        cases hl
        cases he
      | some c =>
        have := ih c (path ++ [b]) l hl e he
        simp only [List.length_append, List.length_singleton] at this
        omega
    unfold walk at h
    split at h
    · cases h
    · split at h
      · split at h
        · cases h
        · cases h
          simp
      · obtain ⟨l, r, hl, hr, rfl⟩ := WalkResult.append_codes.1 h
        intro e he
        rcases List.mem_append.1 he with he | he
        · exact hchild _ false l hl e he
        · exact hchild _ true r hr e he

theorem rootWalk_code_length {s : State} {found : List (Nat × List Bool)} (h : s.rootWalk = .codes found) :
    ∀ e ∈ found, e.2.length ≤ Config.maxLen := by
  unfold State.rootWalk at h
  split at h
  · cases h
    simp
  · intro e he
    have := walk_code_length s _ _ _ _ h e he
    simp only [List.length_nil] at this
    omega

/-- An entry of the table of found codes is one of them, or no code. -/
theorem codeTable_read_mem (found : List (Nat × List Bool)) (k : Nat) :
    tableRead [] (codeTable found) k = [] ∨ ∃ e ∈ found, tableRead [] (codeTable found) k = e.2 := by
  induction found using List.reverseRecOn with
  | nil => exact .inl rfl
  | append_singleton found e ih =>
    have hlast : codeTable (found ++ [e]) = tableWrite [] (codeTable found) e.1 e.2 := by simp [codeTable]
    rw [hlast, tableRead_write]
    by_cases hk : k = e.1
    · exact .inr ⟨e, by simp, if_pos hk⟩
    · rw [if_neg hk]
      exact ih.imp_right (fun ⟨x, hx, hread⟩ => ⟨x, by simp [hx], hread⟩)

/-- What DERIVE writes is derived from the present tree, and no code is longer than 256 bits (R29, R30). -/
theorem CodeInv.setCt {s : State} {found : List (Nat × List Bool)} (h : s.rootWalk = .codes found) :
    CodeInv (s.setCt (codeTable found)) where
  derived := .inr ⟨found, (rootWalk_congr (s := s.setCt (codeTable found)) (t := s) rfl rfl rfl).trans h, rfl⟩
  lengths := by
    intro k _
    rcases codeTable_read_mem found k with hread | ⟨e, he, hread⟩
    · simp [State.ctAt, hread]
    · simpa [State.ctAt, hread] using rootWalk_code_length h e he

theorem CommandEffect.keeps_codeInv {i : Instr} {s u : State} (h : CommandEffect i s u) (hs : CodeInv s) :
    CodeInv u := by
  cases h with
  | clear => exact .of_empty rfl
  | build => exact .of_empty rfl
  | derive _ found hwalk => exact .setCt hwalk
  | _ => exact hs.congr rfl rfl rfl rfl

/-! ### The decoder -/

theorem DecInv.congr {s t : State} (h : DecInv s) (htm : t.tm = s.tm) (hnn : t.nn = s.nn) (hroot : t.root = s.root)
    (hst : t.decSt = s.decSt) (hcur : t.decCur = s.decCur) : DecInv t where
  running := by simpa only [State.tmAt, htm, hnn, hst, hcur] using h.running
  stopped := by simpa only [hroot, hst, hcur] using h.stopped
  idle := by simpa only [hst, hcur] using h.idle

theorem DecInv.of_idle {s : State} (hst : s.decSt = .idle) (hcur : s.decCur = 0) : DecInv s where
  running := by simp [hst]
  stopped := by simp [hst]
  idle := fun _ => hcur

/-- A stopped decoder stands at ROOT. -/
theorem DecInv.setDec_stopped (s : State) {st : DecSt} (hst : st = .doneEod ∨ st = .doneTrunc) :
    DecInv (s.setDec st s.root) where
  running := by rcases hst with rfl | rfl <;> simp
  stopped := fun _ => rfl
  idle := by rcases hst with rfl | rfl <;> simp

/-- In RUN the cursor stands at an internal record. -/
theorem DecInv.setDec_run {s : State} {cur : NodeIdx} (hnn : s.nn ≠ 0) (hlt : cur.toNat < s.nn.toNat)
    (hleaf : (s.tmAt cur.toNat).isLeaf = false) : DecInv (s.setDec .run cur) where
  running := fun _ => ⟨hnn, hlt, hleaf⟩
  stopped := by simp
  idle := by simp

theorem TreeInv.root_lt {s : State} (h : TreeInv s) : s.root.toNat < s.nn.toNat := by
  have := h.rootLast
  omega

/-- ROOT is an internal record: it comes after the leaves (R26, R27). -/
theorem TreeInv.root_not_leaf {s : State} (h : TreeInv s) : (s.tmAt s.root.toNat).isLeaf = false := by
  have hge : s.nleaf.toNat ≤ s.root.toNat := by
    have hcount := h.leafCount
    have hnodes := h.nodeCount
    have hlast := h.rootLast
    split at hnodes <;> omega
  obtain ⟨-, hleft, -⟩ := h.internals _ h.root_lt hge
  rw [Option.isSome_iff_exists] at hleft
  obtain ⟨c, hc⟩ := hleft
  simp [NodeRec.isLeaf, hc]

theorem TreeInv.decInv_root {s : State} (h : TreeInv s) : DecInv (s.setDec .run s.root) :=
  .setDec_run h.nn_ne_zero h.root_lt h.root_not_leaf

theorem NodeRec.mem_children_of_child {n : NodeRec} {b : Bool} {c : NodeIdx} (h : n.child b = some c) :
    c ∈ n.children := by
  cases b <;> simp_all [NodeRec.child, NodeRec.children]

/-- One bit keeps the decoder's invariant: it arrives at a child, below the record it came from, or returns to ROOT. -/
theorem decStep_keeps_decInv {s : State} (hs : s.treeSound) {w w' : Walker} {b : Bool}
    (hw : DecInv (s.setDec w.st w.cur)) (hrun : w.st = .run) (hstep : decStep s w b = .moved w') :
    DecInv (s.setDec w'.st w'.cur) := by
  obtain ⟨hnn, hlt, -⟩ := hw.running hrun
  have htree := hs.treeInv hnn
  obtain ⟨-, c, hchild, -, rfl⟩ := decStep_moved.1 hstep
  have hc : c.toNat < w.cur.toNat := htree.childBelow _ hlt c (NodeRec.mem_children_of_child hchild)
  unfold arrive
  split
  · split
    · exact .setDec_stopped s (.inl rfl)
    · rw [hrun]
      exact htree.decInv_root
  · next hleaf =>
    rw [hrun]
    exact .setDec_run hnn (hc.trans hlt) (by simpa using hleaf)

/-- The induction over fed bits: what every bit keeps holds of the walker that the bits leave. -/
theorem feedBits_keeps {s : State} {P : Walker → Prop}
    (hstep : ∀ w b w', P w → w.st = .run → decStep s w b = .moved w' → P w') {bits : List Bool} {w w' : Walker}
    {used : Nat} (hw : P w)
    (h : (∃ used', feedBits s bits w used = .finished w' used') ∨ feedBits s bits w used = .noChild w') : P w' := by
  induction bits generalizing w used with
  | nil =>
    rcases h with ⟨_, h⟩ | h <;> cases h
    exact hw
  | cons b bits ih =>
    by_cases hrun : w.st = .run
    · simp only [feedBits, if_pos hrun] at h
      cases hd : decStep s w b with
      | moved w₁ =>
        rw [hd] at h
        exact ih (hstep w b w₁ hw hrun hd) h
      | noChild =>
        rw [hd] at h
        rcases h with ⟨_, h⟩ | h <;> cases h
        exact hw
      | absent index =>
        rw [hd] at h
        rcases h with ⟨_, h⟩ | h <;> cases h
    · rw [feedBits_stopped hrun] at h
      rcases h with ⟨_, h⟩ | h <;> cases h
      exact hw

theorem FedTo.decInv {s : State} {bits : List Bool} {w : Walker} (h : FedTo s bits w) (htree : s.treeSound)
    (hs : DecInv s) : DecInv (s.walked w) := by
  have hw : DecInv (s.setDec w.st w.cur) :=
    feedBits_keeps (P := fun w => DecInv (s.setDec w.st w.cur)) (w := s.walker)
      (fun _ _ _ => decStep_keeps_decInv htree) hs h
  exact hw.congr rfl rfl rfl rfl rfl

theorem CommandEffect.keeps_decInv {i : Instr} {s u : State} (h : CommandEffect i s u) (htree : s.treeSound)
    (hs : DecInv s) : DecInv u := by
  cases h with
  | clear => exact .of_idle rfl rfl
  | build => exact .of_idle rfl rfl
  | decStart _ hnn => exact (htree.treeInv hnn).decInv_root
  | decBit _ _ w hfeed => exact hfeed.decInv htree hs
  | decByte _ _ w hfeed => exact hfeed.decInv htree hs
  | decEnd => exact .setDec_stopped s (.inr rfl)
  | _ => exact hs.congr rfl rfl rfl rfl rfl

/-! ### All invariants -/

/-- Settles O51: every part holds of empty tables and cleared registers. -/
theorem resetHasInv : Obligations.ResetHasInv where
  memory := Memory.wf_reset
  tree := .inl ⟨rfl, rfl, rfl, rfl⟩
  codes := .of_empty rfl
  encoder := .reset
  decoder := .of_idle rfl rfl
  latch := .reset

/-- A state that differs in the latch, the host, the ports and the draws only has the invariants when its latch has. -/
theorem Inv.congr {s : State} (h : Inv s) (code : Rstat) (cmd : Cmd64) (host : List HostEvent) (out : List PortEvent)
    (draws : Nat)
    (hlatch : LatchInv { s with errCode := code, errCmd := cmd, host := host, out := out, draws := draws }) :
    Inv { s with errCode := code, errCmd := cmd, host := host, out := out, draws := draws } where
  memory := h.memory
  tree := State.treeSound.congr h.tree rfl rfl rfl rfl
  codes := h.codes.congr rfl rfl rfl rfl
  encoder := h.encoder.congr rfl rfl rfl
  decoder := h.decoder.congr rfl rfl rfl rfl rfl
  latch := hlatch

theorem CommandEffect.keeps_inv {i : Instr} {s u : State} (h : CommandEffect i s u) (hs : Inv s) : Inv u where
  memory := h.keeps_memoryWf hs.memory
  tree := h.keeps_treeSound hs.tree
  codes := h.keeps_codeInv hs.codes
  encoder := h.keeps_encInv hs.encoder
  decoder := h.keeps_decInv hs.tree hs.decoder
  latch := h.keeps_latchInv hs.latch

/-- Settles O52, by the invariant induction step: every effect of a command keeps each part, and a fault moves the latch
alone. -/
theorem stepKeepsInv : Obligations.StepKeepsInv := by
  unfold Obligations.StepKeepsInv
  intro s t hs hstep
  refine step_keeps (P := Inv) ?_ resetHasInv ?_ (fun _ _ _ h hs => h.keeps_inv hs) hs hstep
  · intro s host out draws hs
    exact hs.congr _ _ _ _ _ (hs.latch.congr rfl rfl)
  · intro s k w hk hfaulted hs
    exact hs.congr _ _ _ _ _ (hs.latch.afterFault hk hfaulted)

end Sys2Proof.Machine
end

section
/-! Every step keeps the canonical form of the three tables (R60, R61). -/

namespace Sys2Proof.Machine

/-- Settles O49, by the invariant induction step: the tables rest on no latch, host action, port or draw, they are empty
after reset, and every effect of a command writes them inside their bounds. -/
theorem stepKeepsMemoryWf : Obligations.StepKeepsMemoryWf := by
  unfold Obligations.StepKeepsMemoryWf
  intro s t hs hstep
  exact step_keeps (P := fun s => Memory.wf s = true) (fun _ _ _ _ hs => hs) Memory.wf_reset (fun _ _ _ _ _ hs => hs)
    (fun _ _ _ h hs => h.keeps_memoryWf hs) hs hstep

end Sys2Proof.Machine
end

section
/-! The opcode map as a code (R91, R92, R94): every word is selected by at most one row, the row reads back what the encoder
places, and the encoder places back what the row reads. -/

namespace Sys2Proof

/-! ### The rows of the opcode map -/

theorem nodup_opcodes : (rows.map Row.op).Nodup := by decide

/-- A row selects the words that under its mask are its opcode in place (R92). -/
theorem Row.selects_iff {row : Row} {w : Cmd64} :
    row.selects w = true ↔ w &&& row.fmt.mask = placeField row.op 56 :=
  beq_iff_eq

/-- A row fixes the opcode of the words it selects: every mask covers bits 56 to 63 (R92). -/
theorem fieldOp_of_selects {row : Row} {w : Cmd64} (h : row.selects w = true) : fieldOp w = row.op := by
  have hmask : row.fmt.mask.extractLsb' 56 8 = BitVec.allOnes 8 := by cases row.fmt <;> decide
  have hword := congrArg (BitVec.extractLsb' 56 8) (Row.selects_iff.1 h)
  rwa [BitVec.extractLsb'_and, hmask, BitVec.and_allOnes, extract_placeField_same row.op 56 (by decide)] at hword

/-- The row that selects a word makes its command: no other row selects it, because the opcodes differ (R94). -/
theorem decode_of_selects {row : Row} {w : Cmd64} (hrow : row ∈ rows) (h : row.selects w = true) :
    decode w = .instr (row.make w) := by
  have hsome : (rows.find? (fun row => row.selects w)).isSome := List.find?_isSome.2 ⟨row, hrow, h⟩
  obtain ⟨found, hfind⟩ := Option.isSome_iff_exists.1 hsome
  have hfound : found.selects w = true := by simpa using List.find?_some hfind
  have hop : found.op = row.op := (fieldOp_of_selects hfound).symm.trans (fieldOp_of_selects h)
  have heq : found = row :=
    List.inj_on_of_nodup_map nodup_opcodes (List.mem_of_find?_eq_some hfind) hrow hop
  simp [decode, hfind, heq]

/-! ### From the command to its word and back -/

/-- A lone operand is read back from its place below the opcode (R91). -/
theorem extract_operand {n : Nat} (op : BitVec 8) (v : BitVec n) (lo : Nat) (h : lo + n ≤ 56) :
    (placeField op 56 ||| placeField v lo).extractLsb' lo n = v := by
  rw [BitVec.extractLsb'_or, extract_placeField_other op 56 lo (.inr h), extract_placeField_same v lo (by omega)]
  exact BitVec.zero_or

/-- The upper of two operands is read back. -/
theorem extract_upper_operand {n m : Nat} (op : BitVec 8) (v : BitVec n) (u : BitVec m) (lo lo' : Nat)
    (h : lo + n ≤ 56) (h' : lo' + m ≤ lo) :
    (placeField op 56 ||| (placeField v lo ||| placeField u lo')).extractLsb' lo n = v := by
  rw [← BitVec.or_assoc, BitVec.extractLsb'_or, extract_operand op v lo h, extract_placeField_other u lo' lo (.inl h')]
  exact BitVec.or_zero

/-- The lower of two operands is read back. -/
theorem extract_lower_operand {n m : Nat} (op : BitVec 8) (v : BitVec n) (u : BitVec m) (lo lo' : Nat)
    (h : lo + n ≤ 56) (h' : lo' + m ≤ lo) :
    (placeField op 56 ||| (placeField v lo ||| placeField u lo')).extractLsb' lo' m = u := by
  rw [BitVec.or_comm (placeField v lo), ← BitVec.or_assoc, BitVec.extractLsb'_or, extract_operand op u lo' (by omega),
    extract_placeField_other v lo lo' (.inr h')]
  exact BitVec.or_zero

/-- Every command has a row of its opcode and format that reads its operands back from its word (R91, R94). -/
theorem exists_row_make_encode (i : Instr) :
    ∃ k : Fin 18, (rows.get k).op = i.opcode ∧ (rows.get k).fmt = i.format ∧ (rows.get k).make (encode i) = i := by
  cases i with
  | nop => exact ⟨0, rfl, rfl, rfl⟩
  | clear => exact ⟨1, rfl, rfl, rfl⟩
  | rdReg r => exact ⟨2, rfl, rfl, congrArg Instr.rdReg (extract_operand 0x03 r 0 (by decide))⟩
  | ftSet sym count =>
    exact ⟨3, rfl, rfl,
      congrArg₂ Instr.ftSet (extract_upper_operand 0x10 sym count 32 0 (by decide) (by decide))
        (extract_lower_operand 0x10 sym count 32 0 (by decide) (by decide))⟩
  | ftRead sym => exact ⟨4, rfl, rfl, congrArg Instr.ftRead (extract_operand 0x11 sym 32 (by decide))⟩
  | fcByte d => exact ⟨5, rfl, rfl, congrArg Instr.fcByte (extract_operand 0x12 d 0 (by decide))⟩
  | fcEnd => exact ⟨6, rfl, rfl, rfl⟩
  | build => exact ⟨7, rfl, rfl, rfl⟩
  | tmRead idx sel2 =>
    exact ⟨8, rfl, rfl,
      congrArg₂ Instr.tmRead (extract_upper_operand 0x21 idx sel2 32 0 (by decide) (by decide))
        (extract_lower_operand 0x21 idx sel2 32 0 (by decide) (by decide))⟩
  | derive => exact ⟨9, rfl, rfl, rfl⟩
  | ctRead sym sel4 =>
    exact ⟨10, rfl, rfl,
      congrArg₂ Instr.ctRead (extract_upper_operand 0x31 sym sel4 32 0 (by decide) (by decide))
        (extract_lower_operand 0x31 sym sel4 32 0 (by decide) (by decide))⟩
  | encStart => exact ⟨11, rfl, rfl, rfl⟩
  | encSym d => exact ⟨12, rfl, rfl, congrArg Instr.encSym (extract_operand 0x41 d 0 (by decide))⟩
  | encEnd => exact ⟨13, rfl, rfl, rfl⟩
  | decStart => exact ⟨14, rfl, rfl, rfl⟩
  | decBit b => exact ⟨15, rfl, rfl, by cases b <;> rfl⟩
  | decByte d => exact ⟨16, rfl, rfl, congrArg Instr.decByte (extract_operand 0x52 d 0 (by decide))⟩
  | decEnd => exact ⟨17, rfl, rfl, rfl⟩

open Laws.EncodingFitsRow in
/-- The fixed bits of a command's word are those of its row, command by command (R92). -/
theorem encode_and_mask (i : Instr) : encode i &&& i.format.mask = placeField i.opcode 56 := by
  cases i with
  | nop => exact nop
  | clear => exact clear
  | rdReg r => exact rdReg r
  | ftSet sym count => exact ftSet sym count
  | ftRead sym => exact ftRead sym
  | fcByte d => exact fcByte d
  | fcEnd => exact fcEnd
  | build => exact build
  | tmRead idx sel2 => exact tmRead idx sel2
  | derive => exact derive
  | ctRead sym sel4 => exact ctRead sym sel4
  | encStart => exact encStart
  | encSym d => exact encSym d
  | encEnd => exact encEnd
  | decStart => exact decStart
  | decBit b => exact decBit b
  | decByte d => exact decByte d
  | decEnd => exact decEnd

/-- Settles O1: the command's own row selects its word and reads its operands back. -/
theorem decodeOfEncode : Obligations.DecodeOfEncode := by
  unfold Obligations.DecodeOfEncode
  intro i
  obtain ⟨k, hop, hfmt, hmake⟩ := exists_row_make_encode i
  have hselects : (rows.get k).selects (encode i) = true := by
    rw [Row.selects_iff, hfmt, hop]
    exact encode_and_mask i
  rw [decode_of_selects (List.get_mem rows k) hselects, hmake]

/-! ### From a word to its command and back -/

/-- A field read and placed back is the word at the field's bits, and 0 elsewhere (R91). -/
theorem placeField_extract (w : Cmd64) (lo n : Nat) :
    placeField (w.extractLsb' lo n) lo = w &&& placeField (BitVec.allOnes n) lo := by
  apply BitVec.eq_of_getLsbD_eq
  intro i hi
  rw [BitVec.getLsbD_and, getLsbD_placeField, getLsbD_placeField, BitVec.getLsbD_extractLsb', BitVec.getLsbD_allOnes]
  by_cases hlo : lo ≤ i
  · simp [hi, hlo, Bool.and_comm]
  · simp [hlo]

/-- A lone operand is the bits of the word outside the mask, when these are its field. -/
theorem placeField_extract_eq_and_not {w mask : Cmd64} {lo n : Nat}
    (h : placeField (BitVec.allOnes n) lo = ~~~mask) : placeField (w.extractLsb' lo n) lo = w &&& ~~~mask := by
  rw [placeField_extract, h]

/-- Two operands are the bits of the word outside the mask, when these are their fields. -/
theorem placeFields_extract_eq_and_not {w mask : Cmd64} {lo n lo' m : Nat}
    (h : placeField (BitVec.allOnes n) lo ||| placeField (BitVec.allOnes m) lo' = ~~~mask) :
    placeField (w.extractLsb' lo n) lo ||| placeField (w.extractLsb' lo' m) lo' = w &&& ~~~mask := by
  rw [placeField_extract, placeField_extract, ← h]
  ext i hi
  simp [Bool.and_or_distrib_left]

/-- A format without operands leaves no bit free. -/
theorem zero_eq_and_not_mask_z (w : Cmd64) : 0 = w &&& ~~~Format.z.mask := by
  rw [show ~~~Format.z.mask = 0 by decide]
  exact BitVec.and_zero.symm

/-- The one bit of format B is a field of width 1. -/
theorem placeField_fieldB (w : Cmd64) : placeField (BitVec.ofBool (fieldB w)) 0 = w &&& ~~~Format.b.mask := by
  have hbit : BitVec.ofBool (fieldB w) = w.extractLsb' 0 1 := by
    ext i hi
    simp [fieldB, Nat.lt_one_iff.1 hi]
  rw [hbit]
  exact placeField_extract_eq_and_not (by decide)

/-- The operand bits of the command a row makes are the bits of the word that the row's mask leaves free (R92). -/
theorem operandBits_make {row : Row} (hrow : row ∈ rows) (w : Cmd64) :
    (row.make w).operandBits = w &&& ~~~row.fmt.mask := by
  revert row
  simp only [rows, List.forall_mem_cons]
  exact ⟨zero_eq_and_not_mask_z w, zero_eq_and_not_mask_z w, placeField_extract_eq_and_not (by decide),
    placeFields_extract_eq_and_not (by decide), placeField_extract_eq_and_not (by decide),
    placeField_extract_eq_and_not (by decide), zero_eq_and_not_mask_z w, zero_eq_and_not_mask_z w,
    placeFields_extract_eq_and_not (by decide), zero_eq_and_not_mask_z w,
    placeFields_extract_eq_and_not (by decide), zero_eq_and_not_mask_z w, placeField_extract_eq_and_not (by decide),
    zero_eq_and_not_mask_z w, zero_eq_and_not_mask_z w, placeField_fieldB w,
    placeField_extract_eq_and_not (by decide), zero_eq_and_not_mask_z w, List.forall_mem_nil _⟩

/-- Settles O2: the row's pattern is the word under the mask, and the operands are the rest of the word. -/
theorem encodeOfDecode : Obligations.EncodeOfDecode := by
  unfold Obligations.EncodeOfDecode
  intro w i hdec
  obtain ⟨row, hrow, hselects, rfl⟩ := Machine.exists_row_of_decode hdec
  calc encode (row.make w)
      = placeField row.op 56 ||| w &&& ~~~row.fmt.mask := by
        rw [encode, Machine.opcode_make hrow, operandBits_make hrow]
    _ = w &&& row.fmt.mask ||| w &&& ~~~row.fmt.mask := by rw [Row.selects_iff.1 hselects]
    _ = w := by
      ext i hi
      simp [← Bool.and_or_distrib_left]

/-- Settles O4: each of the words is the encoding of its command. -/
theorem sampleWordsDecode : Obligations.SampleWordsDecode := by
  unfold Obligations.SampleWordsDecode
  exact ⟨decodeOfEncode (.rdReg 6), decodeOfEncode (.ftSet 0x41 3), decodeOfEncode (.ftRead 0x100),
    decodeOfEncode (.tmRead 512 2), decodeOfEncode (.ctRead 0x41 8), decodeOfEncode (.encSym 0x43),
    decodeOfEncode (.decBit true), decodeOfEncode (.decByte 0xB8)⟩

end Sys2Proof
end

section
/-! Operands out of range (R93, R267), and the illegal words (R95). -/

namespace Sys2Proof.Machine

/-! ### An operand out of range -/

theorem exec_ftSet_outOfRange {s : State} {sym : SymCode} (count : Count) (h : 0x100 < sym.toNat)
    (hok : s.errCode = .ok) :
    exec (.ftSet sym count) s = .next (s.afterFault .eOperand (encode (.ftSet sym count))) := by
  simp [exec, execFtSet, unlessFaulted_ok hok, symInRange, Nat.not_le.2 h, raise_eq]

theorem exec_ftRead_outOfRange (s : State) {sym : SymCode} (h : 0x100 < sym.toNat) :
    exec (.ftRead sym) s = .next (s.afterFault .eOperand (encode (.ftRead sym))) := by
  simp [exec, execFtRead, symInRange, Nat.not_le.2 h, raise_eq]

theorem exec_ctRead_outOfRange (s : State) {sym : SymCode} {sel4 : BitVec 4}
    (h : 0x100 < sym.toNat ∨ 8 < sel4.toNat) :
    exec (.ctRead sym sel4) s = .next (s.afterFault .eOperand (encode (.ctRead sym sel4))) := by
  have hrange : (symInRange sym && sel4InRange sel4) = false := by
    rcases h with h | h <;> simp [symInRange, sel4InRange, h]
  simp [exec, execCtRead, hrange, raise_eq]

theorem exec_tmRead_outOfRange {s : State} {idx : NodeIdx} {sel2 : BitVec 2}
    (h : s.nn.toNat ≤ idx.toNat ∨ sel2 = 3) :
    exec (.tmRead idx sel2) s = .next (s.afterFault .eOperand (encode (.tmRead idx sel2))) := by
  have hrange : tmReadInRange s idx sel2 = false := by
    rcases h with h | h <;> simp [tmReadInRange, h]
  simp [exec, execTmRead, hrange, raise_eq]

theorem exec_rdReg_outOfRange (s : State) {r : BitVec 4} (h : 6 < r.toNat) :
    exec (.rdReg r) s = .next (s.afterFault .eOperand (encode (.rdReg r))) := by
  simp [exec, execRdReg, regInRange, Nat.not_le.2 h, raise_eq]

/-- Settles O11, command by command: the range check comes before all others but the FAULTED one of FT_SET. -/
theorem operandOutOfRange : Obligations.OperandOutOfRange := by
  unfold Obligations.OperandOutOfRange
  intro s
  exact ⟨fun _ count h hok => exec_ftSet_outOfRange count h hok, fun _ => exec_ftRead_outOfRange s,
    fun _ _ => exec_ctRead_outOfRange s, fun _ _ => exec_tmRead_outOfRange, fun _ => exec_rdReg_outOfRange s⟩

/-- A command with an operand outside its range of R93, the range of `idx` being the present NN, raises E_OPERAND when no
fault is latched. -/
theorem exec_eOperand {i : Instr} {s : State} (hok : s.errCode = .ok)
    (h : i.wellFormed = false ∨ ∃ idx sel2, i = .tmRead idx sel2 ∧ s.nn.toNat ≤ idx.toNat) :
    exec i s = .next (s.afterFault .eOperand (encode i)) := by
  rcases h with h | ⟨idx, sel2, rfl, hidx⟩
  · cases i with
    | rdReg r => exact exec_rdReg_outOfRange s (by simpa [Instr.wellFormed, WellFormed.reg] using h)
    | ftSet sym count => exact exec_ftSet_outOfRange count (by simpa [Instr.wellFormed, WellFormed.sym] using h) hok
    | ftRead sym => exact exec_ftRead_outOfRange s (by simpa [Instr.wellFormed, WellFormed.sym] using h)
    | tmRead idx sel2 =>
      have hsel2 : ∀ v : BitVec 2, WellFormed.sel2 v = false → v = 3 := by decide
      exact exec_tmRead_outOfRange (.inr (hsel2 sel2 h))
    | ctRead sym sel4 =>
      rw [Instr.wellFormed, Bool.and_eq_false_iff] at h
      exact exec_ctRead_outOfRange s (by simpa only [WellFormed.sym, WellFormed.sel4, decide_eq_false_iff_not,
        Nat.not_le] using h)
    | _ => cases h
  · exact exec_tmRead_outOfRange (.inl hidx)

/-! ### The illegal words -/

/-- The table R92 and R94 print is the masks and the patterns of the opcode map. -/
theorem printedOpcodeMap_eq : printedOpcodeMap = rows.map (fun row => (row.fmt.mask, row.pattern)) := rfl

/-- A word matches an entry of the printed table exactly when a row of the opcode map selects it. -/
theorem not_matched_iff (w : Cmd64) :
    (∀ p ∈ printedOpcodeMap, w &&& p.1 ≠ p.2) ↔ ∀ row ∈ rows, ¬ row.selects w = true := by
  simp only [printedOpcodeMap_eq, List.forall_mem_map, Row.selects, beq_iff_eq, ne_eq]

/-- A word is rejected exactly when no row of the opcode map selects it (R95). -/
theorem rejected_iff (w : Cmd64) : (∃ r, decode w = .rejected r) ↔ ∀ row ∈ rows, ¬ row.selects w = true := by
  constructor
  · rintro ⟨r, hdec⟩ row hrow hselects
    simp [decode_of_selects hrow hselects] at hdec
  · intro hnone
    cases hdec : decode w with
    | rejected r => exact ⟨r, rfl⟩
    | instr i =>
      obtain ⟨row, hrow, hselects, -⟩ := exists_row_of_decode hdec
      exact absurd hselects (hnone row hrow)

theorem rejected_iff_not_matched (w : Cmd64) :
    (∃ r, decode w = .rejected r) ↔ ∀ p ∈ printedOpcodeMap, w &&& p.1 ≠ p.2 :=
  (rejected_iff w).trans (not_matched_iff w).symm

/-- Settles O3: no row selects a rejected word, and a legal word is the encoding of a command. -/
theorem illegalWords : Obligations.IllegalWords := by
  unfold Obligations.IllegalWords
  refine ⟨rejected_iff_not_matched, ?_, ⟨.unknownOpcode 0, by decide⟩, ⟨.unknownOpcode 0xFF, by decide⟩, ?_⟩
  · intro w s hw
    obtain ⟨r, hdec⟩ := (rejected_iff_not_matched w).2 hw
    exact present_of_rejected hdec s
  · intro i s hok h
    rw [present_of_decode (decodeOfEncode i)]
    exact exec_eOperand hok h

end Sys2Proof.Machine
end

section
/-! What a presented word puts on the ports (R71, R97). -/

namespace Sys2Proof.Machine

/-- The effects of a command put bytes on the ports, and no response. -/
theorem CommandEffect.out_bytes {i : Instr} {s u : State} (h : CommandEffect i s u) :
    ∃ bytes, u.out = s.out ++ bytes ∧ ∀ e ∈ bytes, e.onRsp = none := by
  cases h with
  | encSym => exact ⟨_, rfl, List.forall_mem_map.2 fun _ _ => rfl⟩
  | encEnd => exact ⟨_, rfl, List.forall_mem_map.2 fun _ _ => rfl⟩
  | decBit => exact ⟨_, rfl, List.forall_mem_map.2 fun _ _ => rfl⟩
  | decByte => exact ⟨_, rfl, List.forall_mem_map.2 fun _ _ => rfl⟩
  | _ => exact ⟨[], (List.append_nil _).symm, List.forall_mem_nil _⟩

/-- However a command ends, it gives one response, with data 0 on a fault. -/
theorem EndsOn.out_response {i : Instr} {u t : State} (h : EndsOn i u t) :
    ∃ r, t.out = u.out ++ [.rsp r] ∧ (r.rstat ≠ .ok → r.rdata = 0) := by
  rcases h with ⟨d, rfl⟩ | ⟨k, -, -, rfl⟩
  · exact ⟨⟨.ok, d⟩, by simp, fun hne => absurd rfl hne⟩
  · exact ⟨⟨k, 0⟩, rfl, fun _ => rfl⟩

/-- Settles O14: a command's effects are its bytes and its end is its response; an illegal word has its response only. -/
theorem oneResponsePerCommand : Obligations.OneResponsePerCommand := by
  unfold Obligations.OneResponsePerCommand
  intro w s t h
  cases hdec : decode w with
  | instr i =>
    rw [present_of_decode hdec] at h
    obtain ⟨u, heffect, hend⟩ := exec_explained i s t h
    obtain ⟨bytes, hbytes, hnone⟩ := heffect.out_bytes
    obtain ⟨r, hr, hdata⟩ := hend.out_response
    exact ⟨bytes, r, by rw [hr, hbytes], hnone, hdata⟩
  | rejected r =>
    rw [present_of_rejected hdec, Host.Outcome.next.injEq] at h
    subst h
    exact ⟨[], ⟨.eIllegal, 0⟩, by simp, List.forall_mem_nil _, fun _ => rfl⟩

end Sys2Proof.Machine
end

section
/-! No word stops the model in a state with the invariants (93 part 3): the indices it reads exist, and no path of the tree
is longer than the walk. -/

namespace Sys2Proof.Machine

/-- The model answers a next state. -/
def Answers (a : Answer) : Prop := ∃ t, a = .next t

theorem Answers.respond (d : Data64) (s : State) : Answers (Machine.respond d s) := ⟨_, rfl⟩

theorem Answers.raise (k : Rstat) (w : Cmd64) (s : State) : Answers (Machine.raise k w s) := ⟨_, rfl⟩

theorem Answers.ite {c : Prop} [Decidable c] {a b : Answer} (ha : c → Answers a) (hb : ¬ c → Answers b) :
    Answers (if c then a else b) := by
  split
  · next h => exact ha h
  · next h => exact hb h

theorem Answers.unlessFaulted {i : Instr} {s : State} {body : Answer} (h : Answers body) :
    Answers (Machine.unlessFaulted i s body) :=
  .ite (fun _ => h) (fun _ => .raise _ _ _)

/-! ### Reads of TM -/

/-- The records of a tree fit in the tree memory (R26). -/
theorem State.treeSound.nn_le {s : State} (h : s.treeSound) : s.nn.toNat ≤ Config.nnode := by
  rcases h with ⟨hnn, -⟩ | ⟨-, h⟩
  · simp [hnn]
  · have hleaf := h.leafCount
    have hnodes := h.nodeCount
    simp only [Config.nnode]
    split at hnodes <;> omega

theorem State.treeSound.tmGet {s : State} (h : s.treeSound) {i : NodeIdx} (hi : i.toNat < s.nn.toNat) :
    s.tmGet i = some (s.tmAt i.toNat) :=
  State.tmGet_lt (hi.trans_le h.nn_le)

theorem execTmRead_answers {s : State} (htree : s.treeSound) (idx : NodeIdx) (sel2 : BitVec 2) :
    Answers (execTmRead idx sel2 s) := by
  refine .ite (fun hrange => ?_) (fun _ => .raise _ _ _)
  have hidx : idx.toNat < s.nn.toNat := by
    simp only [tmReadInRange, Bool.and_eq_true, decide_eq_true_eq] at hrange
    exact hrange.1
  rw [htree.tmGet hidx]
  exact .respond _ _

/-! ### DERIVE -/

theorem symIndex_isSome {sym : Symbol} (h : sym ≠ .internal) : ∃ k, symIndex sym = some k := by
  cases sym with
  | byte b => exact ⟨_, rfl⟩
  | endOfData => exact ⟨_, rfl⟩
  | internal => exact absurd rfl h

/-- The walk below a record finds all its codes: from an internal record each edge goes to a smaller index, so the path has
at most the internal records up to it and one leaf (R27, R171). -/
theorem TreeInv.walk_codes {s : State} (h : TreeInv s) (fuel : Nat) (i : NodeIdx) (path : List Bool)
    (hi : i.toNat < s.nn.toNat) (hpos : 0 < fuel) (hfuel : i.toNat + 2 ≤ s.nleaf.toNat + fuel) :
    ∃ found, walk s fuel i path = .codes found := by
  induction fuel generalizing i path with
  | zero => omega
  | succ fuel ih =>
    have hget := State.treeSound.tmGet (.inr ⟨h.nn_ne_zero, h⟩) hi
    by_cases hleaf : i.toNat < s.nleaf.toNat
    · obtain ⟨hisLeaf, hsym, -⟩ := h.leaves _ hleaf
      obtain ⟨k, hk⟩ := symIndex_isSome hsym
      exact ⟨[(k, path)], by simp [walk, hget, hisLeaf, hk]⟩
    · have hchild : ∀ b c, (s.tmAt i.toNat).child b = some c → ∃ found, walk s fuel c (path ++ [b]) = .codes found := by
        intro b c hc
        have hbelow := h.childBelow _ hi c (NodeRec.mem_children_of_child hc)
        exact ih c _ (hbelow.trans hi) (by omega) (by omega)
      obtain ⟨-, hsome, -⟩ := h.internals _ hi (Nat.le_of_not_lt hleaf)
      obtain ⟨c, hc⟩ := Option.isSome_iff_exists.1 hsome
      obtain ⟨l, hl⟩ := hchild false c hc
      cases hright : (s.tmAt i.toNat).right with
      | none => exact ⟨l ++ [], by simp [walk, hget, NodeRec.isLeaf, hc, hright, hl, WalkResult.append]⟩
      | some c' =>
        obtain ⟨r, hr⟩ := hchild true c' hright
        exact ⟨l ++ r, by simp [walk, hget, NodeRec.isLeaf, hc, hright, hl, hr, WalkResult.append]⟩

/-- The walk of DERIVE finds all codes: a path from ROOT has at most 257 records (R171). -/
theorem State.treeSound.rootWalk_codes {s : State} (h : s.treeSound) : ∃ found, s.rootWalk = .codes found := by
  unfold State.rootWalk
  split
  · exact ⟨[], rfl⟩
  · next hnn =>
    have htree := h.treeInv hnn
    have hleaf := htree.leafCount
    have hnodes := htree.nodeCount
    have hlast := htree.rootLast
    refine htree.walk_codes _ _ _ htree.root_lt (by omega) ?_
    simp only [Config.maxLen]
    split at hnodes <;> omega

theorem execDerive_answers {s : State} (htree : s.treeSound) : Answers (execDerive s) := by
  obtain ⟨found, hwalk⟩ := htree.rootWalk_codes
  refine .unlessFaulted ?_
  rw [hwalk]
  exact .respond _ _

/-! ### The decoder -/

/-- One bit reads records of the tree only: the cursor's, and a child of it. -/
theorem decStep_ne_absent {s : State} (hs : s.treeSound) {w : Walker} (b : Bool)
    (hw : DecInv (s.setDec w.st w.cur)) (hrun : w.st = .run) (index : Nat) : decStep s w b ≠ .absent index := by
  obtain ⟨hnn, hlt, -⟩ := hw.running hrun
  have hcur : w.cur.toNat < Config.nnode := hlt.trans_le hs.nn_le
  cases hc : (s.tmAt w.cur.toNat).child b with
  | none =>
    rw [decStep_noChild.2 ⟨hcur, hc⟩]
    exact nofun
  | some c =>
    have hbelow := (hs.treeInv hnn).childBelow _ hlt c (NodeRec.mem_children_of_child hc)
    rw [decStep_moved.2 ⟨hcur, c, hc, hbelow.trans hcur, rfl⟩]
    exact nofun

theorem feedBits_ne_absent {s : State} (hs : s.treeSound) (bits : List Bool) (w : Walker) (used : Nat)
    (hw : DecInv (s.setDec w.st w.cur)) (index : Nat) : feedBits s bits w used ≠ .absent index := by
  induction bits generalizing w used with
  | nil => exact nofun
  | cons b bits ih =>
    by_cases hrun : w.st = .run
    · simp only [feedBits, if_pos hrun]
      cases hstep : decStep s w b with
      | moved w' => exact ih w' _ (decStep_keeps_decInv hs hw hrun hstep)
      | noChild => exact nofun
      | absent i => exact absurd hstep (decStep_ne_absent hs b hw hrun i)
    · rw [feedBits_stopped hrun]
      exact nofun

theorem decodeBits_answers {s : State} (htree : s.treeSound) (hdec : DecInv s) (i : Instr) (bits : List Bool) :
    Answers (decodeBits i bits s) := by
  refine .unlessFaulted (.ite (fun _ => .raise _ _ _) (fun _ => ?_))
  cases hfeed : feedBits s bits s.walker 0 with
  | finished w used => exact .respond _ _
  | noChild w => exact .raise _ _ _
  | absent index => exact absurd hfeed (feedBits_ne_absent htree bits s.walker 0 hdec index)

/-! ### Every command -/

theorem exec_answers {s : State} (htree : s.treeSound) (hdec : DecInv s) (i : Instr) : Answers (exec i s) := by
  cases i with
  | nop => exact .respond _ _
  | clear => exact .respond _ _
  | rdReg r => exact .ite (fun _ => .respond _ _) (fun _ => .raise _ _ _)
  | ftSet sym count => exact .unlessFaulted (.ite (fun _ => .respond _ _) (fun _ => .raise _ _ _))
  | ftRead sym => exact .ite (fun _ => .respond _ _) (fun _ => .raise _ _ _)
  | fcByte d => exact .unlessFaulted (.ite (fun _ => .raise _ _ _) (fun _ => .respond _ _))
  | fcEnd => exact .unlessFaulted (.respond _ _)
  | build =>
    exact .unlessFaulted (.ite (fun _ => .raise _ _ _) (fun _ =>
      .ite (fun _ => .raise _ _ _) (fun _ => .respond _ _)))
  | tmRead idx sel2 => exact execTmRead_answers htree idx sel2
  | derive => exact execDerive_answers htree
  | ctRead sym sel4 =>
    exact .ite (fun _ => .ite (fun _ => .respond _ _) (fun _ => .respond _ _)) (fun _ => .raise _ _ _)
  | encStart => exact .unlessFaulted (.ite (fun _ => .raise _ _ _) (fun _ => .respond _ _))
  | encSym d =>
    exact .unlessFaulted (.ite (fun _ => .raise _ _ _) (fun _ =>
      .ite (fun _ => .raise _ _ _) (fun _ => .respond _ _)))
  | encEnd =>
    exact .unlessFaulted (.ite (fun _ => .raise _ _ _) (fun _ =>
      .ite (fun _ => .raise _ _ _) (fun _ => .respond _ _)))
  | decStart =>
    exact .unlessFaulted (.ite (fun _ => .raise _ _ _) (fun _ =>
      .ite (fun _ => .raise _ _ _) (fun _ => .respond _ _)))
  | decBit b => exact decodeBits_answers htree hdec _ _
  | decByte d => exact decodeBits_answers htree hdec _ _
  | decEnd =>
    exact .unlessFaulted (.ite (fun _ => .raise _ _ _) (fun _ =>
      .ite (fun _ => .respond _ _) (fun _ => .respond _ _)))

/-- Settles O53: an illegal word raises E_ILLEGAL, and a command answers by the invariants of the tree and the decoder. -/
theorem everyWordAnswers : Obligations.EveryWordAnswers := by
  unfold Obligations.EveryWordAnswers
  intro s w hs
  cases hdec : decode w with
  | instr i =>
    rw [present_of_decode hdec]
    exact exec_answers hs.tree hs.decoder i
  | rejected r => exact ⟨_, present_of_rejected hdec s⟩

end Sys2Proof.Machine
end

section
/-! The frequency table (R121, R122): what FT_SET and FT_READ answer, and the frame that every write of one count has. -/

namespace Sys2Proof.Machine

/-! ### A write of one count -/

/-- A write of FT with a response after it changes one count and the output ports, and nothing else (R74). -/
theorem State.ftPut_emit_frame (s : State) (k : Nat) (c : Count) (evs : List PortEvent) :
    ((s.ftPut k c).emit evs).ftAt k = c ∧ (∀ j, j ≠ k → ((s.ftPut k c).emit evs).ftAt j = s.ftAt j) ∧
      (s.ftPut k c).emit evs = { s with ft := ((s.ftPut k c).emit evs).ft, out := s.out ++ evs } := by
  refine ⟨by simp, fun j hj => ?_, rfl⟩
  simp [hj]

/-- In a canonical table a write of the entry already held is no change. -/
theorem tableWrite_of_read_eq {α : Type} [DecidableEq α] {d v : α} {size i : Nat} {t : List (Nat × α)}
    (hwf : tableWf d size t = true) (hi : i < size) (hv : tableRead d t i = v) : tableWrite d t i v = t := by
  refine tableWf_ext size _ _ (tableWf_write _ _ _ _ hi hwf) hwf fun j => ?_
  rw [tableRead_write]
  split
  · next hj => rw [hj, hv]
  · rfl

theorem State.ftPut_ft_of_ftAt_eq {s : State} {k : Nat} {c : Count} (hwf : Memory.wf s = true)
    (hk : k < Config.nsym) (hc : s.ftAt k = c) : (s.ftPut k c).ft = s.ft := by
  simp only [Memory.wf, Bool.and_eq_true] at hwf
  obtain ⟨⟨hft, -⟩, -⟩ := hwf
  exact tableWrite_of_read_eq hft hk hc

/-! ### FT_SET and FT_READ -/

theorem exec_ftSet {s : State} {sym : SymCode} (count : Count) (hsym : sym.toNat ≤ 0x100) (hok : s.errCode = .ok) :
    exec (.ftSet sym count) s = .next ((s.ftPut sym.toNat count).emit [.rsp ⟨.ok, 0⟩]) := by
  simp [exec, execFtSet, unlessFaulted_ok hok, symInRange, hsym, respond]

theorem exec_ftRead (s : State) {sym : SymCode} (hsym : sym.toNat ≤ 0x100) :
    exec (.ftRead sym) s = .next (s.emit [.rsp ⟨.ok, BitVec.ofNat 64 (s.ftAt sym.toNat).toNat⟩]) := by
  simp [exec, execFtRead, symInRange, hsym, respond]

/-- Settles O20: in range FT_SET is a write of one count, and in a canonical table a write of the count held is none. -/
theorem ftSetWritesOneCount : Obligations.FtSetWritesOneCount := by
  unfold Obligations.FtSetWritesOneCount
  intro s sym count hok
  refine ⟨fun hsym => ⟨_, exec_ftSet count hsym hok, ?_⟩, fun hsym => exec_ftSet_outOfRange count hsym hok⟩
  obtain ⟨hsame, hother, hframe⟩ := s.ftPut_emit_frame sym.toNat count [.rsp ⟨.ok, 0⟩]
  exact ⟨hsame, hother, hframe, fun hwf hc => State.ftPut_ft_of_ftAt_eq hwf (Nat.lt_succ_of_le hsym) hc⟩

/-- Settles O21, from FT_READ in range and out of range. -/
theorem ftReadReadsCount : Obligations.FtReadReadsCount := by
  unfold Obligations.FtReadReadsCount
  exact fun s _ => ⟨exec_ftRead s, exec_ftRead_outOfRange s⟩

end Sys2Proof.Machine
end

section
/-! The Frequency Counter (R123 to R125): one byte, the end of the input, and a whole counting run. -/

namespace Sys2Proof.Machine

/-! ### FC_BYTE and FC_END -/

/-- The largest count, as a word and as an integer. -/
theorem count_eq_max_iff (c : Count) : c = 0xFFFFFFFF ↔ c.toNat = 2 ^ 32 - 1 := by
  rw [← BitVec.toNat_inj]
  rfl

/-- A count below the largest one does not wrap. -/
theorem toNat_count_succ {c : Count} (h : c.toNat ≠ 2 ^ 32 - 1) : (c + 1).toNat = c.toNat + 1 := by
  bv_omega

theorem exec_fcByte {s : State} {d : Byte} (hok : s.errCode = .ok) (hmax : (s.ftAt d.toNat).toNat ≠ 2 ^ 32 - 1) :
    exec (.fcByte d) s = .next ((s.ftPut d.toNat (s.ftAt d.toNat + 1)).emit
      [.rsp ⟨.ok, BitVec.ofNat 64 ((s.ftAt d.toNat).toNat + 1)⟩]) := by
  have hne : s.ftAt d.toNat ≠ 0xFFFFFFFF := mt (count_eq_max_iff _).1 hmax
  rw [← toNat_count_succ hmax, exec, execFcByte, unlessFaulted_ok hok, if_neg hne, respond, BitVec.ofNat_toNat]

theorem exec_fcByte_overflow {s : State} {d : Byte} (hok : s.errCode = .ok)
    (hmax : (s.ftAt d.toNat).toNat = 2 ^ 32 - 1) :
    exec (.fcByte d) s = .next (s.afterFault .eCountOvf (encode (.fcByte d))) := by
  rw [exec, execFcByte, unlessFaulted_ok hok, if_pos ((count_eq_max_iff _).2 hmax), raise_eq]

theorem exec_fcEnd {s : State} (hok : s.errCode = .ok) :
    exec .fcEnd s = .next ((s.ftPut 0x100 1).emit [.rsp ⟨.ok, 0⟩]) := by
  rw [exec, execFcEnd, unlessFaulted_ok hok, respond, eodIndex]

/-- Settles O22: below the largest count FC_BYTE writes the count plus one, which does not wrap. -/
theorem fcByteCountsOne : Obligations.FcByteCountsOne := by
  unfold Obligations.FcByteCountsOne
  intro s d hok
  refine ⟨fun hmax => ⟨_, exec_fcByte hok hmax, ?_⟩, exec_fcByte_overflow hok⟩
  obtain ⟨hsame, hother, hframe⟩ := s.ftPut_emit_frame d.toNat (s.ftAt d.toNat + 1)
    [.rsp ⟨.ok, BitVec.ofNat 64 ((s.ftAt d.toNat).toNat + 1)⟩]
  exact ⟨by rw [hsame, toNat_count_succ hmax], hother, hframe⟩

/-- Settles O23: FC_END is a write of one count. -/
theorem fcEndSetsEndOfData : Obligations.FcEndSetsEndOfData := by
  unfold Obligations.FcEndSetsEndOfData
  exact fun s hok => ⟨_, exec_fcEnd hok, s.ftPut_emit_frame 0x100 1 [.rsp ⟨.ok, 0⟩]⟩

/-! ### Runs of commands -/

theorem runCommands_cons {i : Instr} {rest : List Instr} {s t : State} (h : exec i s = .next t) :
    runCommands (i :: rest) s = runCommands rest t := by
  simp only [runCommands, h]

/-- A run of two lists of commands is the run of the first and then that of the second. -/
theorem runCommands_append {a : List Instr} (b : List Instr) {s t : State} (h : runCommands a s = some t) :
    runCommands (a ++ b) s = runCommands b t := by
  induction a generalizing s with
  | nil =>
    cases h
    rfl
  | cons i rest ih =>
    cases hexec : exec i s with
    | next u =>
      rw [runCommands_cons hexec] at h
      rw [List.cons_append, runCommands_cons hexec, ih h]
    | fault why => simp [runCommands, hexec] at h
    | refused why => simp [runCommands, hexec] at h

/-! ### Counting an input -/

/-- `t` is `s` after counting `input`: each byte's count has grown by its occurrences, and nothing else of the state but
the output ports has changed. -/
structure CountedBytes (s : State) (input : List Byte) (t : State) : Prop where
  bytes : ∀ v : Byte, (t.ftAt v.toNat).toNat = (s.ftAt v.toNat).toNat + input.count v
  others : ∀ k, 256 ≤ k → t.ftAt k = s.ftAt k
  frame : t = { s with ft := t.ft, out := t.out }

theorem CountedBytes.nil (s : State) : CountedBytes s [] s := ⟨fun _ => rfl, fun _ _ => rfl, rfl⟩

theorem CountedBytes.errCode {s t : State} {input : List Byte} (h : CountedBytes s input t) :
    t.errCode = s.errCode := by
  rw [h.frame]

/-- One FC_BYTE below the largest count counts its byte. -/
theorem exec_fcByte_countedBytes {s : State} {d : Byte} (hok : s.errCode = .ok)
    (hmax : (s.ftAt d.toNat).toNat ≠ 2 ^ 32 - 1) : ∃ u, exec (.fcByte d) s = .next u ∧ CountedBytes s [d] u := by
  refine ⟨_, exec_fcByte hok hmax, ?_⟩
  obtain ⟨hsame, hother, -⟩ := s.ftPut_emit_frame d.toNat (s.ftAt d.toNat + 1)
    [.rsp ⟨.ok, BitVec.ofNat 64 ((s.ftAt d.toNat).toNat + 1)⟩]
  refine ⟨fun v => ?_, fun k hk => hother k (by have := d.isLt; omega), rfl⟩
  by_cases hv : v = d
  · subst hv
    rw [hsame, toNat_count_succ hmax, List.count_singleton_self]
  · rw [hother _ (mt BitVec.eq_of_toNat_eq hv), List.count_eq_zero_of_not_mem (by simpa using hv), Nat.add_zero]

theorem CountedBytes.append {s u t : State} {a b : List Byte} (ha : CountedBytes s a u) (hb : CountedBytes u b t) :
    CountedBytes s (a ++ b) t where
  bytes v := by rw [hb.bytes, ha.bytes, List.count_append, Nat.add_assoc]
  others k hk := (hb.others k hk).trans (ha.others k hk)
  frame := by rw [hb.frame, ha.frame]

/-- FC_BYTE for each byte of an input counts the input, when no count reaches 2^32. -/
theorem runCommands_fcBytes {s : State} {input : List Byte} (hok : s.errCode = .ok)
    (hfit : ∀ v : Byte, (s.ftAt v.toNat).toNat + input.count v < 2 ^ 32) :
    ∃ t, runCommands (input.map .fcByte) s = some t ∧ CountedBytes s input t := by
  induction input generalizing s with
  | nil => exact ⟨s, rfl, .nil s⟩
  | cons d rest ih =>
    have hmax : (s.ftAt d.toNat).toNat ≠ 2 ^ 32 - 1 := by
      have hd := hfit d
      rw [List.count_cons_self] at hd
      omega
    obtain ⟨u, hexec, hd⟩ := exec_fcByte_countedBytes hok hmax
    have hfit' : ∀ v : Byte, (u.ftAt v.toNat).toNat + rest.count v < 2 ^ 32 := fun v => by
      have hv := hfit v
      rwa [← List.singleton_append, List.count_append, ← Nat.add_assoc, ← hd.bytes] at hv
    obtain ⟨t, hrun, hrest⟩ := ih (hd.errCode.trans hok) hfit'
    exact ⟨t, (runCommands_cons hexec).trans hrun, hd.append hrest⟩

/-- A counting run (R125): FC_BYTE for each byte of an input and then FC_END. -/
theorem runCommands_countingRun {s : State} {input : List Byte} (hok : s.errCode = .ok)
    (hfit : ∀ v : Byte, (s.ftAt v.toNat).toNat + input.count v < 2 ^ 32) :
    ∃ u, CountedBytes s input u ∧
      runCommands (input.map .fcByte ++ [.fcEnd]) s = some ((u.ftPut 0x100 1).emit [.rsp ⟨.ok, 0⟩]) := by
  obtain ⟨u, hrun, hu⟩ := runCommands_fcBytes hok hfit
  exact ⟨u, hu, (runCommands_append _ hrun).trans (runCommands_cons (exec_fcEnd (hu.errCode.trans hok)))⟩

/-- The occurrences of the 256 byte values add up to the length of the input. -/
theorem sum_byteCounts {input : List Byte} {f : Nat → Nat} (h : ∀ v : Byte, f v.toNat = input.count v) :
    ((List.range 256).map f).sum = input.length := by
  have hcount : ∀ k ∈ Finset.range 256, f k = Multiset.count k (input.map BitVec.toNat : List Nat) := by
    intro k hk
    have hv : (BitVec.ofNat 8 k).toNat = k := Nat.mod_eq_of_lt (Finset.mem_range.1 hk)
    rw [Multiset.coe_count, ← hv, h, List.count_map_of_injective _ _ BitVec.toNat_injective]
  have hbyte : ∀ k ∈ (input.map BitVec.toNat : Multiset Nat), k ∈ Finset.range 256 := by
    intro k hk
    obtain ⟨v, -, rfl⟩ := List.mem_map.1 (Multiset.mem_coe.1 hk)
    exact Finset.mem_range.2 v.isLt
  calc ((List.range 256).map f).sum = ∑ k ∈ Finset.range 256, f k := rfl
    _ = ∑ k ∈ Finset.range 256, Multiset.count k (input.map BitVec.toNat : List Nat) := Finset.sum_congr rfl hcount
    _ = Multiset.card (input.map BitVec.toNat : Multiset Nat) := Multiset.sum_count_eq_card hbyte
    _ = input.length := by simp

/-- Settles O24: the bytes are counted one by one, END_OF_DATA once at the end, and the 257 counts are added up. -/
theorem countingRun : Obligations.CountingRun := by
  unfold Obligations.CountingRun
  intro s input hok hempty hfit
  obtain ⟨u, hu, hrun⟩ := runCommands_countingRun (s := s) (input := input) hok (by simpa [hempty] using hfit)
  obtain ⟨heod, hother, -⟩ := u.ftPut_emit_frame 0x100 1 [.rsp ⟨.ok, 0⟩]
  have hbyte : ∀ v : Byte, (((u.ftPut 0x100 1).emit [.rsp ⟨.ok, 0⟩]).ftAt v.toNat).toNat = input.count v := by
    intro v
    rw [hother _ (by have := v.isLt; omega), hu.bytes, hempty]
    simp
  refine ⟨_, hrun, hu.errCode.trans hok, hbyte, heod, ?_⟩
  rw [List.sum_range_succ, sum_byteCounts hbyte, heod]
  rfl

end Sys2Proof.Machine
end

section
/-! TM_READ (R148), and the fields of a word as one integer. -/

namespace Sys2Proof

theorem placeField_eq_ofNat {n : Nat} (v : BitVec n) (lo : Nat) : placeField v lo = BitVec.ofNat 64 (v.toNat * 2 ^ lo) := by
  apply BitVec.eq_of_toNat_eq
  rw [placeField, BitVec.toNat_shiftLeft, BitVec.toNat_setWidth, BitVec.toNat_ofNat, Nat.shiftLeft_eq, Nat.mod_mul_mod]

/-- A field placed above all bits of a word adds to it. -/
theorem placeField_or_ofNat {n lo x : Nat} (v : BitVec n) (hx : x < 2 ^ lo) :
    placeField v lo ||| BitVec.ofNat 64 x = BitVec.ofNat 64 (v.toNat * 2 ^ lo + x) := by
  rw [placeField_eq_ofNat, ← BitVec.ofNat_or, ← Nat.shiftLeft_eq, Nat.shiftLeft_add_eq_or_of_lt hx]

/-- A field at bit 0 is its value. -/
theorem placeField_zero {n : Nat} (v : BitVec n) : placeField v 0 = BitVec.ofNat 64 v.toNat := by
  rw [placeField_eq_ofNat, pow_zero, Nat.mul_one]

end Sys2Proof

namespace Sys2Proof.Machine

/-! ### The field groups of a record -/

theorem fieldGroup_symbol (n : NodeRec) : fieldGroup n 0 =
    BitVec.ofNat 64 ((if n.left = none ∧ n.right = none then 2 ^ 16 else 0) + (symCode n.sym).toNat) := by
  have hfields : fieldGroup n 0 = placeField (BitVec.ofBool n.isLeaf) 16 ||| placeField (symCode n.sym) 0 := by
    simp [fieldGroup, bit64, placeField]
  have hleaf : (BitVec.ofBool n.isLeaf).toNat * 2 ^ 16 = if n.left = none ∧ n.right = none then 2 ^ 16 else 0 := by
    rw [NodeRec.isLeaf]
    cases n.left <;> cases n.right <;> simp
  have hsym := (symCode n.sym).isLt
  rw [hfields, placeField_zero, placeField_or_ofNat _ (by omega), hleaf]

theorem fieldGroup_weight (n : NodeRec) : fieldGroup n 1 = BitVec.ofNat 64 n.weight.toNat :=
  (BitVec.ofNat_toNat 64 n.weight).symm

/-- A child index at bit `lo` below its valid bit `hi`, as one integer: 0 for an absent child. -/
theorem childField_toNat (c : Option NodeIdx) (hi lo : Nat) :
    (BitVec.ofBool c.isSome).toNat * 2 ^ hi + (c.getD 0).toNat * 2 ^ lo =
      (c.map (fun i => 2 ^ hi + i.toNat * 2 ^ lo)).getD 0 := by
  cases c <;> simp

theorem fieldGroup_children (n : NodeRec) : fieldGroup n 2 =
    BitVec.ofNat 64 ((n.right.map (fun c => 2 ^ 31 + c.toNat * 2 ^ 16)).getD 0 +
      (n.left.map (fun c => 2 ^ 15 + c.toNat)).getD 0) := by
  have hfields : fieldGroup n 2 = placeField (BitVec.ofBool n.right.isSome) 31 ||| (placeField (n.right.getD 0) 16 |||
      (placeField (BitVec.ofBool n.left.isSome) 15 ||| placeField (n.left.getD 0) 0)) := by
    simp [fieldGroup, bit64, placeField, BitVec.or_assoc]
  have hright := (n.right.getD 0).isLt
  have hleft := (n.left.getD 0).isLt
  have hvalid := (BitVec.ofBool n.left.isSome).isLt
  have hleftChild := childField_toNat n.left 15 0
  simp only [pow_zero, Nat.mul_one] at hleftChild
  rw [hfields, placeField_zero, placeField_or_ofNat _ (by omega), placeField_or_ofNat _ (by omega),
    placeField_or_ofNat _ (by omega), ← childField_toNat, ← hleftChild, Nat.add_assoc]

/-! ### TM_READ -/

theorem exec_tmRead {s : State} {idx : NodeIdx} {sel2 : BitVec 2} (hidx : idx.toNat < s.nn.toNat)
    (hexists : idx.toNat < Config.nnode) (hsel : sel2 ≠ 3) :
    exec (.tmRead idx sel2) s = .next (s.completed [] (fieldGroup (s.tmAt idx.toNat) sel2)) := by
  have hrange : tmReadInRange s idx sel2 = true := by
    rw [tmReadInRange, decide_eq_true hidx, decide_eq_true hsel, Bool.and_self]
  simp only [exec, execTmRead, if_pos hrange, State.tmGet_lt hexists, respond_eq]

/-- Settles O32: TM_READ of a record completes with the field group, read as an integer. -/
theorem tmReadFieldGroups : Obligations.TmReadFieldGroups := by
  unfold Obligations.TmReadFieldGroups
  intro s idx hidx hexists
  rw [exec_tmRead hidx hexists (by decide), exec_tmRead hidx hexists (by decide),
    exec_tmRead hidx hexists (by decide), fieldGroup_symbol, fieldGroup_weight, fieldGroup_children]
  simp [State.completed]

end Sys2Proof.Machine
end

section
/-! What BUILD answers (R141), the one-leaf tree (R143), and the tree as a function of FT (R146). -/

namespace Sys2Proof.Machine

/-! ### BUILD completes -/

theorem State.present_ne_nil {s : State} {k : Nat} (hk : k < Config.nsym) (hcount : s.ftAt k ≠ 0) : s.present ≠ [] :=
  List.ne_nil_of_mem ((s.mem_present k).2 ⟨hk, hcount⟩)

theorem exec_build {s : State} (hok : s.errCode = .ok) (henc : s.encSt ≠ .run) (hdec : s.decSt ≠ .run)
    (hpresent : s.present ≠ []) :
    exec .build s = .next (s.withBuiltTree.completed [] s.withBuiltTree.treeInfoReg) := by
  rw [exec, execBuild, unlessFaulted_ok hok, if_neg (not_or.2 ⟨henc, hdec⟩), if_neg hpresent, respond_eq]

theorem State.treeInfoReg_eq_ofNat (s : State) :
    s.treeInfoReg = BitVec.ofNat 64 (s.nleaf.toNat * 2 ^ 32 + s.root.toNat * 2 ^ 16 + s.nn.toNat) := by
  have hroot := s.root.isLt
  have hnn := s.nn.isLt
  rw [State.treeInfoReg_eq_fields, BitVec.or_assoc, placeField_zero, placeField_or_ofNat _ (by omega),
    placeField_or_ofNat _ (by omega), Nat.add_assoc]

/-- Settles O25: BUILD passes its checks, and its writes and its response are those of the tree. -/
theorem buildCompletes : Obligations.BuildCompletes := by
  unfold Obligations.BuildCompletes
  rintro s hok henc hdec ⟨k, hk, hcount⟩
  have hpresent := State.present_ne_nil hk hcount
  refine ⟨_, exec_build hok henc hdec hpresent, (State.withBuiltTree_treeInv hpresent).nn_ne_zero, ?_, ?_⟩
  · exact s.withBuiltTree_nleaf.trans s.leaves_length
  · rw [State.treeInfoReg_eq_ofNat]
    simp only [State.completed, List.append_nil]
    rfl

/-! ### The tree of one symbol -/

/-- The present symbols of a table with one count. -/
theorem State.present_eq_singleton {s : State} {sym : Nat} (hlt : sym < Config.nsym) (hcount : s.ftAt sym ≠ 0)
    (hothers : ∀ k, k < Config.nsym → k ≠ sym → s.ftAt k = 0) : s.present = [sym] := by
  rw [← List.perm_singleton, List.perm_ext_iff_of_nodup s.present_nodup (List.nodup_singleton sym)]
  intro k
  rw [State.mem_present, List.mem_singleton]
  refine ⟨fun ⟨hk, hne⟩ => by_contra fun h => hne (hothers k hk h), ?_⟩
  rintro rfl
  exact ⟨hlt, hcount⟩

theorem symIndex_symOfIndex {k : Nat} (hk : k < Config.nsym) : symIndex (symOfIndex k) = some k := by
  simp only [Config.nsym] at hk
  unfold symOfIndex
  split
  · rw [symIndex, BitVec.toNat_ofNat, Nat.mod_eq_of_lt ‹_›]
  · rw [symIndex, show k = 0x100 by omega]

/-- Settles O30: the tree over the one leaf is written out in R143. -/
theorem buildDegenerate : Obligations.BuildDegenerate := by
  unfold Obligations.BuildDegenerate
  intro s sym hok henc hdec hlt hcount hothers
  have hpresent := State.present_eq_singleton hlt hcount hothers
  have hleaves : s.leaves = [leafNode sym (s.ftAt sym)] := by rw [State.leaves, hpresent, List.map_singleton]
  have htm : ∀ k, s.withBuiltTree.tmAt k =
      [leafNode sym (s.ftAt sym), soleRoot (leafNode sym (s.ftAt sym))].getD k NodeRec.zero := fun k => by
    rw [State.withBuiltTree_tmAt, hleaves, treeOfLeaves]
  refine ⟨_, exec_build hok henc hdec (State.present_ne_nil hlt hcount), ?_, ?_, ?_, ?_⟩
  · exact BitVec.eq_of_toNat_eq (by rw [State.completed_nleaf, State.withBuiltTree_nleaf, hleaves]; rfl)
  · exact BitVec.eq_of_toNat_eq (by rw [State.completed_nn, State.withBuiltTree_nn, hleaves]; rfl)
  · exact BitVec.eq_of_toNat_eq (by rw [State.completed_root, State.withBuiltTree_root, hleaves]; rfl)
  · simp only [State.completed_tmAt, htm]
    exact ⟨symIndex_symOfIndex hlt, toNat_weight_leafNode _ _, rfl, rfl, fun k hk => List.getD_eq_default _ _ hk⟩

/-! ### The tree is a function of FT -/

theorem State.leaves_congr {s s' : State} (h : ∀ k, k < Config.nsym → s.ftAt k = s'.ftAt k) : s.leaves = s'.leaves := by
  have hpresent : s.present = s'.present :=
    List.filter_congr fun k hk => by rw [h k (List.mem_range.1 hk)]
  rw [State.leaves, State.leaves, ← hpresent]
  exact List.map_congr_left fun k hk => by rw [h k ((s.mem_present k).1 hk).1]

theorem State.withBuiltTree_congr {s s' : State} (h : s.leaves = s'.leaves) :
    s.withBuiltTree.tm = s'.withBuiltTree.tm ∧ s.withBuiltTree.nn = s'.withBuiltTree.nn ∧
      s.withBuiltTree.root = s'.withBuiltTree.root ∧ s.withBuiltTree.nleaf = s'.withBuiltTree.nleaf := by
  have hlength : s.present.length = s'.present.length := by rw [← State.leaves_length, h, State.leaves_length]
  simp [State.withBuiltTree, h, hlength]

theorem exec_derive_ct {s t : State} (hok : s.errCode = .ok) (h : exec .derive s = .next t) :
    ∃ found, s.rootWalk = .codes found ∧ t.ct = codeTable found := by
  rw [exec, execDerive, unlessFaulted_ok hok] at h
  cases hwalk : s.rootWalk with
  | stopped why => simp [hwalk] at h
  | codes found =>
    simp only [hwalk, respond_next] at h
    exact ⟨found, rfl, by rw [h]; rfl⟩

/-- Settles O31: BUILD reads FT through the leaves it inserts, and DERIVE reads the tree. -/
theorem buildIsFunctionOfTable : Obligations.BuildIsFunctionOfTable := by
  unfold Obligations.BuildIsFunctionOfTable
  intro s s' t t' hs hs' hft h h' ht ht'
  have htree : t.tm = t'.tm ∧ t.nn = t'.nn ∧ t.root = t'.root ∧ t.nleaf = t'.nleaf := by
    rw [(exec_build_ok h hs ht).2, (exec_build_ok h' hs' ht').2]
    exact State.withBuiltTree_congr (State.leaves_congr hft)
  obtain ⟨htm, hnn, hroot, hnleaf⟩ := htree
  refine ⟨htm, hnn, hroot, hnleaf, fun u u' hu hu' => ?_⟩
  obtain ⟨found, hwalk, hct⟩ := exec_derive_ct ht hu
  obtain ⟨found', hwalk', hct'⟩ := exec_derive_ct ht' hu'
  rw [rootWalk_congr htm hnn hroot, hwalk', WalkResult.codes.injEq] at hwalk
  rw [hct, hct', hwalk]

end Sys2Proof.Machine
end

section
/-! The leaves of the built tree and the weight of its root (R141, R149). -/

namespace Sys2Proof.Machine

/-- The leaf of the `k`-th present symbol, as TM_READ shows it: its symbol and its count. -/
theorem State.withBuiltTree_leaf_fields {s : State} (hpresent : s.present ≠ []) {k : Nat} (hk : k < s.present.length) :
    symIndex (s.withBuiltTree.tmAt k).sym = some s.present[k] ∧
      (s.withBuiltTree.tmAt k).weight.toNat = (s.ftAt s.present[k]).toNat := by
  rw [State.withBuiltTree_leaf hpresent hk]
  exact ⟨symIndex_symOfIndex ((s.mem_present _).1 (List.getElem_mem hk)).1, toNat_weight_leafNode _ _⟩

/-- Settles O27: the leaves stand in the order of the present symbols, which are all different. -/
theorem buildLeaves : Obligations.BuildLeaves := by
  unfold Obligations.BuildLeaves
  intro s t hs h ht
  obtain ⟨hpresent, rfl⟩ := exec_build_ok h hs ht
  simp only [State.completed_nleaf, State.completed_tmAt, State.withBuiltTree_nleaf, State.leaves_length]
  constructor
  · intro k hk
    obtain ⟨hsym, hweight⟩ := State.withBuiltTree_leaf_fields hpresent hk
    obtain ⟨hlt, hcount⟩ := (s.mem_present _).1 (List.getElem_mem hk)
    exact ⟨s.present[k], hlt, hsym, hcount, hweight⟩
  · intro sym hsym hcount
    obtain ⟨k, hk, rfl⟩ := List.mem_iff_getElem.1 ((s.mem_present sym).2 ⟨hsym, hcount⟩)
    refine ⟨k, ⟨hk, (State.withBuiltTree_leaf_fields hpresent hk).1⟩, fun k' ⟨hk', hsym'⟩ => ?_⟩
    rw [(State.withBuiltTree_leaf_fields hpresent hk').1, Option.some.injEq] at hsym'
    exact s.present_nodup.getElem_inj_iff.1 hsym'

/-- The weights of the leaves BUILD inserts add up to all counts of FT: the absent symbols count 0. -/
theorem State.sum_leaves (s : State) :
    (s.leaves.map (fun n => n.weight.toNat)).sum = ((List.range Config.nsym).map (fun k => (s.ftAt k).toNat)).sum := by
  have habsent : (((List.range Config.nsym).filter (fun k => decide (¬ s.ftAt k ≠ 0))).map
      (fun k => (s.ftAt k).toNat)).sum = 0 := by
    simp only [List.sum_eq_zero_iff, List.forall_mem_map, List.mem_filter, decide_eq_true_eq, not_not]
    exact fun k ⟨_, hzero⟩ => by rw [hzero]; rfl
  calc (s.leaves.map (fun n => n.weight.toNat)).sum
    _ = (s.present.map (fun k => (s.ftAt k).toNat)).sum := by
      rw [State.leaves, List.map_map]
      exact congrArg List.sum (List.map_congr_left fun k _ => toNat_weight_leafNode k (s.ftAt k))
    _ = ((List.range Config.nsym).map (fun k => (s.ftAt k).toNat)).sum := by
      have hsplit := List.sum_map_filter_add_sum_map_filter_not (fun k => s.ftAt k ≠ 0) (fun k => (s.ftAt k).toNat)
        (List.range Config.nsym)
      rwa [habsent, Nat.add_zero] at hsplit

/-- Settles O29: the whole weight of the leaves is in the one root that is left. -/
theorem buildRootWeight : Obligations.BuildRootWeight := by
  unfold Obligations.BuildRootWeight
  intro s t hs h ht
  obtain ⟨hpresent, rfl⟩ := exec_build_ok h hs ht
  have hweight := (s.forest hpresent).weight
  rw [List.map_singleton, List.sum_singleton, s.sum_leaves] at hweight
  rwa [State.completed_tmAt, State.completed_root, State.withBuiltTree_root, State.withBuiltTree_weightAt]

end Sys2Proof.Machine
end

section
/-! Which two nodes each internal record merges (R142, R145). -/

namespace Sys2Proof.Machine

/-- Record `j` is no child of another: it is live in the forest of the records `nodes`. -/
def Parentless (nodes : List NodeRec) (j : Nat) : Prop := j < nodes.length ∧ timesChild nodes j = 0

/-- `a` and `b` are the first and the second of the parentless records in the order of R142. -/
structure FirstPair (nodes : List NodeRec) (a b : Nat) : Prop where
  left : Parentless nodes a
  right : Parentless nodes b
  ordered : comesBefore nodes a b = true
  first : ∀ j, Parentless nodes j → j ≠ a → j ≠ b → comesBefore nodes b j = true

theorem FirstPair.ne {nodes : List NodeRec} {a b : Nat} (h : FirstPair nodes a b) : a ≠ b := by
  rintro rfl
  exact Bool.false_ne_true ((comesBefore_irrefl nodes a).symm.trans h.ordered)

/-- Every record from index `nleaf` on merges the first pair of the records before it. -/
def MergesFirstPairs (nleaf : Nat) (nodes : List NodeRec) : Prop :=
  ∀ k, nleaf ≤ k → k < nodes.length →
    ∃ a b, FirstPair (nodes.take k) a b ∧ nodes.getD k NodeRec.zero = mergeNode (nodes.take k) a b

theorem MergesFirstPairs.append {nleaf a b : Nat} {nodes : List NodeRec} (h : MergesFirstPairs nleaf nodes)
    (hpair : FirstPair nodes a b) : MergesFirstPairs nleaf (nodes ++ [mergeNode nodes a b]) := by
  intro k hge hk
  rcases Nat.lt_or_ge k nodes.length with hk' | hk'
  · rw [List.take_append_of_le_length hk'.le, List.getD_append _ _ _ _ hk']
    exact h k hge hk'
  · obtain rfl : k = nodes.length := by simp only [List.length_append, List.length_singleton] at hk; omega
    rw [List.take_left, List.getD_append_right _ _ _ _ hk', Nat.sub_self]
    exact ⟨a, b, hpair, rfl⟩

section
variable {leaves nodes : List NodeRec} {live : List Nat}

theorem Merging.parentless_iff (h : Merging leaves nodes live) (j : Nat) : Parentless nodes j ↔ j ∈ live := by
  rw [Parentless, h.childOfOne]
  constructor
  · rintro ⟨hlt, htimes⟩
    by_contra hj
    rw [if_pos ⟨hlt, hj⟩] at htimes
    cases htimes
  · exact fun hj => ⟨h.exist j hj, if_neg fun hn => hn.2 hj⟩

/-- The two nodes that one pass of the merge loop removes are the first pair. -/
theorem Merging.firstPair {i j k : Nat} {rest : List Nat} (h : Merging leaves nodes (i :: j :: live))
    (herase : (i :: j :: live).erase (firstLive nodes i (j :: live)) = k :: rest) :
    FirstPair nodes (firstLive nodes i (j :: live)) (firstLive nodes k rest) := by
  have hleft : ∀ x, x ∈ k :: rest ↔ x ≠ firstLive nodes i (j :: live) ∧ x ∈ i :: j :: live := fun x => by
    rw [← herase, h.nodup.mem_erase_iff]
  obtain ⟨hne, hmem⟩ := (hleft _).1 (firstLive_mem nodes k rest)
  exact {
    left := (h.parentless_iff _).2 (firstLive_mem nodes i (j :: live))
    right := (h.parentless_iff _).2 hmem
    ordered := firstLive_before nodes i (j :: live) _ hmem hne
    first := fun x hx hxa hxb =>
      firstLive_before nodes k rest x ((hleft x).2 ⟨hxa, (h.parentless_iff x).1 hx⟩) hxb }

/-- The merge loop merges first pairs only (R141, R142). -/
theorem Merging.mergeLoop_mergesFirstPairs (hlen : leaves.length ≤ Config.nsym)
    (hsum : (leaves.map (fun n => n.weight.toNat)).sum < 2 ^ 41) {fuel : Nat} (h : Merging leaves nodes live)
    (hfirst : MergesFirstPairs leaves.length nodes) :
    MergesFirstPairs leaves.length (mergeLoop fuel nodes live) := by
  induction fuel generalizing nodes live with
  | zero => exact hfirst
  | succ fuel ih =>
    match live with
    | [] => exact hfirst
    | [_] => exact hfirst
    | i :: j :: live =>
      obtain ⟨k, rest, herase, hpass, -⟩ := mergeLoop_pass fuel nodes i j live
      have hperm : (i :: j :: live).Perm
          (firstLive nodes i (j :: live) :: firstLive nodes k rest :: (k :: rest).erase (firstLive nodes k rest)) :=
        (herase ▸ List.perm_cons_erase (firstLive_mem nodes i (j :: live))).trans
          ((List.perm_cons_erase (firstLive_mem nodes k rest)).cons _)
      rw [hpass]
      exact ih ((h.perm hperm).merge hlen hsum) (hfirst.append (h.firstPair herase))

theorem treeOfLeaves_mergesFirstPairs (hmany : 2 ≤ leaves.length) (hleaf : ∀ n ∈ leaves, n.children = [])
    (hlen : leaves.length ≤ Config.nsym) (hsum : (leaves.map (fun n => n.weight.toNat)).sum < 2 ^ 41) :
    MergesFirstPairs leaves.length (treeOfLeaves leaves) := by
  have hstart : MergesFirstPairs leaves.length leaves := fun k hge hk => absurd hk (Nat.not_lt.2 hge)
  match leaves with
  | _ :: _ :: _ => exact (Merging.leaves (List.cons_ne_nil _ _) hleaf).mergeLoop_mergesFirstPairs hlen hsum hstart

end

/-- Every internal record of the tree BUILD makes merges a first pair. -/
theorem State.mergesFirstPairs {s : State} (hmany : 2 ≤ s.leaves.length) :
    MergesFirstPairs s.leaves.length (treeOfLeaves s.leaves) :=
  treeOfLeaves_mergesFirstPairs hmany s.children_of_mem_leaves (s.leaves_length ▸ s.present_length_le) s.sum_leaves_lt

/-! ### The words of the statement, read from the list of records -/

section
variable {s : State} {nodes : List NodeRec} (htm : ∀ k, s.tmAt k = nodes.getD k NodeRec.zero)
include htm

theorem weightAt_take {k i : Nat} (hi : i < k) : weightAt (nodes.take k) i = (s.tmAt i).weight := by
  rw [weightAt, htm, List.getD_eq_getElem?_getD, List.getElem?_take_of_lt hi, ← List.getD_eq_getElem?_getD]

theorem before_iff_comesBefore {k i j : Nat} (hi : i < k) (hj : j < k) :
    s.before i j ↔ comesBefore (nodes.take k) i j = true := by
  rw [comesBefore_iff, weightAt_take htm hi, weightAt_take htm hj, State.before]

theorem liveAt_iff_parentless {k : Nat} (hk : k ≤ nodes.length) (j : Nat) :
    s.liveAt k j ↔ Parentless (nodes.take k) j := by
  have htimes : s.timesChildBelow k j = timesChild (nodes.take k) j := by
    unfold State.timesChildBelow timesChild
    congr 1
    apply List.ext_getElem (by simp [hk])
    intro i hi _
    have hik : i < k := by simpa using hi
    simp [htm, hik.trans_le hk]
  rw [State.liveAt, Parentless, htimes, List.length_take_of_le hk]

/-- The first pair of the records before `k` are the two first live nodes when record `k` is created. -/
theorem FirstPair.liveAt {k a b : Nat} (hk : k ≤ nodes.length) (h : FirstPair (nodes.take k) a b) :
    s.liveAt k a ∧ s.liveAt k b ∧ s.before a b ∧ ∀ j, s.liveAt k j → j ≠ a → j ≠ b → s.before b j := by
  have hlive := liveAt_iff_parentless htm hk
  have ha := (hlive a).2 h.left
  have hb := (hlive b).2 h.right
  exact ⟨ha, hb, (before_iff_comesBefore htm ha.1 hb.1).2 h.ordered,
    fun j hj hja hjb => (before_iff_comesBefore htm hb.1 hj.1).2 (h.first j ((hlive j).1 hj) hja hjb)⟩

end

/-- Settles O28: every record of the merge loop merges a first pair, TM holds these records, and the sum is that of R27. -/
theorem buildMergesTwoFirst : Obligations.BuildMergesTwoFirst := by
  unfold Obligations.BuildMergesTwoFirst
  intro s t hs h ht hmany k hge hk
  have hweight := (buildMakesTree s t hs h ht).weights k hk hge
  obtain ⟨-, hbuilt⟩ := exec_build_ok h hs ht
  have htm : ∀ i, t.tmAt i = (treeOfLeaves s.leaves).getD i NodeRec.zero := hbuilt ▸ s.withBuiltTree_tmAt
  have hnleaf : t.nleaf.toNat = s.leaves.length := hbuilt ▸ s.withBuiltTree_nleaf
  have hnn : t.nn.toNat = (treeOfLeaves s.leaves).length := hbuilt ▸ s.withBuiltTree_nn
  rw [hnleaf] at hmany hge
  rw [hnn] at hk
  obtain ⟨a, b, hpair, hrecord⟩ := State.mergesFirstPairs hmany k hge hk
  rw [← htm] at hrecord
  obtain ⟨halive, hblive, hordered, hfirst⟩ := hpair.liveAt htm hk.le
  have hfit : (treeOfLeaves s.leaves).length ≤ 513 := treeOfLeaves_length_le s
  have ha : (BitVec.ofNat 10 a).toNat = a := Nat.mod_eq_of_lt (by have := halive.1; omega)
  have hb : (BitVec.ofNat 10 b).toNat = b := Nat.mod_eq_of_lt (by have := hblive.1; omega)
  refine ⟨BitVec.ofNat 10 a, BitVec.ofNat 10 b, congrArg NodeRec.left hrecord, congrArg NodeRec.right hrecord,
    fun hab => hpair.ne (by rw [← ha, hab, hb]), ?_⟩
  simp only [hrecord, children_mergeNode, List.map_cons, List.map_nil, List.sum_cons, List.sum_nil, Nat.add_zero,
    ha, hb] at hweight ⊢
  exact ⟨halive, hblive, hordered, hfirst, rfl, hweight⟩

end Sys2Proof.Machine
end

section
/-! Paths in a tree (R25 to R27, R145): the leaf a path leads to, and in a sound tree the one path from ROOT to a
record. -/

namespace Sys2Proof.Machine

/-! ### Following a path -/

@[simp] theorem State.follow_nil (s : State) (i : NodeIdx) : s.follow i [] = some i := rfl

theorem State.follow_cons (s : State) (i : NodeIdx) (b : Bool) (path : List Bool) :
    s.follow i (b :: path) = ((s.tmAt i.toNat).child b).bind (fun c => s.follow c path) := by
  rw [State.follow, NodeRec.child]
  cases (if b then (s.tmAt i.toNat).right else (s.tmAt i.toNat).left) <;> rfl

theorem State.follow_append (s : State) (i : NodeIdx) (p q : List Bool) :
    s.follow i (p ++ q) = (s.follow i p).bind (fun k => s.follow k q) := by
  induction p generalizing i with
  | nil => rfl
  | cons b p ih => simp only [List.cons_append, State.follow_cons, ih, Option.bind_assoc]

theorem State.follow_concat {s : State} {i c : NodeIdx} {p : List Bool} {b : Bool} :
    s.follow i (p ++ [b]) = some c ↔ ∃ k, s.follow i p = some k ∧ (s.tmAt k.toNat).child b = some c := by
  simp [State.follow_append, State.follow_cons, Option.bind_eq_some_iff]

theorem NodeRec.child_of_isLeaf {n : NodeRec} (h : n.isLeaf = true) (b : Bool) : n.child b = none := by
  simp only [NodeRec.isLeaf, Bool.and_eq_true, Option.isNone_iff_eq_none] at h
  cases b
  · exact h.1
  · exact h.2

/-- From record `i` the edges `path` lead to a leaf, and `sym` is the CT index of its symbol. -/
def State.leadsTo (s : State) (i : NodeIdx) (path : List Bool) (sym : Nat) : Prop :=
  ∃ k, s.follow i path = some k ∧ (s.tmAt k.toNat).isLeaf = true ∧ symIndex (s.tmAt k.toNat).sym = some sym

/-- No edge leaves a leaf. -/
theorem State.follow_leaf {s : State} {i k : NodeIdx} (h : (s.tmAt i.toNat).isLeaf = true) {path : List Bool}
    (hpath : s.follow i path = some k) : path = [] ∧ k = i := by
  cases path with
  | nil => exact ⟨rfl, (Option.some.inj hpath).symm⟩
  | cons b path => simp [State.follow_cons, NodeRec.child_of_isLeaf h] at hpath

theorem State.leadsTo_leaf {s : State} {i : NodeIdx} (h : (s.tmAt i.toNat).isLeaf = true) {path : List Bool}
    {sym : Nat} :
    s.leadsTo i path sym ↔ path = [] ∧ symIndex (s.tmAt i.toNat).sym = some sym := by
  constructor
  · rintro ⟨k, hpath, -, hsym⟩
    obtain ⟨rfl, rfl⟩ := State.follow_leaf h hpath
    exact ⟨rfl, hsym⟩
  · rintro ⟨rfl, hsym⟩
    exact ⟨i, rfl, h, hsym⟩

theorem State.leadsTo_cons {s : State} {i : NodeIdx} {b : Bool} {path : List Bool} {sym : Nat} :
    s.leadsTo i (b :: path) sym ↔ ∃ c, (s.tmAt i.toNat).child b = some c ∧ s.leadsTo c path sym := by
  simp only [State.leadsTo, State.follow_cons, Option.bind_eq_some_iff]
  exact ⟨fun ⟨k, ⟨c, hc, hk⟩, hleaf⟩ => ⟨c, hc, k, hk, hleaf⟩, fun ⟨c, hc, k, hk, hleaf⟩ => ⟨k, ⟨c, hc, hk⟩, hleaf⟩⟩

theorem State.not_leadsTo_nil {s : State} {i : NodeIdx} (h : (s.tmAt i.toNat).isLeaf = false) {sym : Nat} :
    ¬ s.leadsTo i [] sym := by
  rintro ⟨k, hk, hleaf, -⟩
  obtain rfl : i = k := Option.some.inj hk
  rw [h] at hleaf
  cases hleaf

/-- Paths to leaves of different symbols are no prefixes of each other (R172). -/
theorem State.leadsTo_prefix {s : State} {i : NodeIdx} {p q : List Bool} {a b : Nat} (hp : s.leadsTo i p a)
    (hq : s.leadsTo i q b) (h : p <+: q) : a = b := by
  obtain ⟨k, hk, hleaf, hsym⟩ := hp
  obtain ⟨k', hk', -, hsym'⟩ := hq
  obtain ⟨rest, rfl⟩ := h
  rw [State.follow_append, hk] at hk'
  obtain ⟨-, rfl⟩ := State.follow_leaf hleaf hk'
  exact Option.some.inj (hsym.symm.trans hsym')

/-! ### Parents -/

/-- The times a record is named as a child are the edges that arrive at it. -/
theorem State.timesChildBelow_eq_card (s : State) (bound : Nat) (c : NodeIdx) :
    s.timesChildBelow bound c.toNat =
      ((Finset.range bound ×ˢ Finset.univ).filter (fun e : Nat × Bool => (s.tmAt e.1).child e.2 = some c)).card := by
  have hone : ∀ n : NodeRec, n.children.countP (fun d => decide (d.toNat = c.toNat)) =
      ∑ b : Bool, if n.child b = some c then 1 else 0 := by
    intro ⟨_, _, left, right⟩
    rw [Fintype.sum_bool]
    cases left <;> cases right <;> simp [NodeRec.child, NodeRec.children, BitVec.toNat_inj, List.countP_cons]
  rw [Finset.card_filter, Finset.sum_product]
  change ∑ k ∈ Finset.range bound, _ = _
  exact Finset.sum_congr rfl fun k _ => hone (s.tmAt k)

section
variable {s : State} (h : TreeInv s)
include h

theorem TreeInv.child_lt {i c : NodeIdx} {b : Bool} (hi : i.toNat < s.nn.toNat)
    (hc : (s.tmAt i.toNat).child b = some c) : c.toNat < i.toNat :=
  h.childBelow _ hi c (NodeRec.mem_children_of_child hc)

/-- R27: at most one edge arrives at a record, and none at ROOT. -/
theorem TreeInv.parent_unique {i i' c : NodeIdx} {b b' : Bool} (hi : i.toNat < s.nn.toNat) (hi' : i'.toNat < s.nn.toNat)
    (hc : (s.tmAt i.toNat).child b = some c) (hc' : (s.tmAt i'.toNat).child b' = some c) :
    c ≠ s.root ∧ i = i' ∧ b = b' := by
  have hparents := h.oneParent c.toNat ((h.child_lt hi hc).trans hi)
  rw [s.timesChildBelow_eq_card] at hparents
  have hmem : (i.toNat, b) ∈
      (Finset.range s.nn.toNat ×ˢ Finset.univ).filter (fun e : Nat × Bool => (s.tmAt e.1).child e.2 = some c) := by
    simp [hi, hc]
  have hmem' : (i'.toNat, b') ∈
      (Finset.range s.nn.toNat ×ˢ Finset.univ).filter (fun e : Nat × Bool => (s.tmAt e.1).child e.2 = some c) := by
    simp [hi', hc']
  have hle : (if c.toNat = s.root.toNat then 0 else 1) ≤ 1 := by split <;> omega
  have heq := Finset.card_le_one.1 (hparents.trans_le hle) _ hmem _ hmem'
  refine ⟨?_, BitVec.eq_of_toNat_eq (congrArg Prod.fst heq), congrArg Prod.snd heq⟩
  rintro rfl
  rw [if_pos rfl] at hparents
  exact (Finset.card_ne_zero_of_mem hmem) hparents

/-- R27: an edge arrives at every record but ROOT. -/
theorem TreeInv.exists_parent {c : NodeIdx} (hc : c.toNat < s.nn.toNat) (hroot : c ≠ s.root) :
    ∃ (i : NodeIdx) (b : Bool), i.toNat < s.nn.toNat ∧ (s.tmAt i.toNat).child b = some c := by
  have hparents := h.oneParent c.toNat hc
  rw [s.timesChildBelow_eq_card, if_neg (mt BitVec.eq_of_toNat_eq hroot)] at hparents
  obtain ⟨⟨k, b⟩, hmem⟩ := Finset.card_pos.1 (hparents ▸ Nat.one_pos)
  simp only [Finset.mem_filter, Finset.mem_product, Finset.mem_range, Finset.mem_univ, and_true] at hmem
  have hk : (BitVec.ofNat 10 k).toNat = k := Nat.mod_eq_of_lt (hmem.1.trans s.nn.isLt)
  exact ⟨BitVec.ofNat 10 k, b, by rw [hk]; exact hmem⟩

/-! ### The path from ROOT -/

theorem TreeInv.follow_lt {i k : NodeIdx} {path : List Bool} (hi : i.toNat < s.nn.toNat)
    (hpath : s.follow i path = some k) : k.toNat < s.nn.toNat := by
  induction path generalizing i with
  | nil => exact Option.some.inj hpath ▸ hi
  | cons b path ih =>
    rw [State.follow_cons, Option.bind_eq_some_iff] at hpath
    obtain ⟨c, hc, hpath⟩ := hpath
    exact ih ((h.child_lt hi hc).trans hi) hpath

theorem TreeInv.ne_nil_of_leadsTo {path : List Bool} {sym : Nat} (hpath : s.leadsTo s.root path sym) : path ≠ [] := by
  rintro rfl
  exact State.not_leadsTo_nil h.root_not_leaf hpath

/-- Two paths from ROOT to the same record are the same path. -/
theorem TreeInv.follow_root_inj {p q : List Bool} {c : NodeIdx} (hp : s.follow s.root p = some c)
    (hq : s.follow s.root q = some c) : p = q := by
  have hnone : ∀ {p b}, s.follow s.root (p ++ [b]) ≠ some s.root := by
    intro p b hp
    obtain ⟨k, hk, hc⟩ := State.follow_concat.1 hp
    have hlt := h.follow_lt h.root_lt hk
    exact (h.parent_unique hlt hlt hc hc).1 rfl
  induction p using List.reverseRecOn generalizing q c with
  | nil =>
    obtain rfl : s.root = c := Option.some.inj hp
    rcases q.eq_nil_or_concat with rfl | ⟨q, b, rfl⟩
    · rfl
    · exact absurd hq (List.concat_eq_append ▸ hnone)
  | append_singleton p b ih =>
    rcases q.eq_nil_or_concat with rfl | ⟨q, b', rfl⟩
    · obtain rfl : s.root = c := Option.some.inj hq
      exact absurd hp hnone
    · rw [List.concat_eq_append] at hq ⊢
      obtain ⟨i, hi, hc⟩ := State.follow_concat.1 hp
      obtain ⟨i', hi', hc'⟩ := State.follow_concat.1 hq
      obtain ⟨-, rfl, rfl⟩ := h.parent_unique (h.follow_lt h.root_lt hi) (h.follow_lt h.root_lt hi') hc hc'
      rw [ih hi hi']

/-- Every record has a path from ROOT: its parent, which has a greater index, has one. -/
theorem TreeInv.exists_path {c : NodeIdx} (hc : c.toNat < s.nn.toNat) : ∃ path, s.follow s.root path = some c := by
  induction hn : s.nn.toNat - c.toNat using Nat.strong_induction_on generalizing c with
  | _ n ih =>
    by_cases hroot : c = s.root
    · exact ⟨[], congrArg some hroot.symm⟩
    · obtain ⟨i, b, hi, hchild⟩ := h.exists_parent hc hroot
      have hlt := h.child_lt hi hchild
      obtain ⟨path, hpath⟩ := ih _ (by omega) hi rfl
      exact ⟨path ++ [b], State.follow_concat.2 ⟨i, hpath, hchild⟩⟩

/-! ### The leaves and their symbols -/

theorem TreeInv.nleaf_lt : s.nleaf.toNat < s.nn.toNat := by
  have hcount := h.leafCount
  have hnodes := h.nodeCount
  split at hnodes <;> omega

/-- R26: the leaves are the first NLEAF records. -/
theorem TreeInv.isLeaf_iff {k : Nat} (hk : k < s.nn.toNat) : (s.tmAt k).isLeaf = true ↔ k < s.nleaf.toNat := by
  refine ⟨fun hleaf => ?_, fun hlt => (h.leaves k hlt).1⟩
  by_contra hge
  obtain ⟨-, hsome, -⟩ := h.internals k hk (Nat.le_of_not_lt hge)
  rw [show (s.tmAt k).left = none from NodeRec.child_of_isLeaf hleaf false] at hsome
  cases hsome

end

/-- The symbol codes of the leaves, in the order of TM. -/
def State.leafSyms (s : State) : List Nat :=
  (List.range s.nleaf.toNat).map (fun k => (symCode (s.tmAt k).sym).toNat)

@[simp] theorem State.leafSyms_length (s : State) : s.leafSyms.length = s.nleaf.toNat := by simp [State.leafSyms]

/-- A CT index is the code of its symbol (R21). -/
theorem symCode_of_symIndex {sym : Symbol} {k : Nat} (h : symIndex sym = some k) : (symCode sym).toNat = k := by
  cases sym with
  | byte b =>
    rw [← Option.some.inj h, symCode, BitVec.toNat_setWidth]
    exact Nat.mod_eq_of_lt (by have := b.isLt; omega)
  | endOfData => exact Option.some.inj h
  | internal => cases h

/-- No two leaves have the same symbol (R26). -/
theorem TreeInv.leafSyms_nodup {s : State} (h : TreeInv s) : s.leafSyms.Nodup := by
  have hchain : s.leafSyms.IsChain (· < ·) := by
    rw [List.isChain_iff_getElem]
    intro k hk
    rw [State.leafSyms_length] at hk
    simpa [State.leafSyms] using h.ascending k hk
  exact (List.isChain_iff_pairwise.1 hchain).nodup

theorem TreeInv.symIndex_inj {s : State} (h : TreeInv s) {k k' sym : Nat} (hk : k < s.nleaf.toNat)
    (hk' : k' < s.nleaf.toNat) (hsym : symIndex (s.tmAt k).sym = some sym)
    (hsym' : symIndex (s.tmAt k').sym = some sym) : k = k' := by
  refine (h.leafSyms_nodup.getElem_inj_iff (hi := by simpa) (hj := by simpa)).1 ?_
  simp [State.leafSyms, symCode_of_symIndex hsym, symCode_of_symIndex hsym']

/-- Every leaf has a path from ROOT. -/
theorem TreeInv.exists_path_leaf {s : State} (h : TreeInv s) {k sym : Nat} (hk : k < s.nleaf.toNat)
    (hsym : symIndex (s.tmAt k).sym = some sym) :
    ∃ path, s.follow s.root path = some (BitVec.ofNat 10 k) ∧ s.leadsTo s.root path sym := by
  have hlt := hk.trans h.nleaf_lt
  have hnode : (BitVec.ofNat 10 k).toNat = k := Nat.mod_eq_of_lt (hlt.trans s.nn.isLt)
  obtain ⟨path, hpath⟩ := h.exists_path (c := BitVec.ofNat 10 k) (by rwa [hnode])
  exact ⟨path, hpath, _, hpath, by rw [hnode]; exact ⟨(h.isLeaf_iff hlt).2 hk, hsym⟩⟩

/-- A path from ROOT to a leaf ends at one of the first NLEAF records. -/
theorem TreeInv.exists_leaf_of_leadsTo {s : State} (h : TreeInv s) {path : List Bool} {sym : Nat}
    (hpath : s.leadsTo s.root path sym) :
    ∃ k, s.follow s.root path = some k ∧ k.toNat < s.nleaf.toNat ∧ symIndex (s.tmAt k.toNat).sym = some sym := by
  obtain ⟨k, hk, hleaf, hsym⟩ := hpath
  exact ⟨k, hk, (h.isLeaf_iff (h.follow_lt h.root_lt hk)).1 hleaf, hsym⟩

/-- The symbols with a path from ROOT are those of the leaves. -/
theorem TreeInv.mem_leafSyms {s : State} (h : TreeInv s) {sym : Nat} :
    sym ∈ s.leafSyms ↔ ∃ path, s.leadsTo s.root path sym := by
  simp only [State.leafSyms, List.mem_map, List.mem_range]
  constructor
  · rintro ⟨k, hk, rfl⟩
    obtain ⟨-, hcodable, -⟩ := h.leaves k hk
    obtain ⟨sym, hsym⟩ := symIndex_isSome hcodable
    obtain ⟨path, -, hpath⟩ := h.exists_path_leaf hk hsym
    exact ⟨path, by rwa [symCode_of_symIndex hsym]⟩
  · rintro ⟨path, hpath⟩
    obtain ⟨k, -, hk, hsym⟩ := h.exists_leaf_of_leadsTo hpath
    exact ⟨k.toNat, hk, symCode_of_symIndex hsym⟩

/-- A symbol has one path from ROOT. -/
theorem TreeInv.leadsTo_root_inj {s : State} (h : TreeInv s) {p q : List Bool} {sym : Nat}
    (hp : s.leadsTo s.root p sym) (hq : s.leadsTo s.root q sym) : p = q := by
  obtain ⟨k, hk, hlt, hsym⟩ := h.exists_leaf_of_leadsTo hp
  obtain ⟨k', hk', hlt', hsym'⟩ := h.exists_leaf_of_leadsTo hq
  obtain rfl : k = k' := BitVec.eq_of_toNat_eq (h.symIndex_inj hlt hlt' hsym hsym')
  exact h.follow_root_inj hk hk'

end Sys2Proof.Machine
end

section
/-! DERIVE (R170 to R172): what its walk finds, the codes of a derived table, and their Kraft sum. -/

namespace Sys2Proof.Machine

/-! ### The walk -/

/-- The walk below the child of record `i` on edge `b`; an absent child has no codes (R171). -/
def walkChild (s : State) (fuel : Nat) (i : NodeIdx) (path : List Bool) (b : Bool) : WalkResult :=
  match (s.tmAt i.toNat).child b with
  | none => .codes []
  | some c => walk s fuel c (path ++ [b])

section
variable {s : State} {fuel : Nat} {i : NodeIdx} {path : List Bool} {found : List (Nat × List Bool)}

theorem walkChild_none {b : Bool} (hc : (s.tmAt i.toNat).child b = none) :
    walkChild s fuel i path b = .codes [] := by
  simp only [walkChild, hc]

theorem walkChild_some {b : Bool} {c : NodeIdx} (hc : (s.tmAt i.toNat).child b = some c) :
    walkChild s fuel i path b = walk s fuel c (path ++ [b]) := by
  simp only [walkChild, hc]

/-- What a walk that finds its codes does: it stands at a leaf, or it walks below both children. -/
theorem walk_succ_cases (h : walk s (fuel + 1) i path = .codes found) :
    ((s.tmAt i.toNat).isLeaf = true ∧ ∃ sym, symIndex (s.tmAt i.toNat).sym = some sym ∧ found = [(sym, path)]) ∨
      ((s.tmAt i.toNat).isLeaf = false ∧ ∃ l r, walkChild s fuel i path false = .codes l ∧
        walkChild s fuel i path true = .codes r ∧ found = l ++ r) := by
  unfold walk at h
  split at h
  · cases h
  · next n hn =>
    obtain ⟨-, rfl⟩ := State.tmGet_eq_some.1 hn
    split at h
    · next hleaf =>
      split at h
      · cases h
      · next sym hsym =>
        cases h
        exact .inl ⟨hleaf, sym, hsym, rfl⟩
    · next hnode =>
      obtain ⟨l, r, hl, hr, rfl⟩ := WalkResult.append_codes.1 h
      exact .inr ⟨Bool.eq_false_iff.2 hnode, l, r, hl, hr, rfl⟩

/-- The codes found are the paths to leaves below the record, each with the leaf's symbol (R171). -/
theorem mem_walk (h : walk s fuel i path = .codes found) (sym : Nat) (code : List Bool) :
    (sym, code) ∈ found ↔ ∃ p, code = path ++ p ∧ s.leadsTo i p sym := by
  induction fuel generalizing i path found with
  | zero => cases h
  | succ fuel ih =>
    rcases walk_succ_cases h with ⟨hleaf, sym', hsym', rfl⟩ | ⟨hnode, l, r, hl, hr, rfl⟩
    · simp [State.leadsTo_leaf hleaf, hsym', eq_comm, and_comm]
    · have hchild : ∀ {b part}, walkChild s fuel i path b = .codes part →
          ((sym, code) ∈ part ↔ ∃ p, code = path ++ b :: p ∧ s.leadsTo i (b :: p) sym) := by
        intro b part hpart
        cases hc : (s.tmAt i.toNat).child b with
        | none =>
          rw [walkChild_none hc, WalkResult.codes.injEq] at hpart
          simp [← hpart, State.leadsTo_cons, hc]
        | some c =>
          rw [walkChild_some hc] at hpart
          simp [ih hpart, State.leadsTo_cons, hc]
      rw [List.mem_append, hchild hl, hchild hr]
      constructor
      · rintro (⟨p, hp⟩ | ⟨p, hp⟩)
        · exact ⟨_, hp⟩
        · exact ⟨_, hp⟩
      · rintro ⟨p, hcode, hp⟩
        cases p with
        | nil => exact absurd hp (State.not_leadsTo_nil hnode)
        | cons b p =>
          cases b
          · exact .inl ⟨p, hcode, hp⟩
          · exact .inr ⟨p, hcode, hp⟩

/-- A code found below the child on edge `b` goes on with `b`. -/
theorem isPrefix_of_mem_walkChild {b : Bool} (h : walkChild s fuel i path b = .codes found) :
    ∀ e ∈ found, path ++ [b] <+: e.2 := by
  rintro ⟨sym, code⟩ he
  cases hc : (s.tmAt i.toNat).child b with
  | none =>
    rw [walkChild_none hc, WalkResult.codes.injEq] at h
    cases h ▸ he
  | some c =>
    rw [walkChild_some hc] at h
    obtain ⟨p, rfl, -⟩ := (mem_walk h sym code).1 he
    exact List.prefix_append _ _

/-- No code is found twice: the codes below the two children differ in their next bit. -/
theorem walk_nodup (h : walk s fuel i path = .codes found) : found.Nodup := by
  induction fuel generalizing i path found with
  | zero => cases h
  | succ fuel ih =>
    rcases walk_succ_cases h with ⟨-, sym, -, rfl⟩ | ⟨-, l, r, hl, hr, rfl⟩
    · exact List.nodup_singleton _
    · have hchild : ∀ {b part}, walkChild s fuel i path b = .codes part → part.Nodup := by
        intro b part hpart
        cases hc : (s.tmAt i.toNat).child b with
        | none =>
          rw [walkChild_none hc, WalkResult.codes.injEq] at hpart
          exact hpart ▸ List.nodup_nil
        | some c => exact ih (walkChild_some hc ▸ hpart)
      refine (hchild hl).append (hchild hr) fun e hel her => ?_
      obtain ⟨p, hp⟩ := isPrefix_of_mem_walkChild hl e hel
      obtain ⟨q, hq⟩ := isPrefix_of_mem_walkChild hr e her
      simp [← hq] at hp

/-- Where every internal record has both children, the codes found below a record fill the code space of its path
(R172). -/
theorem TreeInv.walk_kraft (h : TreeInv s) (hmany : s.nleaf.toNat ≠ 1) {bits : Nat} (hi : i.toNat < s.nn.toNat)
    (hbits : path.length + fuel ≤ bits + 1) (hwalk : walk s fuel i path = .codes found) :
    (found.map (fun e => 2 ^ (bits - e.2.length))).sum = 2 ^ (bits - path.length) := by
  induction fuel generalizing i path found with
  | zero => cases hwalk
  | succ fuel ih =>
    rcases walk_succ_cases hwalk with ⟨-, sym, -, rfl⟩ | ⟨hnode, l, r, hl, hr, rfl⟩
    · simp
    · obtain ⟨-, hleft, hright⟩ := h.internals _ hi (Nat.le_of_not_lt (mt (h.isLeaf_iff hi).2 (by simp [hnode])))
      rw [decide_eq_true hmany] at hright
      have hsome : ∀ b, ∃ c, (s.tmAt i.toNat).child b = some c := by
        intro b
        cases b
        · exact Option.isSome_iff_exists.1 hleft
        · exact Option.isSome_iff_exists.1 hright
      have hchild : ∀ {b part}, walkChild s fuel i path b = .codes part →
          (part.map (fun e => 2 ^ (bits - e.2.length))).sum = 2 ^ (bits - (path.length + 1)) := by
        intro b part hpart
        obtain ⟨c, hc⟩ := hsome b
        rw [walkChild_some hc] at hpart
        simpa using ih ((h.child_lt hi hc).trans hi) (by simp; omega) hpart
      have hfuel : fuel ≠ 0 := by
        rintro rfl
        obtain ⟨c, hc⟩ := hsome false
        cases (walkChild_some hc).symm.trans hl
      rw [List.map_append, List.sum_append, hchild hl, hchild hr, ← two_mul, ← pow_succ']
      congr 1
      omega

end

/-! ### The derived table -/

section
variable {s : State} {found : List (Nat × List Bool)} (h : TreeInv s) (hwalk : s.rootWalk = .codes found)
include h hwalk

theorem TreeInv.rootWalk_walk : walk s (Config.maxLen + 1) s.root [] = .codes found := by
  rwa [State.rootWalk, if_neg h.nn_ne_zero] at hwalk

theorem TreeInv.mem_rootWalk (sym : Nat) (code : List Bool) : (sym, code) ∈ found ↔ s.leadsTo s.root code sym := by
  simp [mem_walk (h.rootWalk_walk hwalk)]

theorem TreeInv.rootWalk_syms_nodup : (found.map Prod.fst).Nodup := by
  refine List.Nodup.map_on ?_ (walk_nodup (h.rootWalk_walk hwalk))
  rintro ⟨sym, p⟩ hp ⟨_, q⟩ hq rfl
  rw [h.leadsTo_root_inj ((h.mem_rootWalk hwalk _ _).1 hp) ((h.mem_rootWalk hwalk _ _).1 hq)]

/-- The walk finds one code for every leaf. -/
theorem TreeInv.rootWalk_length : found.length = s.nleaf.toNat := by
  have hperm : (found.map Prod.fst).Perm s.leafSyms := by
    rw [List.perm_ext_iff_of_nodup (h.rootWalk_syms_nodup hwalk) h.leafSyms_nodup]
    intro sym
    rw [h.mem_leafSyms, List.mem_map]
    constructor
    · rintro ⟨⟨_, code⟩, he, rfl⟩
      exact ⟨code, (h.mem_rootWalk hwalk _ _).1 he⟩
    · rintro ⟨code, hcode⟩
      exact ⟨(sym, code), (h.mem_rootWalk hwalk _ _).2 hcode, rfl⟩
  simpa using hperm.length_eq

/-- In the derived table a code is the path from ROOT to the leaf of its symbol. -/
theorem TreeInv.codeTable_eq_iff {sym : Nat} {code : List Bool} (hne : code ≠ []) :
    tableRead [] (codeTable found) sym = code ↔ s.leadsTo s.root code sym := by
  obtain ⟨hread, hnone⟩ := codeTable_read found (h.rootWalk_syms_nodup hwalk) sym
  rw [← h.mem_rootWalk hwalk]
  refine ⟨fun hcode => ?_, hread code⟩
  by_contra hmem
  refine hne (hcode.symm.trans (hnone ?_))
  rintro ⟨_, code'⟩ he rfl
  exact hmem (hcode ▸ hread code' he ▸ he)

/-- The symbols with a code are those whose code the walk found. -/
theorem TreeInv.codeTable_syms_perm :
    (found.map Prod.fst).Perm ((List.range 257).filter (fun k => decide (tableRead [] (codeTable found) k ≠ []))) := by
  rw [List.perm_ext_iff_of_nodup (h.rootWalk_syms_nodup hwalk) (List.nodup_range.filter _)]
  intro sym
  rw [List.mem_map, List.mem_filter, List.mem_range, decide_eq_true_eq]
  constructor
  · rintro ⟨⟨_, code⟩, he, rfl⟩
    have hcode := (h.mem_rootWalk hwalk _ _).1 he
    have hne := h.ne_nil_of_leadsTo hcode
    refine ⟨rootWalk_index_lt s found hwalk _ he, ?_⟩
    rwa [(h.codeTable_eq_iff hwalk hne).2 hcode]
  · rintro ⟨-, hne⟩
    exact ⟨_, (h.mem_rootWalk hwalk _ _).2 ((h.codeTable_eq_iff hwalk hne).1 rfl), rfl⟩

/-- A sum over the codes of the derived table is a sum over the codes the walk found. -/
theorem TreeInv.codeTable_sum (f : List Bool → Nat) :
    (((List.range 257).filter (fun k => decide (tableRead [] (codeTable found) k ≠ []))).map
      (fun k => f (tableRead [] (codeTable found) k))).sum = (found.map (fun e => f e.2)).sum := by
  rw [← ((h.codeTable_syms_perm hwalk).map _).sum_eq, List.map_map]
  congr 1
  refine List.map_congr_left fun e he => congrArg f ?_
  exact (codeTable_read found (h.rootWalk_syms_nodup hwalk) e.1).1 e.2 he

/-- The Kraft sum of the codes the walk found (R172): one leaf has a code of one bit, and more leaves fill the code
space. -/
theorem TreeInv.rootWalk_kraft :
    (found.map (fun e => 2 ^ (256 - e.2.length))).sum = if s.nleaf.toNat = 1 then 2 ^ 255 else 2 ^ 256 := by
  have hwalk' := h.rootWalk_walk hwalk
  split
  · next hone =>
    obtain ⟨⟨sym, code⟩, rfl⟩ := List.length_eq_one_iff.1 ((h.rootWalk_length hwalk).trans hone)
    have hcode := (h.mem_rootWalk hwalk sym code).1 (List.mem_singleton_self _)
    cases code with
    | nil => exact absurd rfl (h.ne_nil_of_leadsTo hcode)
    | cons b rest =>
      obtain ⟨c, hc, hrest⟩ := State.leadsTo_cons.1 hcode
      have hbelow := h.child_lt h.root_lt hc
      have hcount := h.nodeCount
      have hlast := h.rootLast
      rw [if_pos hone] at hcount
      have hleaf := (h.isLeaf_iff (hbelow.trans h.root_lt)).2 (by omega)
      obtain ⟨rfl, -⟩ := (State.leadsTo_leaf hleaf).1 hrest
      simp
  · next hmany => exact h.walk_kraft hmany h.root_lt (by simp) hwalk'

end

/-! ### DERIVE -/

theorem exec_derive {s : State} {found : List (Nat × List Bool)} (hok : s.errCode = .ok)
    (hwalk : s.rootWalk = .codes found) :
    exec .derive s = .next ((s.setCt (codeTable found)).completed [] (BitVec.ofNat 64 found.length)) := by
  rw [exec, execDerive, unlessFaulted_ok hok, hwalk]
  exact respond_eq _ _

/-- After DERIVE every entry of CT is that of the table of the codes the walk found. -/
theorem ctAt_derive {s t : State} (hok : s.errCode = .ok) (hderive : exec .derive s = .next t) :
    ∃ found, s.rootWalk = .codes found ∧ ∀ sym, t.ctAt sym = tableRead [] (codeTable found) sym := by
  obtain ⟨found, hwalk, hct⟩ := exec_derive_ct hok hderive
  exact ⟨found, hwalk, fun sym => by rw [State.ctAt, hct]⟩

/-- Settles O33: the walk finds every leaf's path and no other, and the table holds what it found. -/
theorem deriveRecordsPaths : Obligations.DeriveRecordsPaths := by
  unfold Obligations.DeriveRecordsPaths
  intro s hok
  refine ⟨fun hnn => ?_, fun _ h => ?_⟩
  · have hwalk : s.rootWalk = .codes [] := by rw [State.rootWalk, if_pos hnn]
    rw [exec_derive hok hwalk, State.completed, List.append_nil]
    rfl
  obtain ⟨found, hwalk⟩ := State.treeSound.rootWalk_codes (.inr ⟨h.nn_ne_zero, h⟩)
  have hct : ∀ sym, ((s.setCt (codeTable found)).completed [] (BitVec.ofNat 64 found.length)).ctAt sym =
      tableRead [] (codeTable found) sym := fun _ => rfl
  refine ⟨_, exec_derive hok hwalk, ?_, fun k hk => ?_, fun sym habsent => ?_⟩
  · rw [h.rootWalk_length hwalk, State.completed, List.append_nil]
    rfl
  · obtain ⟨-, hcodable, -⟩ := h.leaves k hk
    obtain ⟨sym, hsym⟩ := symIndex_isSome hcodable
    obtain ⟨code, hpath, hcode⟩ := h.exists_path_leaf hk hsym
    have hne := h.ne_nil_of_leadsTo hcode
    refine ⟨sym, hsym, ?_⟩
    rw [hct, (h.codeTable_eq_iff hwalk hne).2 hcode]
    exact ⟨hpath, List.length_pos_iff.2 hne, rootWalk_code_length hwalk _ ((h.mem_rootWalk hwalk _ _).2 hcode)⟩
  · by_contra hne
    rw [hct] at hne
    obtain ⟨k, -, hk, hsym⟩ := h.exists_leaf_of_leadsTo ((h.codeTable_eq_iff hwalk hne).1 rfl)
    exact habsent _ hk hsym

/-- Settles O34: no path to a leaf goes on to another leaf. -/
theorem derivedCodesPrefixFree : Obligations.DerivedCodesPrefixFree := by
  unfold Obligations.DerivedCodesPrefixFree
  intro s t hok _ h hderive a b ha hb hab hprefix
  obtain ⟨found, hwalk, hct⟩ := ctAt_derive hok hderive
  rw [hct] at ha hb
  rw [hct, hct] at hprefix
  exact hab (State.leadsTo_prefix ((h.codeTable_eq_iff hwalk ha).1 rfl) ((h.codeTable_eq_iff hwalk hb).1 rfl) hprefix)

/-- Settles O35: the sum over the table is the sum over the codes the walk found. -/
theorem derivedCodesKraftSum : Obligations.DerivedCodesKraftSum := by
  unfold Obligations.DerivedCodesKraftSum
  intro s t hok _ h hderive
  obtain ⟨found, hwalk, hct⟩ := ctAt_derive hok hderive
  simp only [hct]
  rw [h.codeTable_sum hwalk (fun code => 2 ^ (256 - code.length)), h.rootWalk_kraft hwalk]

end Sys2Proof.Machine
end

section
/-! CT_READ (R173): the stored form of a code and its chunks (R29). -/

namespace Sys2Proof.Machine

/-- R29: code bit `i` is bit `255 - i` of the stored form, which is 0 beyond the length. -/
theorem getLsbD_packCode {code : List Bool} (hlen : code.length ≤ 256) {i : Nat} (hi : i < 256) :
    (packCode code).getLsbD (255 - i) = code.getD i false := by
  rw [packCode, BitVec.getLsbD_shiftLeft, BitVec.getLsbD_setWidth, BitVec.getLsbD_ofBoolListBE]
  by_cases hin : i < code.length
  · have hplace : code.length - 1 - (255 - i - (256 - code.length)) = i := by omega
    rw [hplace]
    simp [show 255 - i < 256 by omega, show ¬ 255 - i < 256 - code.length by omega,
      show 255 - i - (256 - code.length) < 256 by omega, show 255 - i - (256 - code.length) < code.length by omega]
  · rw [List.getD_eq_default _ _ (Nat.not_lt.1 hin)]
    simp [show 255 - i < 256 - code.length by omega]

/-- Bit `31 - j` of chunk `k` is code bit `32 k + j`. -/
theorem getLsbD_codeChunk {code : List Bool} (hlen : code.length ≤ 256) {k j : Nat} (hk : k < 8) (hj : j < 32) :
    (codeChunk code k).getLsbD (31 - j) = code.getD (32 * k + j) false := by
  have hplace : 224 - 32 * k + (31 - j) = 255 - (32 * k + j) := by omega
  rw [codeChunk, BitVec.getLsbD_extractLsb', hplace, getLsbD_packCode hlen (by omega)]
  simp [show 31 - j < 32 by omega]

theorem exec_ctRead {s : State} {sym : SymCode} {sel4 : BitVec 4} (hsym : sym.toNat ≤ 0x100) (hsel : sel4.toNat ≤ 8) :
    exec (.ctRead sym sel4) s = .next (s.completed [] (if sel4 = 8 then BitVec.ofNat 64 (s.ctAt sym.toNat).length
      else (codeChunk (s.ctAt sym.toNat) sel4.toNat).setWidth 64)) := by
  have hrange : (symInRange sym && sel4InRange sel4) = true := by simp [symInRange, sel4InRange, hsym, hsel]
  rw [exec, execCtRead, if_pos hrange]
  split <;> exact respond_eq _ _

/-- Settles O36: in range CT_READ completes with the length or a chunk, whose upper half is filled with zeros. -/
theorem ctReadChunks : Obligations.CtReadChunks := by
  unfold Obligations.CtReadChunks
  intro s sym sel4 hsym hlen
  constructor
  · intro hsel
    rw [exec_ctRead hsym hsel.le, if_pos (BitVec.eq_of_toNat_eq hsel), State.completed, List.append_nil]
  · intro hsel
    have hne : sel4 ≠ 8 := by
      rintro rfl
      exact absurd hsel (by decide)
    refine ⟨(codeChunk (s.ctAt sym.toNat) sel4.toNat).setWidth 64, ?_, ?_, fun j hj => ?_⟩
    · rw [exec_ctRead hsym hsel.le, if_neg hne, State.completed, List.append_nil]
    · ext i hi
      simp
    · rw [BitVec.getLsbD_setWidth, getLsbD_codeChunk hlen hsel hj]
      simp [show 31 - j < 64 by omega]

end Sys2Proof.Machine
end

section
/-! The Bit Encoder (R190 to R194): what ENC_START, ENC_SYM and ENC_END answer, by the bits they have packed. -/

namespace Sys2Proof.Machine

/-! ### ENC_START -/

theorem exec_encStart {s : State} (hok : s.errCode = .ok) (hrun : s.encSt ≠ .run) :
    exec .encStart s = .next ((s.setEnc .run 0 0).completed [] 0) := by
  rw [exec, execEncStart, unlessFaulted_ok hok, if_neg hrun, respond_eq]

theorem exec_encStart_inRun {s : State} (hok : s.errCode = .ok) (hrun : s.encSt = .run) :
    exec .encStart s = .next (s.afterFault .eState (encode .encStart)) := by
  rw [exec, execEncStart, unlessFaulted_ok hok, if_pos hrun, raise_eq]

/-- Settles O37: outside RUN the check of R192 passes, in RUN it fails. -/
theorem encStartBeginsPayload : Obligations.EncStartBeginsPayload := by
  unfold Obligations.EncStartBeginsPayload
  intro s hok
  refine ⟨fun hrun => ?_, exec_encStart_inRun hok⟩
  rw [exec_encStart hok hrun, State.completed, List.append_nil]
  rfl

/-! ### The state after packing -/

/-- `s` after a command that has packed its bits into `p` and then completed: the end of ENC_SYM and of ENC_END. -/
def State.afterPacking (s : State) (st : EncSt) (p : Packer) : State :=
  (s.setEnc st p.acc p.cnt).completed (p.bytes.map .eout) (packerData p)

theorem respond_packed (s : State) (st : EncSt) (p : Packer) :
    respond (packerData p) (s.packed st p) = .next (s.afterPacking st p) := rfl

@[simp] theorem State.setEnc_eoutBytes (s : State) (st : EncSt) (acc : BitVec 8) (cnt : BitVec 3) :
    (s.setEnc st acc cnt).eoutBytes = s.eoutBytes := rfl

@[simp] theorem State.setEnc_doutBytes (s : State) (st : EncSt) (acc : BitVec 8) (cnt : BitVec 3) :
    (s.setEnc st acc cnt).doutBytes = s.doutBytes := rfl

@[simp] theorem State.afterPacking_eoutBytes (s : State) (st : EncSt) (p : Packer) :
    (s.afterPacking st p).eoutBytes = s.eoutBytes ++ p.bytes := by
  rw [State.afterPacking, State.eoutBytes_completed, onEout_eout, State.setEnc_eoutBytes]

@[simp] theorem State.afterPacking_doutBytes (s : State) (st : EncSt) (p : Packer) :
    (s.afterPacking st p).doutBytes = s.doutBytes := by
  rw [State.afterPacking, State.doutBytes_completed, onDout_eout, List.append_nil, State.setEnc_doutBytes]

theorem EncInv.afterPacking_run (s : State) {p : Packer} (h : p.clean) : EncInv (s.afterPacking .run p) :=
  (EncInv.packed_run s h).congr rfl rfl rfl

/-- A command starts with the pending bits packed. -/
theorem State.packer_bits (s : State) : s.packer.bits = s.pendingBits := rfl

/-- R98: the fields of the response as one integer, when the number of bytes fits in its field. -/
theorem packerData_eq_ofNat {p : Packer} (h : p.bytes.length < 2 ^ 8) :
    packerData p = BitVec.ofNat 64 (p.cnt.toNat * 2 ^ 8 + p.bytes.length) := placeField_or_ofNat p.cnt h

/-- With an empty accumulator the response is the number of bytes, however large. -/
theorem packerData_of_cnt_zero {p : Packer} (h : p.cnt = 0) : packerData p = BitVec.ofNat 64 p.bytes.length := by
  simp [packerData, h]

/-! ### ENC_SYM -/

section
variable {s : State} (hok : s.errCode = .ok) (hinv : EncInv s) (hrun : s.encSt = .run)
include hok hinv hrun

/-- R193: ENC_SYM has packed the pending bits and then the code. -/
theorem exec_encSym {d : Byte} (hcode : s.ctAt d.toNat ≠ []) :
    ∃ p : Packer, exec (.encSym d) s = .next (s.afterPacking .run p) ∧
      p.bits = s.pendingBits ++ s.ctAt d.toNat ∧ p.clean := by
  refine ⟨pushCode s.packer (s.ctAt d.toNat), ?_, pushCode_bits _ _ hinv.packer_clean⟩
  rw [exec, execEncSym, unlessFaulted_ok hok, if_neg (not_not.2 hrun), if_neg hcode]
  exact respond_packed _ _ _

/-- R194: ENC_END has emitted the pending bits, the code of END_OF_DATA and the zeros that the last byte lacked. -/
theorem exec_encEnd (hcode : s.ctAt 0x100 ≠ []) :
    ∃ p : Packer, ∃ pad < 8, exec .encEnd s = .next (s.afterPacking .done p) ∧
      payloadBits p.bytes = s.pendingBits ++ s.ctAt 0x100 ++ List.replicate pad false ∧ p.acc = 0 ∧ p.cnt = 0 := by
  obtain ⟨hbits, hclean⟩ := pushCode_bits (s.ctAt 0x100) _ hinv.packer_clean
  obtain ⟨hflush, -⟩ := flush_bits _ hclean
  refine ⟨flush (pushCode s.packer (s.ctAt 0x100)), (8 - (pushCode s.packer (s.ctAt 0x100)).cnt.toNat) % 8,
    Nat.mod_lt _ (by decide), ?_, ?_, flush_empty hclean⟩
  · rw [exec, execEncEnd, unlessFaulted_ok hok, if_neg (not_not.2 hrun), eodIndex, if_neg hcode]
    exact respond_packed _ _ _
  · rw [hflush, hbits, s.packer_bits]

end

/-- Settles O38: the packed bits are 8 for each byte emitted and fewer than 8 more, which gives quotient and remainder. -/
theorem encSymAppendsCode : Obligations.EncSymAppendsCode := by
  unfold Obligations.EncSymAppendsCode
  intro s d hok hinv hrun hcode hlen
  obtain ⟨p, hexec, hbits, hclean⟩ := exec_encSym hok hinv hrun hcode
  have hcount : 8 * p.bytes.length + p.cnt.toNat = s.encCnt.toNat + (s.ctAt d.toNat).length := by
    have hpending : s.pendingBits.length = s.encCnt.toNat := s.packer.bits_length.trans (Nat.zero_add _)
    rw [← p.bits_length, hbits, List.length_append, hpending]
  have hold := s.encCnt.isLt
  have hnew := p.cnt.isLt
  refine ⟨s.afterPacking .run p, p.bytes, hexec, hbits, by omega, ?_, .afterPacking_run s hclean, ?_⟩
  · change p.cnt.toNat = _
    omega
  · rw [State.afterPacking, packerData_eq_ofNat (by omega), ← hrun]
    rfl

/-- Settles O39: ENC_END leaves the accumulator empty, so the response is the number of bytes. -/
theorem encEndTerminatesPayload : Obligations.EncEndTerminatesPayload := by
  unfold Obligations.EncEndTerminatesPayload
  intro s hok hinv hrun hcode
  obtain ⟨p, pad, hpad, hexec, hbits, hacc, hcnt⟩ := exec_encEnd hok hinv hrun hcode
  refine ⟨_, p.bytes, pad, hexec, hpad, hbits, ?_⟩
  rw [State.afterPacking, packerData_of_cnt_zero hcnt, hacc, hcnt]
  rfl

end Sys2Proof.Machine
end

section
/-! The payload law (R195): the ENC_SYMs of an input pack the codes of its bytes one after the other. -/

namespace Sys2Proof.Machine

/-- `t` is `s` after commands that packed `bits` behind its pending bits: complete bytes have left on EOUT, and nothing
else of the state but the accumulator and the ports has changed. -/
structure PackedBits (s : State) (bits : List Bool) (t : State) : Prop where
  eout : ∃ bytes, t.eoutBytes = s.eoutBytes ++ bytes ∧ payloadBits bytes ++ t.pendingBits = s.pendingBits ++ bits
  dout : t.doutBytes = s.doutBytes
  inv : EncInv t
  frame : t = { s with encAcc := t.encAcc, encCnt := t.encCnt, out := t.out }

section
variable {s t : State} {bits : List Bool} (h : PackedBits s bits t)
include h

theorem PackedBits.errCode : t.errCode = s.errCode := by rw [h.frame]

theorem PackedBits.encSt : t.encSt = s.encSt := by rw [h.frame]

theorem PackedBits.ctAt (k : Nat) : t.ctAt k = s.ctAt k := by
  rw [h.frame]
  rfl

end

theorem PackedBits.nil {s : State} (h : EncInv s) : PackedBits s [] s := ⟨⟨[], by simp⟩, rfl, h, rfl⟩

theorem PackedBits.append {s u t : State} {a b : List Bool} (ha : PackedBits s a u) (hb : PackedBits u b t) :
    PackedBits s (a ++ b) t where
  eout := by
    obtain ⟨bytes, heout, hbits⟩ := ha.eout
    obtain ⟨more, heout', hbits'⟩ := hb.eout
    refine ⟨bytes ++ more, by rw [heout', heout, List.append_assoc], ?_⟩
    calc payloadBits (bytes ++ more) ++ t.pendingBits
        = payloadBits bytes ++ (payloadBits more ++ t.pendingBits) := by
          rw [payloadBits_append, List.append_assoc]
      _ = payloadBits bytes ++ u.pendingBits ++ b := by rw [hbits', List.append_assoc]
      _ = s.pendingBits ++ (a ++ b) := by rw [hbits, List.append_assoc]
  dout := hb.dout.trans ha.dout
  inv := hb.inv
  frame := by rw [hb.frame, ha.frame]

theorem exec_encSym_packedBits {s : State} (hok : s.errCode = .ok) (hinv : EncInv s) (hrun : s.encSt = .run) {d : Byte}
    (hcode : s.ctAt d.toNat ≠ []) : ∃ t, exec (.encSym d) s = .next t ∧ PackedBits s (s.ctAt d.toNat) t := by
  obtain ⟨p, hexec, hbits, hclean⟩ := exec_encSym hok hinv hrun hcode
  refine ⟨_, hexec, ⟨p.bytes, by simp, hbits⟩, by simp, .afterPacking_run s hclean, ?_⟩
  rw [State.afterPacking, ← hrun]
  rfl

/-- The ENC_SYMs of an input pack the concatenation of its codes. -/
theorem runCommands_encSyms {s : State} {input : List Byte} (hok : s.errCode = .ok) (hinv : EncInv s)
    (hrun : s.encSt = .run) (hcodes : ∀ d ∈ input, s.ctAt d.toNat ≠ []) :
    ∃ t, runCommands (input.map .encSym) s = some t ∧ PackedBits s (input.flatMap fun d => s.ctAt d.toNat) t := by
  induction input generalizing s with
  | nil => exact ⟨s, rfl, .nil hinv⟩
  | cons d rest ih =>
    obtain ⟨hcode, hrest⟩ := List.forall_mem_cons.1 hcodes
    obtain ⟨u, hexec, hd⟩ := exec_encSym_packedBits hok hinv hrun hcode
    obtain ⟨t, hruns, ht⟩ :=
      ih (hd.errCode.trans hok) hd.inv (hd.encSt.trans hrun) (by simpa only [hd.ctAt] using hrest)
    simp only [hd.ctAt] at ht
    exact ⟨t, (runCommands_cons hexec).trans hruns, hd.append ht⟩

/-- Settles O40: ENC_START leaves no pending bit, the ENC_SYMs pack the codes, and ENC_END adds its code and the zeros. -/
theorem payloadLaw : Obligations.PayloadLaw := by
  unfold Obligations.PayloadLaw
  intro s input hok hidle hcodes heod
  have hstart := exec_encStart hok hidle
  obtain ⟨u, hruns, hu⟩ :=
    runCommands_encSyms (s := (s.setEnc .run 0 0).completed [] 0) hok (.of_empty rfl rfl) rfl hcodes
  obtain ⟨bytes, heout, hbits⟩ := hu.eout
  obtain ⟨p, pad, hpad, hend, hpayload, hacc, hcnt⟩ :=
    exec_encEnd (hu.errCode.trans hok) hu.inv hu.encSt (by rwa [hu.ctAt])
  refine ⟨u.afterPacking .done p, bytes ++ p.bytes, pad, ?_, ?_, ?_, hpad, ?_, ?_⟩
  · rw [runCommands_cons hstart, runCommands_append _ hruns, runCommands_cons hend, runCommands]
  · simp [heout, State.eoutBytes_completed]
  · simp [hu.dout, State.doutBytes_completed]
  · calc payloadBits (bytes ++ p.bytes)
        = payloadBits bytes ++ u.pendingBits ++ u.ctAt 0x100 ++ List.replicate pad false := by
          rw [payloadBits_append, hpayload]
          simp only [List.append_assoc]
      _ = input.flatMap (fun d => s.ctAt d.toNat) ++ s.ctAt 0x100 ++ List.replicate pad false := by
          rw [hbits, hu.ctAt]
          rfl
  · rw [State.afterPacking, hacc, hcnt, hu.frame]
    rfl

end Sys2Proof.Machine
end

section
/-! The Bit Decoder (R210 to R213): what DEC_START and one DEC_BIT answer, and where one bit leads. -/

namespace Sys2Proof.Machine

/-! ### DEC_START -/

theorem exec_decStart {s : State} (hok : s.errCode = .ok) (hrun : s.decSt ≠ .run) (hnn : s.nn ≠ 0) :
    exec .decStart s = .next ((s.setDec .run s.root).completed [] 0) := by
  rw [exec, execDecStart, unlessFaulted_ok hok, if_neg hrun, if_neg hnn, respond_eq]

/-- Settles O41: the check for RUN comes first, then the check for a tree. -/
theorem decStartStandsAtRoot : Obligations.DecStartStandsAtRoot := by
  unfold Obligations.DecStartStandsAtRoot
  intro s hok
  refine ⟨fun hrun hnn => ?_, fun hrun hnn => ?_, fun hrun => ?_⟩
  · rw [exec_decStart hok hrun hnn, State.completed, List.append_nil]
    rfl
  · rw [exec, execDecStart, unlessFaulted_ok hok, if_neg hrun, if_pos hnn, raise_eq]
  · rw [exec, execDecStart, unlessFaulted_ok hok, if_pos hrun, raise_eq]

/-! ### How DEC_BIT and DEC_BYTE end -/

/-- `s` after DEC_BIT or DEC_BYTE has consumed `used` bits and completed, `w` being the walker they left. -/
def State.afterWalk (s : State) (w : Walker) (used : Nat) : State :=
  (s.setDec w.st w.cur).completed (w.bytes.map .dout) (walkerData w used)

@[simp] theorem State.afterWalk_doutBytes (s : State) (w : Walker) (used : Nat) :
    (s.afterWalk w used).doutBytes = s.doutBytes ++ w.bytes := by
  rw [State.afterWalk, State.doutBytes_completed, onDout_dout]
  rfl

@[simp] theorem State.walker_st (s : State) : s.walker.st = s.decSt := rfl
@[simp] theorem State.walker_cur (s : State) : s.walker.cur = s.decCur := rfl
@[simp] theorem State.walker_bytes (s : State) : s.walker.bytes = [] := rfl

section
variable {i : Instr} {bits : List Bool} {s : State} (hok : s.errCode = .ok)
include hok

theorem decodeBits_finished {w : Walker} {used : Nat} (hidle : s.decSt ≠ .idle)
    (hfeed : feedBits s bits s.walker 0 = .finished w used) : decodeBits i bits s = .next (s.afterWalk w used) := by
  rw [decodeBits, unlessFaulted_ok hok, if_neg hidle, hfeed]
  rfl

theorem decodeBits_noChild {w : Walker} (hidle : s.decSt ≠ .idle)
    (hfeed : feedBits s bits s.walker 0 = .noChild w) :
    decodeBits i bits s = .next ((s.walked w).afterFault .eNoChild (encode i)) := by
  rw [decodeBits, unlessFaulted_ok hok, if_neg hidle, hfeed]
  exact raise_eq _ _ _

/-- After a stop all bits are ignored, and the response is DEC_ST (R213, R214). -/
theorem decodeBits_stopped (hidle : s.decSt ≠ .idle) (hrun : s.decSt ≠ .run) :
    decodeBits i bits s = .next { s with out := s.out ++ [.rsp ⟨.ok, s.decSt.code.setWidth 64⟩] } := by
  rw [decodeBits_finished hok hidle (feedBits_stopped hrun bits 0)]
  simp [State.afterWalk, State.completed, State.setDec, walkerData]

end

/-! ### One bit -/

theorem feedBits_cons_moved {s : State} {b : Bool} {w w' : Walker} (hrun : w.st = .run)
    (hstep : decStep s w b = .moved w') (bits : List Bool) (used : Nat) :
    feedBits s (b :: bits) w used = feedBits s bits w' (used + 1) := by
  simp only [feedBits, if_pos hrun, hstep]

theorem feedBits_cons_noChild {s : State} {b : Bool} {w : Walker} (hrun : w.st = .run)
    (hstep : decStep s w b = .noChild) (bits : List Bool) (used : Nat) :
    feedBits s (b :: bits) w used = .noChild w := by
  simp only [feedBits, if_pos hrun, hstep]

/-- At an internal record the walk goes on. -/
theorem arrive_internal {s : State} {w : Walker} {c : NodeIdx} {m : NodeRec} (h : m.isLeaf = false) :
    arrive s w c m = { w with cur := c } := by
  simp [arrive, h]

/-- The walker that stands at ROOT after a code for the CT index `sym`, with `bytes` decoded before it: stopped by
END_OF_DATA, or in RUN with one more byte (R211). -/
def State.landed (s : State) (bytes : List Byte) (sym : Nat) : Walker :=
  if sym = 0x100 then { st := .doneEod, cur := s.root, bytes := bytes }
  else { st := .run, cur := s.root, bytes := bytes ++ [BitVec.ofNat 8 sym] }

theorem State.landed_eod (s : State) (bytes : List Byte) :
    s.landed bytes 0x100 = { st := .doneEod, cur := s.root, bytes := bytes } := if_pos rfl

theorem State.landed_byte (s : State) (bytes : List Byte) (v : Byte) :
    s.landed bytes v.toNat = { st := .run, cur := s.root, bytes := bytes ++ [v] } := by
  have hv : v.toNat ≠ 0x100 := by have := v.isLt; omega
  rw [State.landed, if_neg hv, BitVec.ofNat_toNat, BitVec.setWidth_eq]

/-- At a leaf the walk in RUN lands on its symbol. -/
theorem arrive_leaf {s : State} {w : Walker} {c : NodeIdx} {m : NodeRec} {sym : Nat} (hrun : w.st = .run)
    (h : m.isLeaf = true) (hsym : symIndex m.sym = some sym) : arrive s w c m = s.landed w.bytes sym := by
  rw [arrive, if_pos h]
  cases hm : m.sym with
  | byte v =>
    rw [hm] at hsym
    obtain rfl : v.toNat = sym := Option.some.inj hsym
    have hcode : (symCode (.byte v)).setWidth 8 = v := BitVec.setWidth_setWidth_of_le v (by decide)
    rw [if_neg (by simp), State.landed_byte, hrun, hcode]
  | endOfData =>
    rw [hm] at hsym
    obtain rfl : 0x100 = sym := Option.some.inj hsym
    rw [if_pos rfl, State.landed_eod]
  | internal => simp [hm, symIndex] at hsym

/-- In RUN a DEC_BIT to a child completes with the walker that arrives there. -/
theorem exec_decBit_child {s : State} {b : Bool} {c : NodeIdx} (hok : s.errCode = .ok) (hrun : s.decSt = .run)
    (hcur : s.decCur.toNat < 513) (hchild : (s.tmAt s.decCur.toNat).child b = some c) (hc : c.toNat < 513) :
    exec (.decBit b) s = .next (s.afterWalk (arrive s s.walker c (s.tmAt c.toNat)) 1) := by
  have hstep := decStep_moved (w := s.walker).2 ⟨hcur, c, hchild, hc, rfl⟩
  exact decodeBits_finished hok (by simp [hrun]) (feedBits_cons_moved hrun hstep [] 0)

/-- Settles O42: the child of the bit is absent, internal, or a leaf, on which the walk lands; after a stop the bit is
ignored. -/
theorem decBitWalksOneEdge : Obligations.DecBitWalksOneEdge := by
  unfold Obligations.DecBitWalksOneEdge
  intro s b hok
  refine ⟨fun hrun hcur => ⟨fun hnone => ?_, fun c hchild hc => ?_⟩, fun hst => ?_, fun hst => ?_⟩
  · have hstep := decStep_noChild (s := s) (w := s.walker) (b := b).2 ⟨hcur, hnone⟩
    rw [exec, execDecBit, decodeBits_noChild hok (by simp [hrun]) (feedBits_cons_noChild hrun hstep [] 0)]
    simp [State.walked, State.emit, State.setDec, State.afterFault]
  · rw [exec_decBit_child hok hrun hcur hchild hc]
    refine ⟨fun hnode => ?_, fun hleaf hsym => ?_, fun v hleaf hsym => ?_⟩
    · rw [arrive_internal hnode]
      simp [State.afterWalk, State.completed, State.setDec, walkerData, hrun, DecSt.code]
    · rw [arrive_leaf hrun hleaf (hsym ▸ rfl : _ = some 0x100), State.landed_eod]
      simp [State.afterWalk, State.completed, State.setDec, walkerData, DecSt.code]
    · rw [arrive_leaf hrun hleaf (hsym ▸ rfl : _ = some v.toNat), State.landed_byte]
      simp [State.afterWalk, State.completed, State.setDec, walkerData, hrun, DecSt.code]
  · rw [exec, execDecBit, decodeBits_stopped hok (by simp [hst]) (by simp [hst]), hst]
    rfl
  · rw [exec, execDecBit, decodeBits_stopped hok (by simp [hst]) (by simp [hst]), hst]
    rfl

end Sys2Proof.Machine
end

section
/-! Runs of DEC_BIT and DEC_BYTE (R213, R214): they are the walk fed with all their bits. -/

namespace Sys2Proof.Machine

/-! ### Walks that end without a fault -/

/-- The first bit is ignored after a stop, and else it moves the walker, which the other bits then take on. -/
theorem feedBits_cons_finished {s : State} {b : Bool} {bits : List Bool} {w w' : Walker} {used used' : Nat}
    (h : feedBits s (b :: bits) w used = .finished w' used') :
    (w.st ≠ .run ∧ w' = w ∧ used' = used) ∨
      (w.st = .run ∧ ∃ v, decStep s w b = .moved v ∧ feedBits s bits v (used + 1) = .finished w' used') := by
  by_cases hrun : w.st = .run
  · cases hstep : decStep s w b with
    | moved v => exact .inr ⟨hrun, v, rfl, by rwa [feedBits_cons_moved hrun hstep] at h⟩
    | noChild => simp [feedBits_cons_noChild hrun hstep] at h
    | absent index => simp [feedBits, hrun, hstep] at h
  · rw [feedBits_stopped hrun] at h
    cases h
    exact .inl ⟨hrun, rfl, rfl⟩

theorem feedBits_append_finished {s : State} {a b : List Bool} {w w' : Walker} {used used' : Nat}
    (h : feedBits s (a ++ b) w used = .finished w' used') :
    ∃ v n, feedBits s a w used = .finished v n ∧ feedBits s b v n = .finished w' used' := by
  rw [feedBits_append] at h
  cases hfirst : feedBits s a w used with
  | finished v n => exact ⟨v, n, rfl, by rwa [hfirst] at h⟩
  | noChild v => simp [hfirst] at h
  | absent index => simp [hfirst] at h

/-- The walker with the bytes `pre` decoded before its own. -/
def Walker.behind (pre : List Byte) (w : Walker) : Walker := { w with bytes := pre ++ w.bytes }

theorem arrive_behind (s : State) (pre : List Byte) (w : Walker) (c : NodeIdx) (m : NodeRec) :
    arrive s (w.behind pre) c m = (arrive s w c m).behind pre := by
  unfold arrive
  split
  · split <;> simp [Walker.behind]
  · rfl

/-- The walk goes the same way whatever bytes were decoded before it. -/
theorem feedBits_behind {s : State} {pre : List Byte} {bits : List Bool} {w w' : Walker} {used used' : Nat}
    (h : feedBits s bits (w.behind pre) used = .finished w' used') (n : Nat) :
    ∃ v n', feedBits s bits w n = .finished v n' ∧ w' = v.behind pre := by
  induction bits generalizing w used n with
  | nil =>
    cases h
    exact ⟨w, n, rfl, rfl⟩
  | cons b bits ih =>
    rcases feedBits_cons_finished h with ⟨hstop, rfl, -⟩ | ⟨hrun, v, hstep, hrest⟩
    · exact ⟨w, n, feedBits_stopped (w := w) hstop _ _, rfl⟩
    · obtain ⟨hcur, c, hchild, hc, rfl⟩ := decStep_moved.1 hstep
      rw [arrive_behind] at hrest
      rw [feedBits_cons_moved (w := w) hrun (decStep_moved.2 ⟨hcur, c, hchild, hc, rfl⟩)]
      exact ih hrest (n + 1)

/-! ### A run of decode commands -/

/-- `u` is `s` after decode commands that have left the decoder as `w`: its bytes have left on DOUT, and nothing else of
the state but the decoder registers and the ports has changed. -/
structure Decoded (s : State) (w : Walker) (u : State) : Prop where
  dout : u.doutBytes = s.doutBytes ++ w.bytes
  frame : u = { s with decSt := w.st, decCur := w.cur, out := u.out }

theorem Decoded.errCode {s u : State} {w : Walker} (h : Decoded s w u) : u.errCode = s.errCode := by rw [h.frame]

theorem Decoded.decSt {s u : State} {w : Walker} (h : Decoded s w u) : u.decSt = w.st := by rw [h.frame]

theorem Decoded.decCur {s u : State} {w : Walker} (h : Decoded s w u) : u.decCur = w.cur := by rw [h.frame]

theorem Decoded.afterWalk (s : State) (w : Walker) (used : Nat) : Decoded s w (s.afterWalk w used) := ⟨by simp, rfl⟩

theorem Decoded.trans {s t u : State} {w v : Walker} (ht : Decoded s w t) (hu : Decoded t v u) :
    Decoded s (v.behind w.bytes) u where
  dout := by rw [hu.dout, ht.dout, List.append_assoc]; rfl
  frame := by rw [hu.frame, ht.frame]; rfl

/-- The walk never comes to IDLE. -/
theorem feedBits_not_idle {s : State} {bits : List Bool} {w w' : Walker} {used used' : Nat} (hw : w.st ≠ .idle)
    (h : feedBits s bits w used = .finished w' used') : w'.st ≠ .idle := by
  refine feedBits_keeps (P := fun w => w.st ≠ .idle) (fun w b w' hw hrun hstep => ?_) hw (.inl ⟨_, h⟩)
  obtain ⟨-, c, -, -, rfl⟩ := decStep_moved.1 hstep
  unfold arrive
  split
  · split
    · simp
    · exact hw
  · exact hw

/-- Decode commands, each with its own bits, are one walk over all their bits. It serves DEC_BIT and DEC_BYTE. -/
theorem runCommands_decode {α : Type} {command : α → Instr} {bitsOf : α → List Bool}
    (hexec : ∀ a s, exec (command a) s = decodeBits (command a) (bitsOf a) s) {chunks : List α} {s : State} {w : Walker}
    {used : Nat} (hok : s.errCode = .ok) (hidle : s.decSt ≠ .idle)
    (hfeed : feedBits s (chunks.flatMap bitsOf) s.walker 0 = .finished w used) :
    ∃ u, runCommands (chunks.map command) s = some u ∧ Decoded s w u := by
  induction chunks generalizing s w used with
  | nil =>
    cases hfeed
    exact ⟨s, rfl, (List.append_nil _).symm, rfl⟩
  | cons a rest ih =>
    rw [List.flatMap_cons] at hfeed
    obtain ⟨w₁, used₁, hfirst, hfeed⟩ := feedBits_append_finished hfeed
    have hstart : w₁ = (s.afterWalk w₁ used₁).walker.behind w₁.bytes := by
      simp [Walker.behind, State.afterWalk, State.walker]
    rw [hstart] at hfeed
    obtain ⟨v, n, hrest, rfl⟩ := feedBits_behind hfeed 0
    rw [feedBits_congr (s := s) (t := s.afterWalk w₁ used₁) rfl rfl] at hrest
    obtain ⟨u, hrun, hu⟩ := ih (s := s.afterWalk w₁ used₁) hok (feedBits_not_idle (w := s.walker) hidle hfirst) hrest
    exact ⟨u, (runCommands_cons ((hexec a s).trans (decodeBits_finished hok hidle hfirst))).trans hrun,
      (Decoded.afterWalk s w₁ used₁).trans hu⟩

theorem runCommands_decBits {bits : List Bool} {s : State} {w : Walker} {used : Nat} (hok : s.errCode = .ok)
    (hidle : s.decSt ≠ .idle) (hfeed : feedBits s bits s.walker 0 = .finished w used) :
    ∃ u, runCommands (bits.map .decBit) s = some u ∧ Decoded s w u :=
  runCommands_decode (bitsOf := fun b => [b]) (fun _ _ => rfl) hok hidle (by rwa [List.flatMap_singleton'])

theorem runCommands_decBytes {payload : List Byte} {s : State} {w : Walker} {used : Nat} (hok : s.errCode = .ok)
    (hidle : s.decSt ≠ .idle) (hfeed : feedBits s (payloadBits payload) s.walker 0 = .finished w used) :
    ∃ u, runCommands (payload.map .decByte) s = some u ∧ Decoded s w u :=
  runCommands_decode (bitsOf := byteBits) (fun _ _ => rfl) hok hidle hfeed

/-! ### Walks that consume all their bits -/

/-- Fed `bits`, the walker `w` consumes all of them and is then `w'`. -/
def Walks (s : State) (w : Walker) (bits : List Bool) (w' : Walker) : Prop :=
  ∀ used, feedBits s bits w used = .finished w' (used + bits.length)

section
variable {s : State} {w u v : Walker} {a b : List Bool}

theorem Walks.nil (s : State) (w : Walker) : Walks s w [] w := fun _ => rfl

theorem Walks.cons {bit : Bool} (hrun : w.st = .run) (hstep : decStep s w bit = .moved u) (h : Walks s u a v) :
    Walks s w (bit :: a) v := by
  intro used
  rw [feedBits_cons_moved hrun hstep, h, List.length_cons, Nat.add_assoc, Nat.add_comm 1]

theorem Walks.append (ha : Walks s w a u) (hb : Walks s u b v) : Walks s w (a ++ b) v := by
  intro used
  rw [feedBits_append, ha, List.length_append, ← Nat.add_assoc]
  exact hb _

theorem Walks.congr {t : State} (h : Walks s w a u) (htm : s.tm = t.tm) (hroot : s.root = t.root) : Walks t w a u :=
  fun used => (feedBits_congr htm hroot a w used).symm.trans (h used)

/-- After a stop further bits are ignored. -/
theorem Walks.feedBits_append_ignored (h : Walks s w a u) (hstop : u.st ≠ .run) (b : List Bool) (used : Nat) :
    feedBits s (a ++ b) w used = .finished u (used + a.length) := by
  rw [feedBits_append, h]
  exact feedBits_stopped hstop b _

/-- A walk that ends without a fault has consumed its first bits, and it was in RUN before each of them; it has consumed
all bits unless it has stopped (R214). -/
theorem feedBits_finished_cases {used used' : Nat} (h : feedBits s a w used = .finished v used') :
    ∃ n ≤ a.length, used' = used + n ∧ Walks s w (a.take n) v ∧ (n < a.length → v.st ≠ .run) ∧
      ∀ m < n, ∃ u, Walks s w (a.take m) u ∧ u.st = .run := by
  induction a generalizing w used with
  | nil =>
    cases h
    exact ⟨0, le_rfl, rfl, .nil s v, nofun, nofun⟩
  | cons bit a ih =>
    rcases feedBits_cons_finished h with ⟨hstop, rfl, rfl⟩ | ⟨hrun, w₁, hstep, hrest⟩
    · exact ⟨0, Nat.zero_le _, rfl, .nil s v, fun _ => hstop, nofun⟩
    · obtain ⟨n, hn, rfl, hwalk, hstop, hbefore⟩ := ih hrest
      refine ⟨n + 1, Nat.succ_le_succ hn, by omega, hwalk.cons hrun hstep,
        fun hlt => hstop (Nat.lt_of_succ_lt_succ hlt), fun m hm => ?_⟩
      cases m with
      | zero => exact ⟨w, .nil s w, hrun⟩
      | succ m =>
        obtain ⟨u, hu, hurun⟩ := hbefore m (Nat.lt_of_succ_lt_succ hm)
        exact ⟨u, hu.cons hrun hstep, hurun⟩

end

/-! ### Paths to leaves -/

section
variable {s : State} (h : TreeInv s)
include h

theorem TreeInv.decStep_child {w : Walker} {b : Bool} {c : NodeIdx} (hlt : w.cur.toNat < s.nn.toNat)
    (hc : (s.tmAt w.cur.toNat).child b = some c) : decStep s w b = .moved (arrive s w c (s.tmAt c.toNat)) := by
  have hcur : w.cur.toNat < Config.nnode := hlt.trans_le (State.treeSound.nn_le (.inr ⟨h.nn_ne_zero, h⟩))
  exact decStep_moved.2 ⟨hcur, c, hc, (h.child_lt hlt hc).trans hcur, rfl⟩

/-- Fed the path to a leaf from where it stands, the walk in RUN consumes it and lands on the leaf's symbol (R211). -/
theorem TreeInv.walks_path {i : NodeIdx} {bytes : List Byte} {path : List Bool} {sym : Nat}
    (hi : i.toNat < s.nn.toNat) (hne : path ≠ []) (hpath : s.leadsTo i path sym) :
    Walks s ⟨.run, i, bytes⟩ path (s.landed bytes sym) := by
  induction path generalizing i with
  | nil => exact absurd rfl hne
  | cons b path ih =>
    obtain ⟨c, hc, hrest⟩ := State.leadsTo_cons.1 hpath
    have hstep := h.decStep_child (w := ⟨.run, i, bytes⟩) hi hc
    cases hleaf : (s.tmAt c.toNat).isLeaf with
    | true =>
      obtain ⟨rfl, hsym⟩ := (State.leadsTo_leaf hleaf).1 hrest
      rw [arrive_leaf rfl hleaf hsym] at hstep
      exact .cons rfl hstep (.nil _ _)
    | false =>
      rw [arrive_internal hleaf] at hstep
      have hne' : path ≠ [] := by
        rintro rfl
        exact State.not_leadsTo_nil hleaf hrest
      exact .cons rfl hstep (ih ((h.child_lt hi hc).trans hi) hne' hrest)

/-- From ROOT, the paths of the bytes of an input, one after the other, decode to the input and lead back to ROOT. -/
theorem TreeInv.walks_input {code : Byte → List Bool} {input : List Byte}
    (hcode : ∀ d ∈ input, s.leadsTo s.root (code d) d.toNat) (bytes : List Byte) :
    Walks s ⟨.run, s.root, bytes⟩ (input.flatMap code) ⟨.run, s.root, bytes ++ input⟩ := by
  induction input generalizing bytes with
  | nil =>
    rw [List.append_nil]
    exact .nil _ _
  | cons d rest ih =>
    obtain ⟨hd, hrest⟩ := List.forall_mem_cons.1 hcode
    have hfirst := h.walks_path (bytes := bytes) h.root_lt (h.ne_nil_of_leadsTo hd) hd
    rw [State.landed_byte] at hfirst
    rw [List.flatMap_cons, List.append_cons]
    exact hfirst.append (ih hrest _)

end

/-- In a state with the invariants a code is the path from ROOT to the leaf of its symbol (R30, R171). -/
theorem Inv.leadsTo_ctAt {s : State} (h : Inv s) {sym : Nat} (hne : s.ctAt sym ≠ []) :
    TreeInv s ∧ s.leadsTo s.root (s.ctAt sym) sym := by
  rcases h.codes.derived with hempty | ⟨found, hwalk, hct⟩
  · simp [State.ctAt, hempty, tableRead] at hne
  · rw [State.ctAt, hct] at hne ⊢
    have hnn : s.nn ≠ 0 := by
      intro hzero
      rw [State.rootWalk, if_pos hzero, WalkResult.codes.injEq] at hwalk
      exact hne (by rw [← hwalk]; rfl)
    have htree := State.treeSound.treeInv h.tree hnn
    exact ⟨htree, (htree.codeTable_eq_iff hwalk hne).1 rfl⟩

/-- Settles O46: the code is the path to the byte's leaf, on which the walk lands. -/
theorem decoderReadsDerivedCode : Obligations.DecoderReadsDerivedCode := by
  unfold Obligations.DecoderReadsDerivedCode
  intro s v hok hinv hrun hcur hne
  obtain ⟨htree, hpath⟩ := hinv.leadsTo_ctAt hne
  have hwalk := htree.walks_path (bytes := []) htree.root_lt hne hpath
  rw [State.landed_byte] at hwalk
  have hstart : s.walker = ⟨.run, s.root, []⟩ := by rw [State.walker, hrun, hcur]
  obtain ⟨t, hruns, ht⟩ := runCommands_decBits hok (by simp [hrun]) (hstart ▸ hwalk 0)
  refine ⟨t, hruns, ht.dout, ?_⟩
  rw [ht.frame, ← hrun, ← hcur]

end Sys2Proof.Machine
end

section
/-! One DEC_BYTE (R214, R218): the bits it consumes, and the absent child of the tree of one leaf. -/

namespace Sys2Proof.Machine

/-! ### Present children -/

/-- An internal record has a right child unless there is one leaf, and always a left one (R27). -/
theorem TreeInv.exists_child {s : State} (h : TreeInv s) {k : Nat} {b : Bool} (hk : k < s.nn.toNat)
    (hnode : (s.tmAt k).isLeaf = false) (hb : s.nleaf ≠ 1 ∨ b = false) : ∃ c, (s.tmAt k).child b = some c := by
  have hge : s.nleaf.toNat ≤ k := Nat.le_of_not_lt (mt (h.isLeaf_iff hk).2 (by simp [hnode]))
  obtain ⟨-, hleft, hright⟩ := h.internals k hk hge
  cases b with
  | false => exact Option.isSome_iff_exists.1 hleft
  | true =>
    have hmany : s.nleaf.toNat ≠ 1 := fun hone => hb.elim (absurd (BitVec.eq_of_toNat_eq hone)) (by simp)
    exact Option.isSome_iff_exists.1 (hright.trans (decide_eq_true hmany))

/-- Where there are two leaves or more, or all bits are 0, the walk meets no absent child. -/
theorem feedBits_finishes {s : State} (hs : s.treeSound) {bits : List Bool} {w : Walker} (used : Nat)
    (hw : DecInv (s.setDec w.st w.cur)) (hbits : s.nleaf ≠ 1 ∨ ∀ b ∈ bits, b = false) :
    ∃ v n, feedBits s bits w used = .finished v n := by
  induction bits generalizing w used with
  | nil => exact ⟨w, used, rfl⟩
  | cons b bits ih =>
    obtain ⟨hb, hrest⟩ : (s.nleaf ≠ 1 ∨ b = false) ∧ (s.nleaf ≠ 1 ∨ ∀ b ∈ bits, b = false) := by
      rwa [List.forall_mem_cons, or_and_left] at hbits
    by_cases hrun : w.st = .run
    · obtain ⟨hnn, hlt, hnode⟩ := hw.running hrun
      have htree := hs.treeInv hnn
      obtain ⟨c, hc⟩ := htree.exists_child hlt hnode hb
      have hstep := htree.decStep_child hlt hc
      rw [feedBits_cons_moved hrun hstep]
      exact ih _ (decStep_keeps_decInv hs hw hrun hstep) hrest
    · exact ⟨w, used, feedBits_stopped hrun _ _⟩

/-! ### The tree of one leaf -/

section
variable {s : State} (h : TreeInv s) (hone : s.nleaf = 1)
include h hone

/-- R143: the leaf is record 0 and ROOT is record 1. -/
theorem TreeInv.sole_root : s.nn.toNat = 2 ∧ s.root.toNat = 1 := by
  have hcount := h.nodeCount
  have hlast := h.rootLast
  rw [hone, if_pos (by rfl)] at hcount
  omega

theorem TreeInv.sole_right : (s.tmAt s.root.toNat).child true = none := by
  obtain ⟨-, hroot⟩ := h.sole_root hone
  obtain ⟨-, -, hright⟩ := h.internals _ h.root_lt (by rw [hone, hroot]; rfl)
  change (s.tmAt s.root.toNat).right = none
  simpa [hone] using hright

theorem TreeInv.sole_path {sym : Nat} (hsym : symIndex (s.tmAt 0).sym = some sym) : s.leadsTo s.root [false] sym := by
  obtain ⟨c, hc⟩ := h.exists_child (b := false) h.root_lt h.root_not_leaf (.inr rfl)
  have hbelow := h.child_lt h.root_lt hc
  obtain ⟨-, hroot⟩ := h.sole_root hone
  have hzero : c.toNat = 0 := by omega
  have hleaf : (s.tmAt c.toNat).isLeaf = true := (h.leaves _ (by rw [hzero, hone]; decide)).1
  exact State.leadsTo_cons.2 ⟨c, hc, (State.leadsTo_leaf hleaf).2 ⟨rfl, by rwa [hzero]⟩⟩

/-- In RUN the cursor stands at the only internal record. -/
theorem TreeInv.sole_walker (hdec : DecInv s) (hrun : s.decSt = .run) : s.walker = ⟨.run, s.root, []⟩ := by
  obtain ⟨-, hlt, hnode⟩ := hdec.running hrun
  obtain ⟨hnn, hroot⟩ := h.sole_root hone
  have hpos : s.decCur.toNat ≠ 0 := by
    intro hzero
    rw [hzero, (h.leaves 0 (by rw [hone]; decide)).1] at hnode
    cases hnode
  rw [State.walker, hrun, show s.decCur = s.root from BitVec.eq_of_toNat_eq (by omega)]

end

/-! ### DEC_BYTE on its bits -/

theorem ofNat_shiftLeft (n x lo : Nat) : BitVec.ofNat n x <<< lo = BitVec.ofNat n (x * 2 ^ lo) := by
  apply BitVec.eq_of_toNat_eq
  rw [BitVec.toNat_shiftLeft, BitVec.toNat_ofNat, BitVec.toNat_ofNat, Nat.shiftLeft_eq, Nat.mod_mul_mod]

/-- R98: the fields of the response as one integer, when the number of bits fits in its field. -/
theorem walkerData_eq_ofNat (w : Walker) {used : Nat} (h : used < 16) :
    walkerData w used = BitVec.ofNat 64 (w.bytes.length * 2 ^ 8 + used * 2 ^ 4 + w.st.code.toNat) := by
  have hcode := w.st.code.isLt
  have hst : w.st.code.setWidth 64 = BitVec.ofNat 64 w.st.code.toNat := (BitVec.ofNat_toNat 64 w.st.code).symm
  rw [walkerData, hst, ofNat_shiftLeft, ofNat_shiftLeft, BitVec.or_assoc, ← BitVec.ofNat_or, ← BitVec.ofNat_or,
    ← Nat.shiftLeft_eq, ← Nat.shiftLeft_eq, ← Nat.shiftLeft_add_eq_or_of_lt (i := 4) (by omega),
    ← Nat.shiftLeft_add_eq_or_of_lt (i := 8) (by rw [Nat.shiftLeft_eq]; omega), ← Nat.add_assoc]

/-- A walk that starts in RUN ends in RUN or is stopped by END_OF_DATA. -/
theorem feedBits_run_or_doneEod {s : State} {bits : List Bool} {w w' : Walker} {used used' : Nat} (hw : w.st = .run)
    (h : feedBits s bits w used = .finished w' used') : w'.st = .run ∨ w'.st = .doneEod := by
  refine feedBits_keeps (P := fun w => w.st = .run ∨ w.st = .doneEod) (fun w b w' _ hrun hstep => ?_) (.inl hw)
    (.inl ⟨_, h⟩)
  obtain ⟨-, c, -, -, rfl⟩ := decStep_moved.1 hstep
  unfold arrive
  split
  · split
    · exact .inr rfl
    · exact .inl hrun
  · exact .inl hrun

/-- R214: DEC_BYTE faults on no byte in a tree of two leaves or more, in a tree of one leaf not on the byte 0, and over
END_OF_DATA not when bit 7 is 0. -/
theorem feedBits_byteBits_finishes {s : State} {d : Byte} (hinv : Inv s) (hrun : s.decSt = .run)
    (hchild : s.nleaf ≠ 1 ∨ d = 0 ∨ ((s.tmAt 0).sym = .endOfData ∧ d.getLsbD 7 = false)) :
    ∃ w used, feedBits s (byteBits d) s.walker 0 = .finished w used := by
  rcases hchild with hmany | rfl | ⟨hsym, hbit⟩
  · exact feedBits_finishes hinv.tree 0 hinv.decoder (.inl hmany)
  · exact feedBits_finishes hinv.tree 0 hinv.decoder (.inr (by decide))
  · by_cases hone : s.nleaf = 1
    · obtain ⟨hnn, -⟩ := hinv.decoder.running hrun
      have htree := State.treeSound.treeInv hinv.tree hnn
      have hwalk := htree.walks_path (bytes := []) htree.root_lt (by simp)
        (htree.sole_path hone (sym := 0x100) (by rw [hsym]; rfl))
      rw [State.landed_eod, ← htree.sole_walker hone hinv.decoder hrun] at hwalk
      rw [byteBits, hbit, ← List.singleton_append]
      exact ⟨_, _, hwalk.feedBits_append_ignored (by simp) _ 0⟩
    · exact feedBits_finishes hinv.tree 0 hinv.decoder (.inl hone)

/-- Settles O43: the bits DEC_BYTE consumes, and each first part of them, are consumed by as many DEC_BITs. -/
theorem decByteIsItsBits : Obligations.DecByteIsItsBits := by
  unfold Obligations.DecByteIsItsBits
  intro s d hok
  refine ⟨fun hinv hchild hrun => ?_, fun hst => ?_, fun hst => ?_⟩
  · have hidle : s.decSt ≠ .idle := by simp [hrun]
    obtain ⟨w, used, hfeed⟩ := feedBits_byteBits_finishes hinv hrun hchild
    have hend := feedBits_run_or_doneEod (w := s.walker) hrun hfeed
    obtain ⟨n, hn, hused, hwalk, hstop, hbefore⟩ := feedBits_finished_cases hfeed
    obtain rfl : used = n := hused.trans (Nat.zero_add n)
    rw [byteBits_length] at hn hstop
    obtain ⟨u, hruns, hu⟩ := runCommands_decBits hok hidle (hwalk 0)
    have hpos : used ≠ 0 := by
      rintro rfl
      obtain ⟨rfl, -⟩ := BitsResult.finished.inj (hwalk 0)
      exact hstop (by decide) hrun
    have heod : used < 8 → u.decSt = .doneEod := fun hlt => hu.decSt.trans (hend.resolve_left (hstop hlt))
    refine ⟨_, u, used, w.bytes, decodeBits_finished hok hidle hfeed, hruns, Nat.one_le_iff_ne_zero.2 hpos, hn, heod,
      by rwa [hu.decSt], fun m hm => ?_, hu.errCode.trans hok, hu.dout, ?_⟩
    · obtain ⟨v, hv, hvrun⟩ := hbefore m hm
      obtain ⟨t, ht, hdecoded⟩ := runCommands_decBits hok hidle (hv 0)
      exact ⟨t, ht, hdecoded.decSt.trans hvrun⟩
    · rw [State.afterWalk, walkerData_eq_ofNat w (by omega), hu.decSt, hu.decCur]
      rfl
  · rw [exec, execDecByte, decodeBits_stopped hok (by simp [hst]) (by simp [hst]), hst]
    rfl
  · rw [exec, execDecByte, decodeBits_stopped hok (by simp [hst]) (by simp [hst]), hst]
    rfl

/-! ### The first 1 bit in the tree of one leaf -/

/-- A list whose first 1 is at position `k`. -/
theorem exists_eq_replicate_append {bits : List Bool} {k : Nat} (hbefore : ∀ j < k, bits.getD j false = false)
    (hbit : bits.getD k false = true) : ∃ rest, bits = List.replicate k false ++ true :: rest := by
  induction k generalizing bits with
  | zero =>
    cases bits with
    | nil => cases hbit
    | cons b rest => exact ⟨rest, congrArg (· :: rest) hbit⟩
  | succ k ih =>
    cases bits with
    | nil => cases hbit
    | cons b bits =>
      obtain rfl : b = false := hbefore 0 (Nat.succ_pos k)
      obtain ⟨rest, rfl⟩ := ih (fun j hj => hbefore (j + 1) (Nat.succ_lt_succ hj)) hbit
      exact ⟨rest, rfl⟩

/-- Settles O44: the 0 bits are codes of the one byte, each of which leads back to ROOT, and ROOT has no right child. -/
theorem decByteKeepsEarlierBits : Obligations.DecByteKeepsEarlierBits := by
  unfold Obligations.DecByteKeepsEarlierBits
  intro s d v k hok hinv hone hrun hsym _ hbefore hbit
  obtain ⟨hnn, -⟩ := hinv.decoder.running hrun
  have htree := State.treeSound.treeInv hinv.tree hnn
  have hstart := htree.sole_walker hone hinv.decoder hrun
  obtain ⟨rest, hbits⟩ := exists_eq_replicate_append hbefore hbit
  have hzeros : Walks s s.walker (List.replicate k false) ⟨.run, s.root, List.replicate k v⟩ := by
    rw [hstart]
    rcases hsym with hsym | rfl
    · have hpath : s.leadsTo s.root [false] v.toNat := htree.sole_path hone (by rw [hsym]; rfl)
      have hcodes : ∀ d ∈ List.replicate k v, s.leadsTo s.root [false] d.toNat :=
        fun d hd => List.eq_of_mem_replicate hd ▸ hpath
      simpa [List.flatMap_replicate] using htree.walks_input hcodes []
    · exact .nil _ _
  have hroot : s.root.toNat < Config.nnode := htree.root_lt.trans_le (State.treeSound.nn_le hinv.tree)
  have hnone := decStep_noChild (w := ⟨.run, s.root, List.replicate k v⟩).2 ⟨hroot, htree.sole_right hone⟩
  have hfeed : feedBits s (byteBits d) s.walker 0 = .noChild ⟨.run, s.root, List.replicate k v⟩ := by
    rw [hbits, feedBits_append, hzeros 0]
    exact feedBits_cons_noChild rfl hnone _ _
  have hwalked : s.walked ⟨.run, s.root, List.replicate k v⟩ =
      { s with out := s.out ++ List.replicate k (PortEvent.dout v) } := by
    have hcur : s.decCur = s.root := congrArg Walker.cur hstart
    have hsame : (⟨.run, s.root, List.replicate k v⟩ : Walker) = ⟨s.decSt, s.decCur, List.replicate k v⟩ := by
      rw [hrun, hcur]
    rw [hsame, State.walked, List.map_replicate]
    rfl
  rw [exec, execDecByte, decodeBits_noChild hok (by simp [hrun]) hfeed, hwalked]

end Sys2Proof.Machine
end

section
/-! The round trip (R216): a payload of the encoder, fed to a decoder with the same tree, decodes to what was encoded. -/

namespace Sys2Proof.Machine

/-- The codes of an input and of END_OF_DATA, one after the other, decode to the input and stop the walk. -/
theorem Inv.walks_codes {s : State} (h : Inv s) {input : List Byte} (hcodes : ∀ d ∈ input, s.ctAt d.toNat ≠ [])
    (heod : s.ctAt 0x100 ≠ []) :
    s.nn ≠ 0 ∧ Walks s ⟨.run, s.root, []⟩ (input.flatMap (fun d => s.ctAt d.toNat) ++ s.ctAt 0x100)
      ⟨.doneEod, s.root, input⟩ := by
  obtain ⟨htree, hpath⟩ := h.leadsTo_ctAt heod
  have hinput := htree.walks_input (fun d hd => (h.leadsTo_ctAt (hcodes d hd)).2) []
  have hend := htree.walks_path (bytes := input) htree.root_lt heod hpath
  rw [State.landed_eod] at hend
  exact ⟨htree.nn_ne_zero, hinput.append hend⟩

/-- A payload whose first bits stop the walk from ROOT decodes to the bytes of that walk; what follows is padding. -/
theorem runCommands_decodePayload {s : State} {payload input : List Byte} {bits pad : List Bool}
    (hok : s.errCode = .ok) (hrun : s.decSt ≠ .run) (hnn : s.nn ≠ 0)
    (hwalk : Walks s ⟨.run, s.root, []⟩ bits ⟨.doneEod, s.root, input⟩) (hbits : payloadBits payload = bits ++ pad) :
    ∃ u, runCommands (Instr.decStart :: payload.map Instr.decByte) s = some u ∧ u.doutBytes = s.doutBytes ++ input ∧
      u.decSt = .doneEod ∧ u.errCode = .ok := by
  have hwalk' := Walks.congr (t := (s.setDec .run s.root).completed [] 0) hwalk rfl rfl
  have hfeed := hwalk'.feedBits_append_ignored (by simp) pad 0
  rw [← hbits] at hfeed
  obtain ⟨u, hruns, hu⟩ := runCommands_decBytes (s := (s.setDec .run s.root).completed [] 0) hok (by simp) hfeed
  refine ⟨u, (runCommands_cons (exec_decStart hok hrun hnn)).trans hruns, ?_, hu.decSt, hu.errCode.trans hok⟩
  rw [hu.dout, State.doutBytes_completed, List.filterMap_nil, List.append_nil]
  rfl

/-- Settles O47: the payload's bits are the codes and the padding, and coding leaves the tree and the decoder alone. -/
theorem roundTrip : Obligations.RoundTrip := by
  unfold Obligations.RoundTrip
  intro s input hok hinv henc hdec hcodes heod
  obtain ⟨t, payload, pad, hencode, heout, hdout, -, hbits, ht⟩ := payloadLaw s input hok henc hcodes heod
  obtain ⟨hnn, hwalk⟩ := hinv.walks_codes hcodes heod
  have hroot : t.root = s.root := by rw [ht]
  have hwalk' := Walks.congr (t := t) hwalk (by rw [ht]) hroot.symm
  rw [← hroot] at hwalk'
  obtain ⟨u, hdecode, hu, hstop, herr⟩ := runCommands_decodePayload (s := t) (by rw [ht]; exact hok)
    (by rw [ht]; exact hdec) (by rw [ht]; exact hnn) hwalk' hbits
  exact ⟨t, payload, u, hencode, heout, hdecode, by rw [hu, hdout], hstop, herr⟩

end Sys2Proof.Machine
end

section
/-! The sequences of R245 and R246: compressing on one device and decompressing on another (R216). -/

namespace Sys2Proof.Machine

/-! ### What runs of commands keep -/

/-- The induction over a run: what each of its commands keeps, the run keeps. -/
theorem runCommands_keeps {P : State → Prop} {commands : List Instr}
    (h : ∀ i ∈ commands, ∀ s t, P s → exec i s = .next t → P t) {s t : State} (hs : P s)
    (hrun : runCommands commands s = some t) : P t := by
  induction commands generalizing s with
  | nil =>
    cases hrun
    exact hs
  | cons i rest ih =>
    obtain ⟨hi, hrest⟩ := List.forall_mem_cons.1 h
    cases hexec : exec i s with
    | next u =>
      rw [runCommands_cons hexec] at hrun
      exact ih hrest (hi s u hs hexec) hrun
    | fault why => simp [runCommands, hexec] at hrun
    | refused why => simp [runCommands, hexec] at hrun

/-- A command keeps the invariants, since it is a step of its word (R26, R27, R30 to R33). -/
theorem Inv.of_exec {i : Instr} {s t : State} (hs : Inv s) (h : exec i s = .next t) : Inv t :=
  stepKeepsInv (s.withCommand (encode i)) t (hs.congr _ _ _ _ _ (hs.latch.congr rfl rfl))
    ((step_withCommand (decodeOfEncode i)).trans h)

theorem Inv.of_runCommands {commands : List Instr} {s t : State} (hs : Inv s)
    (hrun : runCommands commands s = some t) : Inv t :=
  runCommands_keeps (P := Inv) (fun _ _ _ _ hs h => hs.of_exec h) hs hrun

/-- The commands that put no byte on EOUT or DOUT in any state. -/
def putsNoByte : Instr → Bool
  | .encSym _ => false
  | .encEnd => false
  | .decBit _ => false
  | .decByte _ => false
  | _ => true

theorem CommandEffect.out_eq {i : Instr} {s u : State} (h : CommandEffect i s u) (hi : putsNoByte i = true) :
    u.out = s.out := by
  cases h with
  | encSym => cases hi
  | encEnd => cases hi
  | decBit => cases hi
  | decByte => cases hi
  | _ => rfl

theorem runCommands_putsNoByte {commands : List Instr} (h : ∀ i ∈ commands, putsNoByte i = true) {s t : State}
    (hrun : runCommands commands s = some t) : t.eoutBytes = s.eoutBytes ∧ t.doutBytes = s.doutBytes := by
  refine runCommands_keeps (P := fun t => t.eoutBytes = s.eoutBytes ∧ t.doutBytes = s.doutBytes) ?_ ⟨rfl, rfl⟩ hrun
  rintro i hi u v ⟨heout, hdout⟩ hexec
  obtain ⟨x, heffect, hend⟩ := exec_explained i u v hexec
  obtain ⟨r, hout, -⟩ := hend.out_response
  rw [heffect.out_eq (h i hi)] at hout
  rw [← heout, ← hdout]
  simp [State.eoutBytes, State.doutBytes, hout, PortEvent.onEout, PortEvent.onDout]

/-! ### A device at rest -/

/-- No fault is latched and neither unit is in RUN. -/
structure AtRest (s : State) : Prop where
  errCode : s.errCode = .ok
  encSt : s.encSt ≠ .run
  decSt : s.decSt ≠ .run

theorem AtRest.congr {s t : State} (h : AtRest s) (hcode : t.errCode = s.errCode) (henc : t.encSt = s.encSt)
    (hdec : t.decSt = s.decSt) : AtRest t :=
  ⟨hcode.trans h.errCode, henc ▸ h.encSt, hdec ▸ h.decSt⟩

/-- TM holds the tree that BUILD makes of the present FT. -/
structure TreeOfTable (s : State) : Prop where
  tm : s.tm = s.withBuiltTree.tm
  nn : s.nn = s.withBuiltTree.nn
  root : s.root = s.withBuiltTree.root

/-- Two trees of the same counts are the same tree (R146). -/
theorem TreeOfTable.unique {s t : State} (hs : TreeOfTable s) (ht : TreeOfTable t)
    (hft : ∀ k, k < Config.nsym → s.ftAt k = t.ftAt k) : s.tm = t.tm ∧ s.nn = t.nn ∧ s.root = t.root := by
  obtain ⟨htm, hnn, hroot, -⟩ := State.withBuiltTree_congr (State.leaves_congr hft)
  exact ⟨hs.tm.trans (htm.trans ht.tm.symm), hs.nn.trans (hnn.trans ht.nn.symm),
    hs.root.trans (hroot.trans ht.root.symm)⟩

theorem TreeOfTable.congr {s t : State} (h : TreeOfTable s) (hft : t.ft = s.ft) (htm : t.tm = s.tm) (hnn : t.nn = s.nn)
    (hroot : t.root = s.root) : TreeOfTable t := by
  obtain ⟨htm', hnn', hroot', -⟩ :=
    State.withBuiltTree_congr (s := s) (s' := t) (State.leaves_congr fun k _ => by rw [State.ftAt, State.ftAt, hft])
  exact ⟨htm.trans (h.tm.trans htm'), hnn.trans (h.nn.trans hnn'), hroot.trans (h.root.trans hroot')⟩

theorem exec_clear (s : State) : exec .clear s = .next (s.cleared.completed [] 0) := respond_eq _ _

theorem AtRest.cleared (s : State) : AtRest (s.cleared.completed [] 0) := ⟨rfl, by simp, by simp⟩

theorem Inv.cleared (s : State) : Inv (s.cleared.completed [] 0) :=
  resetHasInv.congr _ _ _ _ _ (LatchInv.reset.congr rfl rfl)

/-- BUILD on a device at rest leaves it at rest with the tree of its table. -/
theorem AtRest.build {s : State} (h : AtRest s) {k : Nat} (hk : k < Config.nsym) (hcount : s.ftAt k ≠ 0) :
    ∃ t, exec .build s = .next t ∧ AtRest t ∧ TreeOfTable t ∧ t.ft = s.ft := by
  refine ⟨_, exec_build h.errCode h.encSt h.decSt (State.present_ne_nil hk hcount), ⟨h.errCode, ?_, ?_⟩, ?_, rfl⟩
  · simp
  · simp
  · obtain ⟨htm, hnn, hroot, -⟩ := State.withBuiltTree_congr (s := s)
      (s' := s.withBuiltTree.completed [] s.withBuiltTree.treeInfoReg) (State.leaves_congr fun _ _ => rfl)
    exact ⟨htm, hnn, hroot⟩

/-- BUILD and DERIVE on a device at rest leave it at rest, with the tree of its table and a code for every present
symbol. -/
theorem AtRest.build_derive {s : State} (h : AtRest s) {k : Nat} (hk : k < Config.nsym) (hcount : s.ftAt k ≠ 0) :
    ∃ u, runCommands [.build, .derive] s = some u ∧ AtRest u ∧ TreeOfTable u ∧ u.ft = s.ft ∧
      ∀ sym, sym < Config.nsym → s.ftAt sym ≠ 0 → u.ctAt sym ≠ [] := by
  obtain ⟨t, hbuild, hrest, htable, hft⟩ := h.build hk hcount
  have htree := buildMakesTree s t h.errCode hbuild hrest.errCode
  obtain ⟨-, hleaf⟩ := buildLeaves s t h.errCode hbuild hrest.errCode
  obtain ⟨u, hderive, hu, hpaths, -⟩ := (deriveRecordsPaths t hrest.errCode).2 htree.nn_ne_zero htree
  refine ⟨u, ?_, hrest.congr (by rw [hu]) (by rw [hu]) (by rw [hu]),
    htable.congr (by rw [hu]) (by rw [hu]) (by rw [hu]) (by rw [hu]), by rw [hu, hft], fun sym hsym hne hnil => ?_⟩
  · rw [runCommands_cons hbuild, runCommands_cons hderive, runCommands]
  · obtain ⟨k, ⟨hk, hk'⟩, -⟩ := hleaf sym hsym hne
    obtain ⟨sym', hsym', -, hlen, -⟩ := hpaths k hk
    obtain rfl : sym = sym' := Option.some.inj (hk'.symm.trans hsym')
    simp [hnil] at hlen

/-! ### Compressing -/

/-- CLEAR, counting, BUILD and DERIVE: the first part of the compress sequence (R245). -/
def prepareCommands (input : List Byte) : List Instr :=
  Instr.clear :: (input.map Instr.fcByte ++ [Instr.fcEnd]) ++ [Instr.build, Instr.derive]

theorem compressCommands_eq (input : List Byte) :
    compressCommands input = prepareCommands input ++ Instr.encStart :: (input.map Instr.encSym ++ [Instr.encEnd]) := by
  simp [compressCommands, prepareCommands]

theorem prepareCommands_putsNoByte (input : List Byte) : ∀ i ∈ prepareCommands input, putsNoByte i = true := by
  simp [prepareCommands, putsNoByte, or_imp, forall_and]

/-- Counting an input on a cleared device makes END_OF_DATA and all bytes of the input present. -/
theorem runCommands_count (s : State) {input : List Byte} (hfit : ∀ v, input.count v < 2 ^ 32) :
    ∃ t, runCommands (Instr.clear :: (input.map Instr.fcByte ++ [Instr.fcEnd])) s = some t ∧ AtRest t ∧
      t.ftAt 0x100 ≠ 0 ∧ ∀ d ∈ input, t.ftAt d.toNat ≠ 0 := by
  obtain ⟨u, hu, hcount⟩ := runCommands_countingRun (s := s.cleared.completed [] 0) (input := input) rfl (by
    simpa [State.ftAt, tableRead] using hfit)
  have hrest : AtRest u := (AtRest.cleared s).congr (by rw [hu.frame]) (by rw [hu.frame]) (by rw [hu.frame])
  refine ⟨_, (runCommands_cons (exec_clear s)).trans hcount, hrest.congr rfl rfl rfl, by simp, fun d hd => ?_⟩
  have hpos := List.count_pos_iff.2 hd
  have hbyte : d.toNat ≠ 0x100 := by have := d.isLt; omega
  have hsum := hu.bytes d
  rw [State.emit_ftAt, State.ftAt_ftPut, if_neg hbyte]
  intro hzero
  rw [hzero, show (0 : Count).toNat = 0 from rfl] at hsum
  omega

/-- The first part of the compress sequence gives codes to END_OF_DATA and to all bytes of the input. -/
theorem runCommands_prepare (s : State) {input : List Byte} (hfit : ∀ v, input.count v < 2 ^ 32) :
    ∃ t, runCommands (prepareCommands input) s = some t ∧ AtRest t ∧ TreeOfTable t ∧ t.ftAt 0x100 ≠ 0 ∧
      (∀ d ∈ input, t.ctAt d.toNat ≠ []) ∧ t.ctAt 0x100 ≠ [] := by
  obtain ⟨u, hcount, hrest, heod, hbytes⟩ := runCommands_count s hfit
  obtain ⟨t, hbuild, ht, htable, hft, hcodes⟩ := hrest.build_derive (by decide) heod
  refine ⟨t, (runCommands_append _ hcount).trans hbuild, ht, htable, by rwa [State.ftAt, hft], fun d hd => ?_,
    hcodes _ (by decide) heod⟩
  exact hcodes _ (d.isLt.trans (by decide)) (hbytes d hd)

/-! ### Decompressing -/

/-- FT_SET for each of `ks`, with the counts of `table`, loads these counts and changes nothing else but the ports. -/
theorem runCommands_ftSets {ks : List Nat} (hks : ∀ k ∈ ks, k < Config.nsym) (table : Nat → Count) {s : State}
    (hok : s.errCode = .ok) :
    ∃ t, runCommands (ks.map fun k => .ftSet (BitVec.ofNat 9 k) (table k)) s = some t ∧
      (∀ k, t.ftAt k = if k ∈ ks then table k else s.ftAt k) ∧ t = { s with ft := t.ft, out := t.out } := by
  induction ks generalizing s with
  | nil => exact ⟨s, rfl, fun k => by simp, rfl⟩
  | cons k ks ih =>
    obtain ⟨hk, hrest⟩ := List.forall_mem_cons.1 hks
    simp only [Config.nsym] at hk
    have hsym : (BitVec.ofNat 9 k).toNat = k := Nat.mod_eq_of_lt (by omega)
    obtain ⟨t, hrun, hft, hframe⟩ := ih hrest (s := (s.ftPut k (table k)).emit [.rsp ⟨.ok, 0⟩]) hok
    have hexec := exec_ftSet (table k) (sym := BitVec.ofNat 9 k) (by omega) hok
    rw [hsym] at hexec
    refine ⟨t, (runCommands_cons hexec).trans hrun, fun j => ?_, by rw [hframe]; rfl⟩
    rw [hft, State.emit_ftAt, State.ftAt_ftPut]
    by_cases hj : j = k <;> simp [hj]

/-- CLEAR, loading the table and BUILD: the first part of the decompress sequence (R246). -/
def loadCommands (table : Nat → Count) : List Instr :=
  Instr.clear :: ((List.range 257).map (fun k => Instr.ftSet (BitVec.ofNat 9 k) (table k)) ++ [Instr.build])

theorem decompressCommands_eq (table : Nat → Count) (payload : List Byte) :
    decompressCommands table payload = loadCommands table ++ Instr.decStart :: payload.map Instr.decByte := by
  simp [decompressCommands, loadCommands]

theorem loadCommands_putsNoByte (table : Nat → Count) : ∀ i ∈ loadCommands table, putsNoByte i = true := by
  simp [loadCommands, putsNoByte, or_imp, forall_and]

/-- The first part of the decompress sequence leaves the tree of the table loaded. -/
theorem runCommands_load (s : State) {table : Nat → Count} (heod : table 0x100 ≠ 0) :
    ∃ t, runCommands (loadCommands table) s = some t ∧ AtRest t ∧ TreeOfTable t ∧
      ∀ k, k < Config.nsym → t.ftAt k = table k := by
  obtain ⟨u, hload, hft, hframe⟩ := runCommands_ftSets (ks := List.range 257) (fun k => List.mem_range.1) table
    (s := s.cleared.completed [] 0) rfl
  have hfetch : ∀ k, k < Config.nsym → u.ftAt k = table k := fun k hk => by
    rw [hft, if_pos (List.mem_range.2 hk)]
  have hrest : AtRest u := (AtRest.cleared s).congr (by rw [hframe]) (by rw [hframe]) (by rw [hframe])
  obtain ⟨t, hbuild, ht, htable, hsame⟩ := hrest.build (k := 0x100) (by decide) (by rwa [hfetch _ (by decide)])
  refine ⟨t, ?_, ht, htable, fun k hk => by rw [State.ftAt, hsame]; exact hfetch k hk⟩
  rw [loadCommands, runCommands_cons (exec_clear s), runCommands_append _ hload, runCommands_cons hbuild, runCommands]

/-- Settles O48: both devices have the tree of the same counts, so the payload of the one decodes on the other. -/
theorem compressThenDecompress : Obligations.CompressThenDecompress := by
  unfold Obligations.CompressThenDecompress
  intro s s' input hfit
  obtain ⟨t, hprepare, hrest, htable, hcount, hcodes, heod⟩ := runCommands_prepare s hfit
  have hinv : Inv t := (Inv.cleared s).of_runCommands ((runCommands_cons (exec_clear s)).symm.trans hprepare)
  obtain ⟨x, payload, pad, hencode, heout, -, -, hbits, hx⟩ :=
    payloadLaw t input hrest.errCode hrest.encSt hcodes heod
  have hft : x.ftAt = t.ftAt := by
    rw [hx]
    rfl
  obtain ⟨t', hload, hrest', htable', hloaded⟩ := runCommands_load s' (table := x.ftAt) (by rwa [hft])
  obtain ⟨htm, hnn, hroot⟩ := htable.unique htable' fun k hk => by rw [hloaded k hk, hft]
  obtain ⟨hne, hwalk⟩ := hinv.walks_codes hcodes heod
  have hwalk' := hwalk.congr htm hroot
  rw [hroot] at hwalk'
  obtain ⟨u, hdecode, hdout, hstop, herr⟩ :=
    runCommands_decodePayload hrest'.errCode hrest'.decSt (hnn ▸ hne) hwalk' hbits
  obtain ⟨hquiet, -⟩ := runCommands_putsNoByte (prepareCommands_putsNoByte input) hprepare
  obtain ⟨-, hquiet'⟩ := runCommands_putsNoByte (loadCommands_putsNoByte x.ftAt) hload
  refine ⟨x, payload, u, ?_, ?_, ?_, ?_, herr, ?_, hstop⟩
  · rw [compressCommands_eq, runCommands_append _ hprepare, hencode]
  · rw [hx]
    exact hrest.errCode
  · rw [heout, hquiet]
  · rw [decompressCommands_eq, runCommands_append _ hload, hdecode]
  · rw [hdout, hquiet']

end Sys2Proof.Machine
end

section
/-! NOP (R241). -/

namespace Sys2Proof.Machine

theorem exec_nop (s : State) : exec .nop s = .next (s.completed [] 0) := respond_eq _ _

theorem encode_nop : encode .nop = 0x0100000000000000 := by decide

/-- Settles O18: NOP only completes, its word is its encoding, and the all-zero word is one of the illegal words. -/
theorem nopDoesNothing : Obligations.NopDoesNothing := by
  unfold Obligations.NopDoesNothing
  obtain ⟨-, -, hzero, -⟩ := illegalWords
  refine ⟨fun s => ?_, ?_, hzero⟩
  · rw [exec_nop, State.completed, List.append_nil]
  · rw [← encode_nop]
    exact decodeOfEncode .nop

end Sys2Proof.Machine
end

section
/-! The port FAULT after a command, and safe runs (R262, R263, R266, R270). -/

namespace Sys2Proof.Machine

/-! ### FAULT and the responses -/

@[simp] theorem State.faultLine_completed (s : State) (evs : List PortEvent) (d : Data64) :
    (s.completed evs d).faultLine = s.faultLine := rfl

/-- Fault entry raises FAULT, or leaves it high (R262, R270). -/
theorem State.faultLine_afterFault (s : State) {k : Rstat} (hk : k ≠ .ok) (w : Cmd64) :
    (s.afterFault k w).faultLine = true := by
  rw [State.faultLine, State.faulted, State.afterFault_errCode, decide_eq_true_eq]
  split
  · exact hk
  · next hfault => exact hfault

/-- The effects of a command, taken alone, deliver no response. -/
theorem CommandEffect.keeps_responses {i : Instr} {s u : State} (h : CommandEffect i s u) :
    u.responses = s.responses := by
  obtain ⟨bytes, hout, hnone⟩ := h.out_bytes
  rw [State.responses, hout, List.filterMap_append, List.filterMap_eq_nil_iff.2 hnone, List.append_nil]
  rfl

/-- However a command ends, it delivers one response, and raises FAULT exactly with a response that is a fault. -/
theorem EndsOn.response_faultLine {i : Instr} {u t : State} (h : EndsOn i u t) :
    ∃ r, t.responses = u.responses ++ [r] ∧ t.faultLine = (u.faultLine || decide (r.rstat ≠ .ok)) := by
  rcases h with ⟨d, rfl⟩ | ⟨k, hk, -, rfl⟩
  · exact ⟨⟨.ok, d⟩, by simp [State.responses, PortEvent.onRsp], by simp⟩
  · exact ⟨⟨k, 0⟩, by simp [State.responses, PortEvent.onRsp], by simp [State.faultLine_afterFault u hk, hk]⟩

/-- The response of a command and the level of FAULT after it: CLEAR leaves FAULT low (R266), and the effects of every
other command leave the latch alone. -/
theorem exec_response_faultLine {i : Instr} {s t : State} (h : exec i s = .next t) :
    ∃ r, t.responses = s.responses ++ [r] ∧
      t.faultLine = (decide (i ≠ .clear) && (s.faultLine || decide (r.rstat ≠ .ok))) := by
  obtain ⟨u, heffect, hend⟩ := exec_explained i s t h
  obtain ⟨r, hresp, hline⟩ := hend.response_faultLine
  refine ⟨r, by rw [hresp, heffect.keeps_responses], ?_⟩
  by_cases hi : i = .clear
  · subst hi
    rw [exec_clear, Host.Outcome.next.injEq] at h
    subst h
    rfl
  · obtain ⟨hcode, -⟩ := heffect.keeps_latch hi
    rw [hline, State.faultLine, State.faulted, hcode, decide_eq_true hi, Bool.true_and]
    rfl

/-- Settles O15: a command delivers one response, so the given one is the one that FAULT follows. -/
theorem faultLineFollowsLatch : Obligations.FaultLineFollowsLatch := by
  unfold Obligations.FaultLineFollowsLatch
  intro i s t r h hresp
  obtain ⟨r', hresp', hline⟩ := exec_response_faultLine h
  obtain rfl : r' = r := by simpa [hresp] using hresp'.symm
  exact hline

/-! ### Safe runs -/

theorem State.faultLine_eq_false_iff (s : State) : s.faultLine = false ↔ s.errCode = .ok := by
  simp [State.faultLine, State.faulted]

theorem State.safeRun_iff (s : State) :
    s.safeRun = true ↔ s.faultLine = false ∧ ∀ r ∈ s.responses, r.rstat = .ok := by
  simp [State.safeRun, State.faultLine_eq_false_iff]

/-- Settles O16: all responses before it were ok, and from low FAULT rises only with a fault. -/
theorem safeRunExtends : Obligations.SafeRunExtends := by
  unfold Obligations.SafeRunExtends
  intro i s t r hsafe h hresp
  obtain ⟨hlow, hold⟩ := s.safeRun_iff.1 hsafe
  have hline := faultLineFollowsLatch i s t r h hresp
  rw [State.safeRun_iff, hresp, List.forall_mem_append, List.forall_mem_singleton]
  constructor
  · rintro ⟨-, -, hok⟩
    exact hok
  · intro hok
    exact ⟨by simp [hline, hlow, hok], hold, hok⟩

end Sys2Proof.Machine
end

section
/-! Nothing presented (R277), the refusal while FAULTED (R264), and the state preconditions (R190, R210, R267). -/

namespace Sys2Proof.Machine

/-- Settles O6: of the two things a step can do, only one is possible with an empty list. -/
theorem idleHoldsState : Obligations.IdleHoldsState := by
  unfold Obligations.IdleHoldsState
  intro s hidle
  rcases step_cases s with ⟨-, h⟩ | ⟨e, rest, hhost, -⟩
  · exact h
  · rw [hidle] at hhost
    cases hhost

/-! ### FAULTED -/

/-- A command whose meaning begins with the FAULTED check is refused while a fault is latched. -/
theorem exec_refused {i : Instr} {s : State} {body : Answer} (hfault : s.errCode ≠ .ok)
    (h : exec i s = unlessFaulted i s body) :
    exec i s = .next { s with out := s.out ++ [.rsp ⟨.eFaulted, 0⟩] } := by
  rw [h, unlessFaulted_faulted hfault, State.afterFault_of_faulted hfault]
  rfl

/-- Settles O10: the meaning of each of the twelve commands begins with the FAULTED check. -/
theorem faultedRefusal : Obligations.FaultedRefusal := by
  unfold Obligations.FaultedRefusal
  intro s hfault i hrefused
  cases i with
  | nop | clear | rdReg | ftRead | tmRead | ctRead => exact hrefused.elim
  | _ => exact exec_refused hfault rfl

/-! ### The checks of each command, with no fault latched -/

theorem State.present_eq_nil {s : State} (hempty : ∀ k, k < 257 → s.ftAt k = 0) : s.present = [] :=
  List.eq_nil_iff_forall_not_mem.2 fun k hk =>
    have ⟨hlt, hcount⟩ := (s.mem_present k).1 hk
    hcount (hempty k hlt)

section
variable {s : State} (hok : s.errCode = .ok)
include hok

theorem exec_build_inRun (hrun : s.encSt = .run ∨ s.decSt = .run) :
    exec .build s = .next (s.afterFault .eState (encode .build)) := by
  rw [exec, execBuild, unlessFaulted_ok hok, if_pos hrun, raise_eq]

theorem exec_build_emptyTable (henc : s.encSt ≠ .run) (hdec : s.decSt ≠ .run) (hempty : s.present = []) :
    exec .build s = .next (s.afterFault .eInvalidInput (encode .build)) := by
  rw [exec, execBuild, unlessFaulted_ok hok, if_neg (not_or.2 ⟨henc, hdec⟩), if_pos hempty, raise_eq]

theorem exec_encSym_notInRun (hrun : s.encSt ≠ .run) (d : Byte) :
    exec (.encSym d) s = .next (s.afterFault .eState (encode (.encSym d))) := by
  rw [exec, execEncSym, unlessFaulted_ok hok, if_pos hrun, raise_eq]

theorem exec_encEnd_notInRun (hrun : s.encSt ≠ .run) :
    exec .encEnd s = .next (s.afterFault .eState (encode .encEnd)) := by
  rw [exec, execEncEnd, unlessFaulted_ok hok, if_pos hrun, raise_eq]

theorem exec_encSym_noCode (hrun : s.encSt = .run) {d : Byte} (hcode : s.ctAt d.toNat = []) :
    exec (.encSym d) s = .next (s.afterFault .eMissingCode (encode (.encSym d))) := by
  rw [exec, execEncSym, unlessFaulted_ok hok, if_neg (not_not.2 hrun), if_pos hcode, raise_eq]

theorem exec_encEnd_noCode (hrun : s.encSt = .run) (hcode : s.ctAt eodIndex = []) :
    exec .encEnd s = .next (s.afterFault .eMissingCode (encode .encEnd)) := by
  rw [exec, execEncEnd, unlessFaulted_ok hok, if_neg (not_not.2 hrun), if_pos hcode, raise_eq]

theorem decodeBits_idle (hidle : s.decSt = .idle) (i : Instr) (bits : List Bool) :
    decodeBits i bits s = .next (s.afterFault .eState (encode i)) := by
  rw [decodeBits, unlessFaulted_ok hok, if_pos hidle, raise_eq]

theorem exec_decEnd_idle (hidle : s.decSt = .idle) :
    exec .decEnd s = .next (s.afterFault .eState (encode .decEnd)) := by
  rw [exec, execDecEnd, unlessFaulted_ok hok, if_pos hidle, raise_eq]

end

/-- Settles O12, check by check. -/
theorem statePreconditions : Obligations.StatePreconditions := by
  unfold Obligations.StatePreconditions
  intro s hok
  obtain ⟨-, hnotree, hdecRun⟩ := decStartStandsAtRoot s hok
  refine ⟨exec_build_inRun hok, fun henc hdec hempty => ?_, exec_encStart_inRun hok, fun hrun => ?_, fun hrun => ?_,
    hdecRun, hnotree, fun hidle => ?_⟩
  · exact exec_build_emptyTable hok henc hdec (State.present_eq_nil hempty)
  · exact ⟨exec_encSym_notInRun hok hrun, exec_encEnd_notInRun hok hrun⟩
  · exact ⟨fun _ => exec_encSym_noCode hok hrun, exec_encEnd_noCode hok hrun⟩
  · exact ⟨fun _ => decodeBits_idle hok hidle _ _, fun _ => decodeBits_idle hok hidle _ _, exec_decEnd_idle hok hidle⟩

end Sys2Proof.Machine
end

section
/-! DEC_END (R215, R269). -/

namespace Sys2Proof.Machine

/-- In RUN the stop is a normal one, at ROOT. -/
theorem exec_decEnd_inRun {s : State} (hok : s.errCode = .ok) (hrun : s.decSt = .run) :
    exec .decEnd s = .next ((s.setDec .doneTrunc s.root).completed [] 3) := by
  have hidle : s.decSt ≠ .idle := by simp [hrun]
  rw [exec, execDecEnd, unlessFaulted_ok hok, if_neg hidle, if_pos hrun, respond_eq]
  rfl

/-- After a stop only DEC_ST is answered. -/
theorem exec_decEnd_stopped {s : State} (hok : s.errCode = .ok) (hidle : s.decSt ≠ .idle) (hrun : s.decSt ≠ .run) :
    exec .decEnd s = .next { s with out := s.out ++ [.rsp ⟨.ok, s.decSt.code.setWidth 64⟩] } := by
  rw [exec, execDecEnd, unlessFaulted_ok hok, if_neg hidle, if_neg hrun]
  rfl

/-- Settles O45, by DEC_ST. -/
theorem decEndStops : Obligations.DecEndStops := by
  unfold Obligations.DecEndStops
  intro s hok
  refine ⟨fun hrun => ?_, fun hst => ?_, fun hst => ?_, exec_decEnd_idle hok⟩
  · rw [exec_decEnd_inRun hok hrun, State.completed, List.append_nil]
    rfl
  · rw [exec_decEnd_stopped hok (by simp [hst]) (by simp [hst]), hst]
    rfl
  · rw [exec_decEnd_stopped hok (by simp [hst]) (by simp [hst]), hst]
    rfl

end Sys2Proof.Machine
end

section
/-! CLEAR (R242), RST between commands (R300, R302) and RST during a command (R301). -/

namespace Sys2Proof.Machine

/-- RST leaves the cleared state and no response. -/
theorem step_of_host_reset {s : State} {rest : List HostEvent} (hhost : s.host = .reset :: rest) :
    step s = .next (s.setHost rest).cleared :=
  step_of_host_cons hhost

/-- Settles O7: both actions leave the cleared state, and CLEAR adds its response. -/
theorem resetAndClearAgree : Obligations.ResetAndClearAgree := by
  unfold Obligations.ResetAndClearAgree
  intro s rest
  constructor
  · intro hhost
    rw [step_of_host_reset hhost]
    rfl
  · rw [exec_clear, State.completed, List.append_nil]
    rfl

/-- The response is what `bytesOf` leaves out: of bytes followed by a response it keeps exactly the bytes. -/
theorem bytesOf_append_rsp {bytes : List PortEvent} (hbytes : ∀ e ∈ bytes, e.onRsp = none) (r : Resp) :
    bytesOf (bytes ++ [.rsp r]) = bytes := by
  have hkept : bytes.filter (fun e => e.onRsp.isNone) = bytes := by
    rw [List.filter_eq_self]
    intro e he
    rw [hbytes e he, Option.isNone_none]
  rw [bytesOf, List.filter_append, hkept]
  exact List.append_nil bytes

/-- RST during a command that would emit `bytes` and a response: the cleared state, with as many of the bytes on the ports
as the free draw says. -/
theorem presentCutByReset_of_present {s u : State} {w : Cmd64} {bytes : List PortEvent} {r : Resp}
    (hpresent : present w s = .next u) (hout : u.out = s.out ++ bytes ++ [.rsp r])
    (hbytes : ∀ e ∈ bytes, e.onRsp = none) :
    presentCutByReset w s = .next { State.reset with
      host := s.host, out := s.out ++ bytes.take (Config.bytesBeforeReset s.draws), draws := s.draws + 1 } := by
  have hleft : bytesOf (u.out.drop s.out.length) = bytes := by
    rw [hout, List.append_assoc, List.drop_left, bytesOf_append_rsp hbytes]
  simp only [presentCutByReset, hpresent, hleft]
  rfl

/-- Settles O9: whatever the free draw is, what it takes of the bytes is a first part of them. -/
theorem commandCutByReset : Obligations.CommandCutByReset := by
  unfold Obligations.CommandCutByReset
  intro s u w rest bytes r hhost hpresent hout hbytes
  have hcut := presentCutByReset_of_present (s := s.setHost rest) hpresent hout hbytes
  exact ⟨_, bytes.take (Config.bytesBeforeReset s.draws), (step_of_host_cons hhost).trans hcut, List.take_prefix _ _, rfl⟩

end Sys2Proof.Machine
end
